-- ==== Sys2Proof/Word.lean ====
section
/-! DEFINITION. The machine's basic values: the 32-bit integers every register, cell, latch and FIFO entry holds
(spec 00_scope.md R8, 41_arithmetic_logic.md R170), the 64-bit intermediates of the ALU, and the character strings that
instruction text and register names are (10_state.md R33, 30_encoding.md R80 to R82). -/

namespace Sys2Proof

/-- `i32` of R8: a 32-bit two's-complement integer; `BitVec.toInt` is its signed reading. -/
abbrev Word := BitVec 32

/-- `i64` of R8: the widened intermediate of the ALU (R151). -/
abbrev WideWord := BitVec 64

/-- A character string: the text of an instruction, of a halt reason, of a signal's name. -/
abbrev Text := List Char

/-- A token of an instruction text (R82): the checks that it is non-empty and holds no whitespace are
`tokenValid` in Machine/Text.lean. -/
abbrev Token := List Char

/-- The signed value of a word, as the mathematical integer R8 compares and computes with. -/
abbrev Word.val (w : Word) : Int := w.toInt

/-- `sext_64` of R8. -/
def Word.sext64 (w : Word) : WideWord := w.signExtend 64

/-- `trunc_32` of R8. -/
def WideWord.trunc32 (w : WideWord) : Word := w.setWidth 32

end Sys2Proof
end

