-- ==== Sys2Proof/Machine/Text.lean ====
section
/-! DEFINITION. Character strings: whitespace and tokens (30_encoding.md R81, R82), integer literals (R83), and decimal
rendering for the halt reasons of 60_exceptions.md R241. -/

namespace Sys2Proof.Machine

/-- The whitespace set of R81: space, tab, LF, VT, FF, CR. -/
def isSpace (c : Char) : Bool :=
  c.toNat == 0x20 || (0x09 ≤ c.toNat && c.toNat ≤ 0x0D)

/-- The token read so far, put before the tokens that follow; an empty one is no token (R81). -/
def endToken (cur : Text) (rest : List Token) : List Token :=
  match cur with
  | [] => rest
  | c :: cs => (c :: cs) :: rest

/-- The tokens of a string of which `cur` is the token read so far. -/
def tokensFrom (cur : Text) : Text → List Token
  | [] => endToken cur []
  | c :: cs => if isSpace c then endToken cur (tokensFrom [] cs) else tokensFrom (cur ++ [c]) cs

/-- `tokens(s)` of R81: the maximal runs of non-whitespace characters, in order. -/
def tokens (t : Text) : List Token := tokensFrom [] t

/-- What R82 asks of a token: non-empty, no whitespace character in it. -/
def tokenValid (t : Token) : Bool :=
  !t.isEmpty && t.all (fun c => !isSpace c)

/-- The value of a decimal digit `0` to `9`. -/
def digitValue (c : Char) : Option Nat :=
  if 0x30 ≤ c.toNat ∧ c.toNat ≤ 0x39 then some (c.toNat - 0x30) else none

/-- The number a run of digits spells, most significant first, after digits worth `acc`. -/
def digitsValue (acc : Nat) : Text → Option Nat
  | [] => some acc
  | c :: cs =>
    match digitValue c with
    | none => none
    | some d => digitsValue (acc * 10 + d) cs

/-- `digit+` of R83. -/
def parseDigits : Text → Option Nat
  | [] => none
  | c :: cs => digitsValue 0 (c :: cs)

/-- `sign? digit+` of R83, before the range check. -/
def parseLiteral : Text → Option Int
  | [] => none
  | c :: cs =>
    if c = '-' then (parseDigits cs).map (fun n : Nat => -(n : Int))
    else if c = '+' then (parseDigits cs).map (fun n : Nat => (n : Int))
    else (parseDigits (c :: cs)).map (fun n : Nat => (n : Int))

/-- The range `[-2147483648, 2147483647]` of an `i32` (R8, R83). -/
def inI32Range (v : Int) : Bool :=
  decide (-2147483648 ≤ v) && decide (v ≤ 2147483647)

/-- `parse_int(t)` of R83: the number the token spells, or `none` where R83 raises BAD_INTEGER. -/
def parseInt (t : Token) : Option Word :=
  match parseLiteral t with
  | none => none
  | some v => if inI32Range v then some (BitVec.ofInt 32 v) else none

/-- The character of a decimal digit. -/
def digitChar (d : Nat) : Char := Char.ofNat (0x30 + d)

/-- The decimal digits of `n`, most significant first, by structural recursion on the fuel. -/
def decimalDigits : Nat → Nat → Text
  | 0, _ => []
  | fuel + 1, n => if n < 10 then [digitChar n] else decimalDigits fuel (n / 10) ++ [digitChar (n % 10)]

/-- A natural number in decimal. -/
def natText (n : Nat) : Text := decimalDigits (n + 1) n

/-- An integer in decimal, with a minus sign where negative. -/
def intText (v : Int) : Text :=
  if v < 0 then '-' :: natText v.natAbs else natText v.natAbs

end Sys2Proof.Machine
end

