-- ==== Sys2Proof/Config.lean ====
section
/-! DEFINITION. The implementation parameters of 00_scope.md R5, fixed when the machine is constructed, and the values no
source fixes, as constants without a body: nothing can prove a value of them. -/

namespace Sys2Proof

/-- `CJ_POP` of R5: whether a conditional jump removes the head FIFO entry when it is not taken. -/
inductive CjPop where
  | always
  | takenOnly
deriving DecidableEq, Repr

/-- The parameters a machine is constructed with (R5, R295): no event changes them. The state carries them, so every
statement over all states is a statement over all parameter values. `XLEN` is the type `Word`, and `NDEV` is the length of the state's device list. -/
structure Params where
  /-- `MEM_CAPACITY`: the number of cells of the data memory, at most 2^31. -/
  memCapacity : Nat
  /-- `LOGIC_EXT`: whether the control store holds AND, OR, XOR, NOT. -/
  logicExt : Bool
  /-- `CJ_POP`. -/
  cjPop : CjPop
  /-- `DIV_OVF`: the overflow flag of DIV at -2^31 / -1. -/
  divOvf : Bool
  /-- `IQ_DEPTH`: the capacity of the interrupt FIFO, `none` for unbounded. -/
  iqDepth : Option Nat
deriving DecidableEq, Repr

/-- The bound R5 puts on `MEM_CAPACITY`. -/
abbrev Params.ok (p : Params) : Prop := p.memCapacity ≤ 2 ^ 31

/-- The parameters of the machine whose reset state is `State.reset`: the defaults of R5, and for the open
`MEM_CAPACITY` the 16 cells of the conventions of 95_test_vectors.md. DESIGN CHOICE, log entry 1. -/
def Params.standard : Params :=
  { memCapacity := 16, logicExt := true, cjPop := .always, divOvf := true, iqDepth := none }

/-- The answers `status()` may give (43_io.md R214). -/
inductive DeviceStatus where
  | idle | busy | waiting | opened | eof | error | closed
deriving DecidableEq, Repr, Inhabited

/-- `FetchDigest` of R5, an open parameter: the value `Mem_read,PC_inc` puts in MBR. A free value, log entry 3. -/
opaque Config.fetchDigest : Text → Word

/-- `ProvText` of R5, an open parameter: the provenance text a register write records, from the writing signal's name,
the instruction text, the register's name and the value. A free value that no rule reads, log entry 4. -/
opaque Config.provText : Text → Text → Token → Word → Text

/-- What device `i` answers to its read number `n` (counted from 0) when the state lists no supplied value: a free
value, the environment's oracle of 43_io.md R210. Log entry 5. -/
opaque Config.deviceValue : Nat → Nat → Word

/-- What `status()` of device `i` answers after `r` reads and `w` writes (R214): a free value no signal reads. Log
entry 6. -/
opaque Config.deviceStatus : Nat → Nat → Nat → DeviceStatus

/-- What `id()` of device `i` answers (R214): a free value no signal reads. Log entry 6. -/
opaque Config.deviceId : Nat → Text

/-- Which of the entries of a full interrupt FIFO and the new one, head first, are still there after a request: a free
value of the depth, the entries and the new code. R5 lets `IQ_DEPTH` be a number, and no rule says what a request on a
full FIFO leaves. DESIGN CHOICE, log entry 14. -/
opaque Config.fullFifoKeeps : Nat → List Word → Word → List Bool

end Sys2Proof
end

