-- ==== Sys2Proof/Syntax.lean ====
section
/-! DEFINITION. The instruction set of 30_encoding.md R88: one constructor of `Instr` per row of the opcode table; the keys
of the control store; and the control signals of 40_microengine.md R107 to R137, of which microprograms are made. -/

namespace Sys2Proof

/-- A key of the control store (R88, R103): the mnemonics and the reserved entry FETCH. -/
inductive Key where
  | add | sub | mul | div | and | or | xor | not
  | movImm | movReg | load | store | inputChar | outputChar
  | jmp | cmp | je | jne | hlt | fetch
deriving DecidableEq, Repr

/-- An operand position of an instruction: the token that stands there, or `none` when the text has too few tokens.
A missing operand is no decode-time error (R93): the signal that needs it halts, and a conditional jump that is not
taken never needs it. -/
abbrev Operand := Option Token

/-- An instruction: the row of the opcode table its mnemonic selects, and the tokens in its operand positions in the
order of R86. Tokens stay text: a register name is any token, and an integer literal is parsed only by the signal that
needs the number (R82, R93). -/
inductive Instr where
  /-- `ADD a b d` (R160). -/
  | add (a b d : Operand)
  /-- `SUB a b d` (R161). -/
  | sub (a b d : Operand)
  /-- `MUL a b d` (R162). -/
  | mul (a b d : Operand)
  /-- `DIV a b d` (R163). -/
  | div (a b d : Operand)
  /-- `AND a b d` (R164). -/
  | and (a b d : Operand)
  /-- `OR a b d` (R165). -/
  | or (a b d : Operand)
  /-- `XOR a b d` (R166). -/
  | xor (a b d : Operand)
  /-- `NOT s d`: source, then destination (R167). -/
  | not (src dst : Operand)
  /-- `MOV_IMM d i`: destination, then integer literal (R190). -/
  | movImm (dst imm : Operand)
  /-- `MOV_REG s d`: source, then destination (R191). -/
  | movReg (src dst : Operand)
  /-- `LOAD d m`: destination, then data address (R192). -/
  | load (dst addr : Operand)
  /-- `STORE s m`: source, then data address (R193). -/
  | store (src addr : Operand)
  /-- `INPUT_CHAR` (R212). -/
  | inputChar
  /-- `OUTPUT_CHAR` (R213). -/
  | outputChar
  /-- `JMP t`: instruction address (R220). -/
  | jmp (target : Operand)
  /-- `CMP a b` (R221). -/
  | cmp (a b : Operand)
  /-- `JE t` (R222). -/
  | je (target : Operand)
  /-- `JNE t` (R223). -/
  | jne (target : Operand)
  /-- `HLT` (R226). -/
  | hlt
  /-- `FETCH`, the reserved key written as an instruction (R227). -/
  | fetch
deriving DecidableEq, Repr

/-- The operand positions of an instruction, token 1 first. -/
def Instr.operands : Instr → List Operand
  | .add a b d => [a, b, d]
  | .sub a b d => [a, b, d]
  | .mul a b d => [a, b, d]
  | .div a b d => [a, b, d]
  | .and a b d => [a, b, d]
  | .or a b d => [a, b, d]
  | .xor a b d => [a, b, d]
  | .not src dst => [src, dst]
  | .movImm dst imm => [dst, imm]
  | .movReg src dst => [src, dst]
  | .load dst addr => [dst, addr]
  | .store src addr => [src, addr]
  | .inputChar => []
  | .outputChar => []
  | .jmp target => [target]
  | .cmp a b => [a, b]
  | .je target => [target]
  | .jne target => [target]
  | .hlt => []
  | .fetch => []

/-- The key of the control store an instruction's mnemonic is. -/
def Instr.key : Instr → Key
  | .add _ _ _ => .add
  | .sub _ _ _ => .sub
  | .mul _ _ _ => .mul
  | .div _ _ _ => .div
  | .and _ _ _ => .and
  | .or _ _ _ => .or
  | .xor _ _ _ => .xor
  | .not _ _ => .not
  | .movImm _ _ => .movImm
  | .movReg _ _ => .movReg
  | .load _ _ => .load
  | .store _ _ => .store
  | .inputChar => .inputChar
  | .outputChar => .outputChar
  | .jmp _ => .jmp
  | .cmp _ _ => .cmp
  | .je _ => .je
  | .jne _ => .jne
  | .hlt => .hlt
  | .fetch => .fetch

/-- A control signal (R10): the 21 of the source, the 9 the spec adds, and any other name, which R137 gives a rule. -/
inductive Signal where
  | pcOutMarIn | memReadPcInc | mbrOutIrIn | decode
  | decodeOperandsRRR | decodeOperandsRR | decodeOperandsRImm | decodeOperandAddr | decodeOperandsRRdest
  | aluAdd | aluSub | aluMul | aluDiv | aluAnd | aluOr | aluXor | aluNot
  | mbrOutRegDestIn | immediateToMbr | reg1ToMbr | addressToMar | memDataReadMbrIn | mbrOutMemDataWrite
  | accToBusWriteToDevice1 | readFromDevice0BusToAcc
  | addressToPc | condJumpIfZero | condJumpIfNotZero | aluCmpInterruptRequest | haltCpu
  /-- A name with no rule of its own; no microprogram of R103 holds one. -/
  | other (name : Text)
deriving DecidableEq, Repr

end Sys2Proof
end

