-- ==== Sys2Proof/WellFormed.lean ====
section
/-! DEFINITION. Well-formed instructions: every operand position its format names (30_encoding.md R86) holds a token (R82).
Whether an integer operand is a literal in range is a separate check, `Instr.literalsOk`: R93 makes a bad literal no
error of the instruction's form. -/

namespace Sys2Proof

/-- An operand position is well formed when a token stands there and it is non-empty without whitespace. -/
def Operand.wellFormed (o : Operand) : Bool :=
  match o with
  | none => false
  | some t => Machine.tokenValid t

/-- R86: the text has at least the tokens the format names, and each is a token of R82. -/
def Instr.wellFormed (i : Instr) : Bool := i.operands.all Operand.wellFormed

/-- An operand that is an integer literal in `i32` range (R83). -/
def Operand.literal (o : Operand) : Bool :=
  match o with
  | none => false
  | some t => (Machine.parseInt t).isSome

/-- Every immediate and every address of the instruction is an integer literal in range (R95). -/
def Instr.literalsOk : Instr → Bool
  | .add _ _ _ => true
  | .sub _ _ _ => true
  | .mul _ _ _ => true
  | .div _ _ _ => true
  | .and _ _ _ => true
  | .or _ _ _ => true
  | .xor _ _ _ => true
  | .not _ _ => true
  | .movImm _ imm => imm.literal
  | .movReg _ _ => true
  | .load _ addr => addr.literal
  | .store _ addr => addr.literal
  | .inputChar => true
  | .outputChar => true
  | .jmp target => target.literal
  | .cmp _ _ => true
  | .je target => target.literal
  | .jne target => target.literal
  | .hlt => true
  | .fetch => true

end Sys2Proof
end

