-- ==== Sys2Proof/Decode.lean ====
section
/-! DEFINITION. Reading an instruction from its text (30_encoding.md R80 to R91, 40_microengine.md R110) and writing the text
of an instruction. The spec has no binary encoding (R80): the bytes of an instruction are the character codes of its
text, for the host's word interface only (log entry 7). -/

namespace Sys2Proof

open Machine

/-- The mnemonic of a key, as an exact case-sensitive string (R88). -/
def Key.name : Key → Text
  | .add => "ADD".toList
  | .sub => "SUB".toList
  | .mul => "MUL".toList
  | .div => "DIV".toList
  | .and => "AND".toList
  | .or => "OR".toList
  | .xor => "XOR".toList
  | .not => "NOT".toList
  | .movImm => "MOV_IMM".toList
  | .movReg => "MOV_REG".toList
  | .load => "LOAD".toList
  | .store => "STORE".toList
  | .inputChar => "INPUT_CHAR".toList
  | .outputChar => "OUTPUT_CHAR".toList
  | .jmp => "JMP".toList
  | .cmp => "CMP".toList
  | .je => "JE".toList
  | .jne => "JNE".toList
  | .hlt => "HLT".toList
  | .fetch => "FETCH".toList

/-- Every key, in the order of R88. -/
def Key.all : List Key :=
  [.add, .sub, .mul, .div, .and, .or, .xor, .not, .movImm, .movReg, .load, .store, .inputChar, .outputChar,
    .jmp, .cmp, .je, .jne, .hlt, .fetch]

/-- The four keys that are in the control store only when `LOGIC_EXT` holds (R103). -/
def Key.needsLogicExt (k : Key) : Bool := [Key.and, Key.or, Key.xor, Key.not].contains k

/-- Whether the control store of a machine with this `LOGIC_EXT` holds the key. -/
def Key.present (logicExt : Bool) (k : Key) : Bool := logicExt || !k.needsLogicExt

/-- The control store's lookup by mnemonic (R88, R110). -/
def lookupKey (logicExt : Bool) (m : Token) : Option Key :=
  Key.all.find? (fun k => k.name == m && k.present logicExt)

/-- The instruction a key and the tokens of its text make: `ts` is the whole token list, token 0 the mnemonic; tokens
beyond those the format names are ignored (R85, R86). -/
def Key.instr (k : Key) (ts : List Token) : Instr :=
  match k with
  | .add => .add ts[1]? ts[2]? ts[3]?
  | .sub => .sub ts[1]? ts[2]? ts[3]?
  | .mul => .mul ts[1]? ts[2]? ts[3]?
  | .div => .div ts[1]? ts[2]? ts[3]?
  | .and => .and ts[1]? ts[2]? ts[3]?
  | .or => .or ts[1]? ts[2]? ts[3]?
  | .xor => .xor ts[1]? ts[2]? ts[3]?
  | .not => .not ts[1]? ts[2]?
  | .movImm => .movImm ts[1]? ts[2]?
  | .movReg => .movReg ts[1]? ts[2]?
  | .load => .load ts[1]? ts[2]?
  | .store => .store ts[1]? ts[2]?
  | .inputChar => .inputChar
  | .outputChar => .outputChar
  | .jmp => .jmp ts[1]?
  | .cmp => .cmp ts[1]? ts[2]?
  | .je => .je ts[1]?
  | .jne => .jne ts[1]?
  | .hlt => .hlt
  | .fetch => .fetch

/-- What reading an instruction text gives. -/
inductive Decoded where
  /-- The instruction the text's mnemonic selects. -/
  | instr (i : Instr)
  /-- The text has no token (R90). -/
  | blank
  /-- Token 0 is no key of the control store (R89). -/
  | unrecognized (m : Token)
deriving DecidableEq, Repr

/-- The decoder, total on every text (R88 to R90): token 0 alone selects the instruction. -/
def decode (logicExt : Bool) (t : Text) : Decoded :=
  match tokens t with
  | [] => .blank
  | m :: rest =>
    match lookupKey logicExt m with
    | some k => .instr (k.instr (m :: rest))
    | none => .unrecognized m

/-- A text is blank when it has no token (R90). -/
def isBlank (t : Text) : Bool := (tokens t).isEmpty

/-- An operand as the encoder writes it: one space and the token; a missing operand is not written. -/
def Operand.encode (o : Operand) : Text :=
  match o with
  | none => []
  | some t => ' ' :: t

/-- The encoder (R80, R86, R94): the mnemonic and the operands, separated by single spaces. -/
def encode (i : Instr) : Text := i.key.name ++ i.operands.flatMap Operand.encode

/-- `n` bytes of `w` as characters, the least significant byte first. -/
def bytesText : Nat → Nat → Text
  | 0, _ => []
  | n + 1, w => Char.ofNat (w % 256) :: bytesText n (w / 256)

/-- `t` without the NUL characters at its end: they pad a word that is longer than its text. -/
def dropTrailingNul : Text → Text
  | [] => []
  | c :: cs =>
    match dropTrailingNul cs with
    | [] => if c.toNat = 0 then [] else [c]
    | d :: ds => c :: d :: ds

/-- The text whose character codes are the bytes of `w`, as many as `nbits` holds. -/
def wordText (nbits w : Nat) : Text := dropTrailingNul (bytesText (nbits / 8) w)

/-- The instruction the decoder reads from an instruction whose bits are `w` (log entry 7). -/
def decodeTableWord (nbits w : Nat) : Option Instr :=
  match decode true (wordText nbits w) with
  | .instr i => some i
  | .blank => none
  | .unrecognized _ => none

end Sys2Proof
end

