-- ==== Sys2Proof/Machine/State.lean ====
section
/-! DEFINITION. The machine's state, whole (10_state.md R20 to R50), the reasons a step may stop, and the machine at power-on
(R49, 70_reset_and_hazards.md R270). -/

namespace Sys2Proof.Machine

/-- An entry of the register file (R20): its value and its provenance, which no rule reads (R24). -/
structure RegEntry where
  value : Word
  provenance : Text
deriving DecidableEq, Repr

/-- The register file: the entries by name, names strictly rising in the order `tokenLt` of Ops.lean, so that equal
register files are equal lists. An unlisted name has no entry (R20). -/
abbrev RegFile := List (Token × RegEntry)

/-- The data memory: (cell index, cell) pairs, indices strictly rising, no cell 0. A cell is one indivisible `i32` and is
never split into bytes (20_memory.md R68); a cell that is not listed holds 0, as every cell does at power-on (R46). -/
abbrev Memory := List (Nat × Word)

/-- The four flags of the ALU (R35). -/
structure Flags where
  z : Bool
  c : Bool
  s : Bool
  v : Bool
deriving DecidableEq, Repr

/-- The halt causes with their payloads (60_exceptions.md R241), in the order of their codes. -/
inductive HaltCause where
  | hltOk
  | endOfProgram (addr : Word)
  | unrecognizedInstruction (mnemonic : Token)
  | unknownSignal (name : Text)
  | operandMissing (index : Nat)
  | badInteger (token : Token)
  | memOutOfRange (addr : Word)
  | divByZero
  | noDevice (index : Nat)
deriving DecidableEq, Repr

/-- A device port as the core meets it (R48, 43_io.md R210, R211): the values the environment has supplied for the next
reads, oldest first; the values the core has written, oldest first; and the MODEL's own counter of reads answered by the
free value `Config.deviceValue` (log entry 5). -/
structure Device where
  supplied : List Word
  written : List Word
  freeReads : Nat
deriving DecidableEq, Repr

/-- The whole machine. -/
structure State where
  /-- The construction parameters (00_scope.md R5): no event changes them (70_reset_and_hazards.md R295). -/
  params : Params
  /-- The program counter, an instruction index (R27). -/
  pc : Word
  /-- The memory address register, of both address spaces (R31). -/
  mar : Word
  /-- The memory buffer register (R32). -/
  mbr : Word
  /-- The instruction register: the text last fetched (R33). -/
  ir : Text
  /-- The register file (R20). -/
  regs : RegFile
  /-- Z, C, S, V (R35). -/
  flags : Flags
  /-- Whether the machine has stopped (R38). -/
  halted : Bool
  /-- Why it stopped (R39). -/
  reason : Option HaltCause
  /-- The microprogram being executed (R40). -/
  active : Option Key
  /-- The cursor into it (R41). -/
  upc : Nat
  /-- Transient decode field operand1 (R43). -/
  op1 : Option Token
  /-- Transient decode field operand2 (R43). -/
  op2 : Option Token
  /-- Transient decode field destination (R43). -/
  dest : Option Token
  /-- The interrupt FIFO, head first (R45). -/
  iq : List Word
  /-- The data memory (R46). -/
  mem : Memory
  /-- The instruction memory, address 0 first (R47). -/
  imem : List Text
  /-- The ordered device list (R48). -/
  devices : List Device
deriving DecidableEq, Repr

/-- Where a step has no rule to run. Both are safe: the machine stops where the spec gives no effect, and no state that
meets the invariant of R41 reaches them (`State.Inv` in Safety.lean). -/
inductive Fault where
  /-- Raised by `signalStep` when the active key is not in the control store: a machine without LOGIC_EXT running one of
  its microprograms (R103). Safe. -/
  | notInControlStore (k : Key)
  /-- Raised by `signalStep` when the cursor is at or past the end of the active microprogram, which R41 excludes. Safe. -/
  | cursorOutOfRange (k : Key) (upc : Nat)
  /-- Raised by `signalStep` when no microprogram is active after the activation of FETCH, which line 1 of R101
  excludes. Safe. -/
  | noMicroprogram
deriving DecidableEq, Repr

/-- Instructions that are turned away. -/
inductive Refusal where
  /-- Raised by an arm of `exec` that has no meaning yet; every arm has one, so nothing raises it. Safe. -/
  | notModelled (mnemonic : String)
deriving DecidableEq, Repr

/-- A device port with nothing supplied, written or read yet. -/
def Device.fresh : Device := { supplied := [], written := [], freeReads := 0 }

/-- The flags at power-on: all false (R37). -/
def Flags.clear : Flags := { z := false, c := false, s := false, v := false }

/-- Power-on (70_reset_and_hazards.md R270, the Power-on column of 10_state.md R49), with the parameters and the device
list the machine is constructed with. -/
def State.powerOn (params : Params) (devices : List Device) : State :=
  { params := params
    pc := 0
    mar := 0
    mbr := 0
    ir := []
    regs := []
    flags := Flags.clear
    halted := false
    reason := none
    active := none
    upc := 0
    op1 := none
    op2 := none
    dest := none
    iq := []
    mem := []
    imem := []
    devices := devices }

/-- The machine right after reset: power-on with the standard parameters and two devices attached, the conventions of
95_test_vectors.md. The parameters and the devices are a DESIGN CHOICE, log entries 1 and 2. -/
def State.reset : State := State.powerOn Params.standard [Device.fresh, Device.fresh]

end Sys2Proof.Machine
end

