-- ==== Sys2Proof/Machine/Ops.lean ====
section
/-! DEFINITION. The shared operations: register file, data memory, instruction memory, interrupt FIFO, devices, the halt
(the machine's only exception) and reload (the only way out of it), and the sequencer's reaction to a signal's outcome. -/

namespace Sys2Proof.Machine

/-! ### Register file (10_state.md R20 to R26) -/

/-- The order of register names the register file is kept in: by character codes, a shorter string before its
extensions. Names are compared as exact strings (R10). -/
def tokenLt : Token → Token → Bool
  | _, [] => false
  | [], _ :: _ => true
  | a :: as, b :: bs => a.toNat < b.toNat || (a.toNat == b.toNat && tokenLt as bs)

/-- The canonical form of a register file: names strictly rising. -/
abbrev RegFile.wf (r : RegFile) : Prop := r.Pairwise (fun x y => tokenLt x.1 y.1 = true)

/-- The entry of a name, if there is one. -/
def RegFile.entry (r : RegFile) (n : Token) : Option RegEntry :=
  match r with
  | [] => none
  | (m, e) :: rest => if n = m then some e else RegFile.entry rest n

/-- `x[n]` of R21: the entry's value, or 0 when there is no entry. -/
def RegFile.read (r : RegFile) (n : Token) : Word :=
  match r.entry n with
  | none => 0
  | some e => e.value

/-- `x[n] <- v` of R22: creates the entry or replaces it. -/
def RegFile.write (r : RegFile) (n : Token) (e : RegEntry) : RegFile :=
  match r with
  | [] => [(n, e)]
  | (m, f) :: rest =>
    if n = m then (n, e) :: rest
    else if tokenLt n m then (n, e) :: (m, f) :: rest
    else (m, f) :: RegFile.write rest n e

/-- `registerNames()` of R23. -/
def RegFile.names (r : RegFile) : List Token := r.map Prod.fst

/-- The accumulator's name (R25). -/
def accName : Token := "ACC".toList

/-- Register read on the state. -/
def State.readReg (s : State) (n : Token) : Word := s.regs.read n

/-- Register write on the state; the provenance is the open text of `ProvText` (R22, R24), by the name of the signal that
writes. -/
def State.writeReg (s : State) (signalName : Text) (n : Token) (v : Word) : State :=
  { s with regs := s.regs.write n { value := v, provenance := Config.provText signalName s.ir n v } }

/-! ### Data memory (20_memory.md R60 to R70) -/

/-- The canonical form: cell indices strictly rising, no listed cell 0. -/
abbrev Memory.wf (m : Memory) : Prop := m.Pairwise (fun x y => x.1 < y.1) ∧ ∀ c ∈ m, c.2 ≠ 0

/-- What a cell that is not listed holds: 0, the power-on content of every cell (R46). -/
def Memory.unlisted : Word := 0

/-- The content of cell `a`. -/
def Memory.read (m : Memory) (a : Nat) : Word :=
  match m with
  | [] => Memory.unlisted
  | (b, w) :: rest => if a = b then w else Memory.read rest a

/-- The pair a cell's content is listed as: none for the unlisted content. -/
def Memory.listed (a : Nat) (v : Word) : Memory := if v = Memory.unlisted then [] else [(a, v)]

/-- The memory with `v` in cell `a`, in canonical form. -/
def Memory.write (m : Memory) (a : Nat) (v : Word) : Memory :=
  match m with
  | [] => Memory.listed a v
  | (b, w) :: rest =>
    if a < b then Memory.listed a v ++ (b, w) :: rest
    else if a = b then Memory.listed a v ++ rest
    else (b, w) :: Memory.write rest a v

/-- The cell a data address names: an address below 0 or at or above `MEM_CAPACITY` names none (R61, R62). -/
def cellIndex (p : Params) (a : Word) : Option Nat :=
  if a.toInt < 0 ∨ (p.memCapacity : Int) ≤ a.toInt then none else some a.toInt.toNat

/-- `MemRead(a, 1)` of R61: `none` where it raises MEM_OUT_OF_RANGE. -/
def State.memRead (s : State) (a : Word) : Option Word :=
  (cellIndex s.params a).map s.mem.read

/-- `MemWrite(a, 1, v)` of R62: `none` where it raises MEM_OUT_OF_RANGE, and then no cell changes. -/
def State.memWrite (s : State) (a v : Word) : Option State :=
  (cellIndex s.params a).map (fun k => { s with mem := s.mem.write k v })

/-- The addressing strategy `resolve(address, cpu)` of R64: direct, the only one. -/
def State.resolve (s : State) (a : Word) : Option Word := s.memRead a

/-! ### Instruction memory (R66) -/

/-- `IMemRead(a)` of R66: the text at index `a`, or `none` for absent. -/
def State.imemRead (s : State) (a : Word) : Option Text :=
  if a.toInt < 0 then none else s.imem[a.toInt.toNat]?

/-! ### Interrupt FIFO (10_state.md R45, 60_exceptions.md R249 to R253) -/

/-- Whether a FIFO of capacity `depth`, `none` for unbounded, has room for one more entry after `n` of them (R5, R45). -/
def fifoHasRoom (depth : Option Nat) (n : Nat) : Bool :=
  match depth with
  | none => true
  | some d => decide (n < d)

/-- The entries whose mark is true, in their order; an entry without a mark is dropped. -/
def keepMarked : List Bool → List Word → List Word
  | [], _ => []
  | _ :: _, [] => []
  | k :: ks, e :: es => if k then e :: keepMarked ks es else keepMarked ks es

/-- What a full FIFO of capacity `d` holds after a request: a free choice among its entries and the new one, in their
order, never more than `d` of them (R45). DESIGN CHOICE, log entry 14. -/
def fullFifo (d : Nat) (iq : List Word) (code : Word) : List Word :=
  (keepMarked (Config.fullFifoKeeps d iq code) (iq ++ [code])).take d

/-- The FIFO after a request: one entry more at the tail, where there is room for it (R249). -/
def fifoRequest (depth : Option Nat) (iq : List Word) (code : Word) : List Word :=
  match depth with
  | none => iq ++ [code]
  | some d => if fifoHasRoom (some d) iq.length then iq ++ [code] else fullFifo d iq code

/-- `request(code)`, which never fails (R249, R253). -/
def State.iqRequest (s : State) (code : Word) : State := { s with iq := fifoRequest s.params.iqDepth s.iq code }

/-- `hasPending()`. -/
def State.iqHasPending (s : State) : Bool := !s.iq.isEmpty

/-- `process()`: drains the FIFO. No signal and no event invokes it (R252). -/
def State.iqProcess (s : State) : State := { s with iq := [] }

/-! ### Devices (43_io.md R210, R211, R214) -/

/-- What `read()` of port `i` answers, and the port afterwards: the next supplied value, or the environment's free answer
when none is listed. -/
def Device.take (i : Nat) (d : Device) : Word × Device :=
  match d.supplied with
  | v :: rest => (v, { d with supplied := rest })
  | [] => (Config.deviceValue i d.freeReads, { d with freeReads := d.freeReads + 1 })

/-- `DevRead(i)` of R210: the value and the state after the read; `none` where it raises NO_DEVICE. -/
def State.devRead (s : State) (i : Nat) : Option (Word × State) :=
  match s.devices[i]? with
  | none => none
  | some d => some ((Device.take i d).1, { s with devices := s.devices.set i (Device.take i d).2 })

/-- `DevWrite(i, v)` of R211: `none` where it raises NO_DEVICE. -/
def State.devWrite (s : State) (i : Nat) (v : Word) : Option State :=
  match s.devices[i]? with
  | none => none
  | some d => some { s with devices := s.devices.set i { d with written := d.written ++ [v] } }

/-- `status()` of port `i` (R214): no signal calls it. -/
def State.devStatus (s : State) (i : Nat) : Option DeviceStatus :=
  (s.devices[i]?).map (fun d => Config.deviceStatus i d.freeReads d.written.length)

/-- `id()` of port `i` (R214): no signal calls it. -/
def State.devId (s : State) (i : Nat) : Option Text :=
  (s.devices[i]?).map (fun _ => Config.deviceId i)

/-! ### The halt and the way out of it (60_exceptions.md R240, R245, R246; 70_reset_and_hazards.md R272) -/

/-- `raise Halt(cause, info)` of R240, on the state the signal has made so far: sets `halted` and `reason`, saves and
redirects nothing (R245). -/
def raiseHalt (c : HaltCause) (s : State) : State := { s with halted := true, reason := some c }

/-- `LoadProgram(p)` of R272, the only recovery (R246): data memory, flags, parameters and devices stay (R273). -/
def loadProgram (p : List Text) (s : State) : State :=
  { s with
    imem := p
    pc := 0
    ir := []
    mar := 0
    mbr := 0
    regs := []
    iq := []
    op1 := none
    op2 := none
    dest := none
    active := none
    upc := 0
    halted := false
    reason := none }

/-! ### Signals' outcomes and the sequencer (40_microengine.md R102) -/

/-- How a signal rule ends (R102), with the state its effects have made. -/
inductive SigResult where
  | next (s : State)
  | activate (k : Key) (s : State)
  | clear (s : State)
  | halt (c : HaltCause) (s : State)
deriving DecidableEq, Repr

/-- The state a signal's effects have made, however it ends. -/
def SigResult.state : SigResult → State
  | .next s => s
  | .activate _ s => s
  | .clear s => s
  | .halt _ s => s

/-- What the sequencer does with an outcome (R102), in a microprogram of `len` signals. -/
def applyResult (len : Nat) : SigResult → State
  | .next s => if s.upc + 1 = len then { s with active := none, upc := 0 } else { s with upc := s.upc + 1 }
  | .activate k s => { s with active := some k, upc := 0 }
  | .clear s => { s with active := none, upc := 0 }
  | .halt c s => raiseHalt c s

/-- Signals of a microprogram of `len` signals, one after another, until one of them ends otherwise than `Next`. -/
def runSignals (len : Nat) : List (State → SigResult) → State → State
  | [], s => s
  | sig :: rest, s =>
    match sig s with
    | .next s' => runSignals len rest (applyResult len (.next s'))
    | .activate k s' => applyResult len (.activate k s')
    | .clear s' => applyResult len (.clear s')
    | .halt c s' => applyResult len (.halt c s')

/-- The state in which the microprogram of `k` starts: `Activate(k)` of R102. -/
def State.activated (s : State) (k : Key) : State := { s with active := some k, upc := 0 }

/-- A whole microprogram (R103), from its activation to its end. -/
def runProgram (k : Key) (sigs : List (State → SigResult)) (s : State) : State :=
  runSignals sigs.length sigs (s.activated k)

end Sys2Proof.Machine
end

