-- ==== Sys2Proof/Machine/Operands.lean ====
section
/-! DEFINITION. Operands: the tokens of the instruction register (30_encoding.md R84), the operand-decode signals
(40_microengine.md R111 to R115, R140), and reading a decode field as a register name or as an integer. -/

namespace Sys2Proof.Machine

/-- `tok(i)` of R84: token `i` of `ir`, or `none` where a signal that needs it raises OPERAND_MISSING. -/
def State.tok (s : State) (i : Nat) : Operand := (tokens s.ir)[i]?

/-- A token at position `i`, handed on, or the halt of R84. -/
def needToken (i : Nat) (o : Operand) (s : State) (k : Token → SigResult) : SigResult :=
  match o with
  | none => .halt (.operandMissing i) s
  | some t => k t

/-- A decode field, handed on; an empty field halts with index 0 (R84, R44). -/
def needField (o : Option Token) (s : State) (k : Token → SigResult) : SigResult :=
  match o with
  | none => .halt (.operandMissing 0) s
  | some t => k t

/-- A token as an integer, handed on, or the halt BAD_INTEGER of R83. -/
def needInt (t : Token) (s : State) (k : Word → SigResult) : SigResult :=
  match parseInt t with
  | none => .halt (.badInteger t) s
  | some v => k v

/-- `Decode_Operands_R_R_R` (R111): all three tokens are found before a field is written (R140). -/
def decodeOperandsRRR (a b d : Operand) (s : State) : SigResult :=
  needToken 1 a s fun ta => needToken 2 b s fun tb => needToken 3 d s fun td =>
    .next { s with op1 := some ta, op2 := some tb, dest := some td }

/-- `Decode_Operands_R_R` (R112). -/
def decodeOperandsRR (a b : Operand) (s : State) : SigResult :=
  needToken 1 a s fun ta => needToken 2 b s fun tb =>
    .next { s with op1 := some ta, op2 := some tb }

/-- `Decode_Operands_R_IMM` (R113): token 1 to `dest`, token 2 to `op1`, unparsed. -/
def decodeOperandsRImm (d i : Operand) (s : State) : SigResult :=
  needToken 1 d s fun td => needToken 2 i s fun ti =>
    .next { s with dest := some td, op1 := some ti }

/-- `Decode_Operand_Addr` (R114). -/
def decodeOperandAddr (t : Operand) (s : State) : SigResult :=
  needToken 1 t s fun tt => .next { s with op1 := some tt }

/-- `Decode_Operands_R_Rdest` (R115). -/
def decodeOperandsRRdest (a d : Operand) (s : State) : SigResult :=
  needToken 1 a s fun ta => needToken 2 d s fun td =>
    .next { s with op1 := some ta, dest := some td }

end Sys2Proof.Machine
end

