-- ==== Sys2Proof/Machine/Flags.lean ====
section
/-! DEFINITION. The ALU (41_arithmetic_logic.md R150 to R159) with every flag computation, and `compare` (R168). -/

namespace Sys2Proof.Machine

/-- Z and S of a result, the same for every operation (R150), with the C and V the operation gives. -/
def resultFlags (r : Word) (c v : Bool) : Flags :=
  { z := r == 0, c := c, s := r.slt 0, v := v }

/-- V of a widened result (R151): it differs from its truncation. -/
def wideOverflow (w : WideWord) : Bool := w != w.trunc32.sext64

/-- C of a widened sum or difference (R151): its upper half `w[63:32]` is not zero. -/
def wideCarry (w : WideWord) : Bool := w.extractLsb' 32 32 != 0#32

/-- The operations of the ALU (R150). -/
inductive AluOp where
  | add | sub | mul | div | and | or | xor | not
deriving DecidableEq, Repr

/-- `ALU(ADD, a, b)` (R151). -/
def aluAddOp (a b : Word) : Word × Flags :=
  let w := a.sext64 + b.sext64
  (w.trunc32, resultFlags w.trunc32 (wideCarry w) (wideOverflow w))

/-- `ALU(SUB, a, b)` (R152). -/
def aluSubOp (a b : Word) : Word × Flags :=
  let w := a.sext64 - b.sext64
  (w.trunc32, resultFlags w.trunc32 (wideCarry w) (wideOverflow w))

/-- `ALU(MUL, a, b)` (R153): carry is not computed. -/
def aluMulOp (a b : Word) : Word × Flags :=
  let w := a.sext64 * b.sext64
  (w.trunc32, resultFlags w.trunc32 false (wideOverflow w))

/-- The quotient of R154: rounded toward zero. -/
def quotient (a b : Word) : Int := a.toInt.tdiv b.toInt

/-- `ALU(DIV, a, b)` for a divisor other than 0 (R154). -/
def aluDivOp (divOvf : Bool) (a b : Word) : Word × Flags :=
  let q := quotient a b
  let r := BitVec.ofInt 32 q
  (r, resultFlags r false (divOvf && decide (q ≠ r.toInt)))

/-- A bitwise result with its flags (R156): C and V are false. -/
def bitwise (r : Word) : Word × Flags := (r, resultFlags r false false)

/-- `ALU(op, a, b)` (R150): the result and the flags, or `none` for the DivisionByZero condition of R155, which writes no
flag. -/
def alu (divOvf : Bool) (op : AluOp) (a b : Word) : Option (Word × Flags) :=
  match op with
  | .add => some (aluAddOp a b)
  | .sub => some (aluSubOp a b)
  | .mul => some (aluMulOp a b)
  | .div => if b = 0 then none else some (aluDivOp divOvf a b)
  | .and => some (bitwise (a &&& b))
  | .or => some (bitwise (a ||| b))
  | .xor => some (bitwise (a ^^^ b))
  | .not => some (bitwise (~~~a))

/-- `compare(a, b)` (R168): -1, 0 or 1, signed, no flag. -/
def compareWords (a b : Word) : Word :=
  if a.slt b then -1 else if a = b then 0 else 1

/-- `mbr <- ALU(op, a, b)` with the flags, or the halt of R155 with both unchanged (R119). -/
def aluToMbr (op : AluOp) (a b : Word) (s : State) : SigResult :=
  match alu s.params.divOvf op a b with
  | none => .halt .divByZero s
  | some (r, f) => .next { s with mbr := r, flags := f }

end Sys2Proof.Machine
end

