-- ==== Sys2Proof/Machine/Signals.lean ====
section
/-! DEFINITION. One definition per control signal (40_microengine.md R107 to R137); the operand-decode signals are in
Operands.lean. A signal that reads a token of `ir` takes that token as an argument. -/

namespace Sys2Proof.Machine

/-- The name of a signal, as an exact string (R10, R106). -/
def signalName : Signal → Text
  | .pcOutMarIn => "PC_out,MAR_in".toList
  | .memReadPcInc => "Mem_read,PC_inc".toList
  | .mbrOutIrIn => "MBR_out,IR_in".toList
  | .decode => "Decode".toList
  | .decodeOperandsRRR => "Decode_Operands_R_R_R".toList
  | .decodeOperandsRR => "Decode_Operands_R_R".toList
  | .decodeOperandsRImm => "Decode_Operands_R_IMM".toList
  | .decodeOperandAddr => "Decode_Operand_Addr".toList
  | .decodeOperandsRRdest => "Decode_Operands_R_Rdest".toList
  | .aluAdd => "ALU_ADD,MBR_in".toList
  | .aluSub => "ALU_SUB,MBR_in".toList
  | .aluMul => "ALU_MUL,MBR_in".toList
  | .aluDiv => "ALU_DIV,MBR_in".toList
  | .aluAnd => "ALU_AND,MBR_in".toList
  | .aluOr => "ALU_OR,MBR_in".toList
  | .aluXor => "ALU_XOR,MBR_in".toList
  | .aluNot => "ALU_NOT,MBR_in".toList
  | .mbrOutRegDestIn => "MBR_out,Reg_Dest_in".toList
  | .immediateToMbr => "Immediate_to_MBR".toList
  | .reg1ToMbr => "Reg1_to_MBR".toList
  | .addressToMar => "Address_to_MAR".toList
  | .memDataReadMbrIn => "Mem_data_read,MBR_in".toList
  | .mbrOutMemDataWrite => "MBR_out,Mem_data_write".toList
  | .accToBusWriteToDevice1 => "ACC_to_Bus,Write_to_Device_1".toList
  | .readFromDevice0BusToAcc => "Read_from_Device_0,Bus_to_ACC".toList
  | .addressToPc => "Address_to_PC".toList
  | .condJumpIfZero => "Cond_Jump_if_Zero".toList
  | .condJumpIfNotZero => "Cond_Jump_if_Not_Zero".toList
  | .aluCmpInterruptRequest => "ALU_CMP,Interrupt_Request".toList
  | .haltCpu => "HALT_CPU".toList
  | .other name => name

/-! ### Fetch -/

/-- `PC_out,MAR_in` (R107). -/
def pcOutMarIn (s : State) : SigResult := .next { s with mar := s.pc }

/-- `Mem_read,PC_inc` (R108): an absent or blank text halts and changes nothing; `pc + 1` wraps (10_state.md R30). -/
def memReadPcInc (s : State) : SigResult :=
  match s.imemRead s.mar with
  | none => .halt (.endOfProgram s.mar) s
  | some t =>
    if isBlank t then .halt (.endOfProgram s.mar) s
    else .next { s with mbr := Config.fetchDigest t, ir := t, pc := s.pc + 1 }

/-- `MBR_out,IR_in` (R109): a marker without effect. -/
def mbrOutIrIn (s : State) : SigResult := .next s

/-- `Decode` (R110). A text without a token has no token 0 (R84). -/
def decodeSignal (s : State) : SigResult :=
  match decode s.params.logicExt s.ir with
  | .instr i => .activate i.key s
  | .blank => .halt (.operandMissing 0) s
  | .unrecognized m => .halt (.unrecognizedInstruction m) s

/-! ### ALU -/

/-- The shape the seven two-operand ALU signals share (R116 to R122). -/
def aluBinary (op : AluOp) (s : State) : SigResult :=
  needField s.op1 s fun a => needField s.op2 s fun b => aluToMbr op (s.readReg a) (s.readReg b) s

/-- `ALU_ADD,MBR_in` (R116). -/
def aluAddMbrIn (s : State) : SigResult := aluBinary .add s

/-- `ALU_SUB,MBR_in` (R117). -/
def aluSubMbrIn (s : State) : SigResult := aluBinary .sub s

/-- `ALU_MUL,MBR_in` (R118). -/
def aluMulMbrIn (s : State) : SigResult := aluBinary .mul s

/-- `ALU_DIV,MBR_in` (R119). -/
def aluDivMbrIn (s : State) : SigResult := aluBinary .div s

/-- `ALU_AND,MBR_in` (R120). -/
def aluAndMbrIn (s : State) : SigResult := aluBinary .and s

/-- `ALU_OR,MBR_in` (R121). -/
def aluOrMbrIn (s : State) : SigResult := aluBinary .or s

/-- `ALU_XOR,MBR_in` (R122). -/
def aluXorMbrIn (s : State) : SigResult := aluBinary .xor s

/-- `ALU_NOT,MBR_in` (R123): the second input is the constant 0, and `op2` is not read. -/
def aluNotMbrIn (s : State) : SigResult :=
  needField s.op1 s fun a => aluToMbr .not (s.readReg a) 0 s

/-! ### Register, immediate and memory transfer -/

/-- `MBR_out,Reg_Dest_in` (R124). -/
def mbrOutRegDestIn (s : State) : SigResult :=
  needField s.dest s fun d => .next (s.writeReg (signalName .mbrOutRegDestIn) d s.mbr)

/-- `Immediate_to_MBR` (R125). -/
def immediateToMbr (s : State) : SigResult :=
  needField s.op1 s fun t => needInt t s fun v => .next { s with mbr := v }

/-- `Reg1_to_MBR` (R126): the register named by token 1 of the instruction, not by a decode field. -/
def reg1ToMbr (t1 : Operand) (s : State) : SigResult :=
  needToken 1 t1 s fun n => .next { s with mbr := s.readReg n }

/-- `Address_to_MAR` (R127): the range is not checked here. -/
def addressToMar (s : State) : SigResult :=
  needField s.op1 s fun t => needInt t s fun v => .next { s with mar := v }

/-- `Mem_data_read,MBR_in` (R128). -/
def memDataReadMbrIn (s : State) : SigResult :=
  match s.resolve s.mar with
  | none => .halt (.memOutOfRange s.mar) s
  | some v => .next { s with mbr := v }

/-- `MBR_out,Mem_data_write` (R129). -/
def mbrOutMemDataWrite (s : State) : SigResult :=
  match s.memWrite s.mar s.mbr with
  | none => .halt (.memOutOfRange s.mar) s
  | some s' => .next s'

/-! ### Devices -/

/-- `ACC_to_Bus,Write_to_Device_1` (R130). -/
def accToBusWriteToDevice1 (s : State) : SigResult :=
  match s.devWrite 1 (s.readReg accName) with
  | none => .halt (.noDevice 1) s
  | some s' => .next s'

/-- `Read_from_Device_0,Bus_to_ACC` (R131). -/
def readFromDevice0BusToAcc (s : State) : SigResult :=
  match s.devRead 0 with
  | none => .halt (.noDevice 0) s
  | some (v, s') => .next (s'.writeReg (signalName .readFromDevice0BusToAcc) accName v)

/-! ### Control transfer, compare, halt -/

/-- `Address_to_PC` (R132): any `i32` is accepted, and the active microprogram is cleared. -/
def addressToPc (s : State) : SigResult :=
  needField s.op1 s fun t => needInt t s fun v => .clear { s with pc := v }

/-- A taken conditional jump's inline `Decode_Operand_Addr` and `Address_to_PC` (R105, R133). -/
def jumpInline (t1 : Operand) (s : State) : SigResult :=
  match decodeOperandAddr t1 s with
  | .next s' => addressToPc s'
  | .activate k s' => .activate k s'
  | .clear s' => .clear s'
  | .halt c s' => .halt c s'

/-- The FIFO entry a conditional jump has tested is removed when the jump is taken, and otherwise as `CJ_POP` says
(R133). -/
def popTested (taken : Bool) (rest : List Word) (s : State) : State :=
  if taken || s.params.cjPop == .always then { s with iq := rest } else s

/-- The shape the two conditional jumps share (R133, R134): `taken` tests the oldest pending entry. -/
def condJump (taken : Word → Bool) (t1 : Operand) (s : State) : SigResult :=
  match s.iq with
  | [] => .next s
  | e :: rest =>
    if taken e then jumpInline t1 (popTested true rest s) else .next (popTested false rest s)

/-- `Cond_Jump_if_Zero` (R133). -/
def condJumpIfZero (t1 : Operand) (s : State) : SigResult := condJump (fun e => e == 0) t1 s

/-- `Cond_Jump_if_Not_Zero` (R134). -/
def condJumpIfNotZero (t1 : Operand) (s : State) : SigResult := condJump (fun e => e != 0) t1 s

/-- `ALU_CMP,Interrupt_Request` (R135): no flag and not `mbr`. -/
def aluCmpInterruptRequest (s : State) : SigResult :=
  needField s.op1 s fun a => needField s.op2 s fun b =>
    .next (s.iqRequest (compareWords (s.readReg a) (s.readReg b)))

/-- `HALT_CPU` (R136). -/
def haltCpu (s : State) : SigResult := .halt .hltOk s

/-- A signal name without a rule (R137). -/
def unknownSignal (name : Text) (s : State) : SigResult := .halt (.unknownSignal name) s

end Sys2Proof.Machine
end

