-- ==== Sys2Proof/Machine/Arith.lean ====
section
/-! DEFINITION. The arithmetic and logic instructions (41_arithmetic_logic.md R160 to R167): each its own microprogram of
R103, on the instruction's operand tokens. -/

namespace Sys2Proof.Machine

/-- `ADD a b d` (R160). -/
def execAdd (a b d : Operand) (s : State) : Host.Outcome State Fault Refusal :=
  .next (runProgram .add [decodeOperandsRRR a b d, aluAddMbrIn, mbrOutRegDestIn] s)

/-- `SUB a b d` (R161). -/
def execSub (a b d : Operand) (s : State) : Host.Outcome State Fault Refusal :=
  .next (runProgram .sub [decodeOperandsRRR a b d, aluSubMbrIn, mbrOutRegDestIn] s)

/-- `MUL a b d` (R162). -/
def execMul (a b d : Operand) (s : State) : Host.Outcome State Fault Refusal :=
  .next (runProgram .mul [decodeOperandsRRR a b d, aluMulMbrIn, mbrOutRegDestIn] s)

/-- `DIV a b d` (R163): a zero divisor halts. -/
def execDiv (a b d : Operand) (s : State) : Host.Outcome State Fault Refusal :=
  .next (runProgram .div [decodeOperandsRRR a b d, aluDivMbrIn, mbrOutRegDestIn] s)

/-- `AND a b d` (R164). -/
def execAnd (a b d : Operand) (s : State) : Host.Outcome State Fault Refusal :=
  .next (runProgram .and [decodeOperandsRRR a b d, aluAndMbrIn, mbrOutRegDestIn] s)

/-- `OR a b d` (R165). -/
def execOr (a b d : Operand) (s : State) : Host.Outcome State Fault Refusal :=
  .next (runProgram .or [decodeOperandsRRR a b d, aluOrMbrIn, mbrOutRegDestIn] s)

/-- `XOR a b d` (R166). -/
def execXor (a b d : Operand) (s : State) : Host.Outcome State Fault Refusal :=
  .next (runProgram .xor [decodeOperandsRRR a b d, aluXorMbrIn, mbrOutRegDestIn] s)

/-- `NOT s d` (R167). -/
def execNot (src dst : Operand) (s : State) : Host.Outcome State Fault Refusal :=
  .next (runProgram .not [decodeOperandsRRdest src dst, aluNotMbrIn, mbrOutRegDestIn] s)

end Sys2Proof.Machine
end

