-- ==== Sys2Proof/Machine/Control.lean ====
section
/-! DEFINITION. Control flow, compare, halt and the reserved key (44_control_flow.md R220 to R223, R226, R227). -/

namespace Sys2Proof.Machine

/-- `JMP t` (R220). -/
def execJmp (target : Operand) (s : State) : Host.Outcome State Fault Refusal :=
  .next (runProgram .jmp [decodeOperandAddr target, addressToPc] s)

/-- `CMP a b` (R221). -/
def execCmp (a b : Operand) (s : State) : Host.Outcome State Fault Refusal :=
  .next (runProgram .cmp [decodeOperandsRR a b, aluCmpInterruptRequest] s)

/-- `JE t` (R222). -/
def execJe (target : Operand) (s : State) : Host.Outcome State Fault Refusal :=
  .next (runProgram .je [condJumpIfZero target] s)

/-- `JNE t` (R223). -/
def execJne (target : Operand) (s : State) : Host.Outcome State Fault Refusal :=
  .next (runProgram .jne [condJumpIfNotZero target] s)

/-- `HLT` (R226). -/
def execHlt (s : State) : Host.Outcome State Fault Refusal :=
  .next (runProgram .hlt [haltCpu] s)

/-- `FETCH` (R227): the FETCH microprogram stands at its first signal, which fetches the following instruction; nothing
else happens. -/
def execFetch (s : State) : Host.Outcome State Fault Refusal :=
  .next (runProgram .fetch [] s)

end Sys2Proof.Machine
end

