-- ==== Sys2Proof/Machine/DeviceIO.lean ====
section
/-! DEFINITION. The I/O instructions (43_io.md R212, R213). -/

namespace Sys2Proof.Machine

/-- `INPUT_CHAR` (R212). -/
def execInputChar (s : State) : Host.Outcome State Fault Refusal :=
  .next (runProgram .inputChar [readFromDevice0BusToAcc] s)

/-- `OUTPUT_CHAR` (R213). -/
def execOutputChar (s : State) : Host.Outcome State Fault Refusal :=
  .next (runProgram .outputChar [accToBusWriteToDevice1] s)

end Sys2Proof.Machine
end

