-- ==== Sys2Proof/Machine/Transfer.lean ====
section
/-! DEFINITION. The data transfer instructions (42_data_transfer.md R190 to R193). -/

namespace Sys2Proof.Machine

/-- `MOV_IMM d i` (R190). -/
def execMovImm (dst imm : Operand) (s : State) : Host.Outcome State Fault Refusal :=
  .next (runProgram .movImm [decodeOperandsRImm dst imm, immediateToMbr, mbrOutRegDestIn] s)

/-- `MOV_REG s d` (R191). -/
def execMovReg (src dst : Operand) (s : State) : Host.Outcome State Fault Refusal :=
  .next (runProgram .movReg [decodeOperandsRRdest src dst, reg1ToMbr src, mbrOutRegDestIn] s)

/-- `LOAD d m` (R192). -/
def execLoad (dst addr : Operand) (s : State) : Host.Outcome State Fault Refusal :=
  .next (runProgram .load [decodeOperandsRImm dst addr, addressToMar, memDataReadMbrIn, mbrOutRegDestIn] s)

/-- `STORE s m` (R193): the source register is token 1, which the R_IMM decode files under `dest`. -/
def execStore (src addr : Operand) (s : State) : Host.Outcome State Fault Refusal :=
  .next (runProgram .store [decodeOperandsRImm src addr, addressToMar, reg1ToMbr src, mbrOutMemDataWrite] s)

end Sys2Proof.Machine
end

