-- ==== Sys2Proof/Machine/Dispatch.lean ====
section
/-! DEFINITION. The dispatch of an instruction to its meaning: one arm per row of the opcode table (30_encoding.md R88). -/

namespace Sys2Proof.Machine

def exec (i : Instr) (s : State) : Host.Outcome State Fault Refusal :=
  match i with
  | .add a b d => Sys2Proof.Machine.execAdd a b d s
  | .sub a b d => Sys2Proof.Machine.execSub a b d s
  | .mul a b d => Sys2Proof.Machine.execMul a b d s
  | .div a b d => Sys2Proof.Machine.execDiv a b d s
  | .and a b d => Sys2Proof.Machine.execAnd a b d s
  | .or a b d => Sys2Proof.Machine.execOr a b d s
  | .xor a b d => Sys2Proof.Machine.execXor a b d s
  | .not src dst => Sys2Proof.Machine.execNot src dst s
  | .movImm dst imm => Sys2Proof.Machine.execMovImm dst imm s
  | .movReg src dst => Sys2Proof.Machine.execMovReg src dst s
  | .load dst addr => Sys2Proof.Machine.execLoad dst addr s
  | .store src addr => Sys2Proof.Machine.execStore src addr s
  | .inputChar => Sys2Proof.Machine.execInputChar s
  | .outputChar => Sys2Proof.Machine.execOutputChar s
  | .jmp target => Sys2Proof.Machine.execJmp target s
  | .cmp a b => Sys2Proof.Machine.execCmp a b s
  | .je target => Sys2Proof.Machine.execJe target s
  | .jne target => Sys2Proof.Machine.execJne target s
  | .hlt => Sys2Proof.Machine.execHlt s
  | .fetch => Sys2Proof.Machine.execFetch s

end Sys2Proof.Machine
end

