-- ==== Sys2Proof/Machine/Micro.lean ====
section
/-! DEFINITION. The micro-engine (40_microengine.md R100 to R106): the control store, the dispatch of a signal, and
`signalStep`, the spec's event `Step`, which performs exactly one control signal. -/

namespace Sys2Proof.Machine

/-- The microprograms of R103. -/
def microprogram : Key → List Signal
  | .fetch => [.pcOutMarIn, .memReadPcInc, .mbrOutIrIn, .decode]
  | .add => [.decodeOperandsRRR, .aluAdd, .mbrOutRegDestIn]
  | .sub => [.decodeOperandsRRR, .aluSub, .mbrOutRegDestIn]
  | .mul => [.decodeOperandsRRR, .aluMul, .mbrOutRegDestIn]
  | .div => [.decodeOperandsRRR, .aluDiv, .mbrOutRegDestIn]
  | .and => [.decodeOperandsRRR, .aluAnd, .mbrOutRegDestIn]
  | .or => [.decodeOperandsRRR, .aluOr, .mbrOutRegDestIn]
  | .xor => [.decodeOperandsRRR, .aluXor, .mbrOutRegDestIn]
  | .not => [.decodeOperandsRRdest, .aluNot, .mbrOutRegDestIn]
  | .movImm => [.decodeOperandsRImm, .immediateToMbr, .mbrOutRegDestIn]
  | .movReg => [.decodeOperandsRRdest, .reg1ToMbr, .mbrOutRegDestIn]
  | .load => [.decodeOperandsRImm, .addressToMar, .memDataReadMbrIn, .mbrOutRegDestIn]
  | .store => [.decodeOperandsRImm, .addressToMar, .reg1ToMbr, .mbrOutMemDataWrite]
  | .inputChar => [.readFromDevice0BusToAcc]
  | .outputChar => [.accToBusWriteToDevice1]
  | .jmp => [.decodeOperandAddr, .addressToPc]
  | .cmp => [.decodeOperandsRR, .aluCmpInterruptRequest]
  | .je => [.condJumpIfZero]
  | .jne => [.condJumpIfNotZero]
  | .hlt => [.haltCpu]

/-- The control store `CS` (R103, 10_state.md R42): a constant of the machine; the four rows of `LOGIC_EXT` are there only
when that parameter is true. -/
def controlStore (p : Params) (k : Key) : Option (List Signal) :=
  if k.present p.logicExt then some (microprogram k) else none

/-- The rule of each signal (R107 to R137), its token arguments read from `ir`. -/
def perform (sig : Signal) (s : State) : SigResult :=
  match sig with
  | .pcOutMarIn => pcOutMarIn s
  | .memReadPcInc => memReadPcInc s
  | .mbrOutIrIn => mbrOutIrIn s
  | .decode => decodeSignal s
  | .decodeOperandsRRR => decodeOperandsRRR (s.tok 1) (s.tok 2) (s.tok 3) s
  | .decodeOperandsRR => decodeOperandsRR (s.tok 1) (s.tok 2) s
  | .decodeOperandsRImm => decodeOperandsRImm (s.tok 1) (s.tok 2) s
  | .decodeOperandAddr => decodeOperandAddr (s.tok 1) s
  | .decodeOperandsRRdest => decodeOperandsRRdest (s.tok 1) (s.tok 2) s
  | .aluAdd => aluAddMbrIn s
  | .aluSub => aluSubMbrIn s
  | .aluMul => aluMulMbrIn s
  | .aluDiv => aluDivMbrIn s
  | .aluAnd => aluAndMbrIn s
  | .aluOr => aluOrMbrIn s
  | .aluXor => aluXorMbrIn s
  | .aluNot => aluNotMbrIn s
  | .mbrOutRegDestIn => mbrOutRegDestIn s
  | .immediateToMbr => immediateToMbr s
  | .reg1ToMbr => reg1ToMbr (s.tok 1) s
  | .addressToMar => addressToMar s
  | .memDataReadMbrIn => memDataReadMbrIn s
  | .mbrOutMemDataWrite => mbrOutMemDataWrite s
  | .accToBusWriteToDevice1 => accToBusWriteToDevice1 s
  | .readFromDevice0BusToAcc => readFromDevice0BusToAcc s
  | .addressToPc => addressToPc s
  | .condJumpIfZero => condJumpIfZero (s.tok 1) s
  | .condJumpIfNotZero => condJumpIfNotZero (s.tok 1) s
  | .aluCmpInterruptRequest => aluCmpInterruptRequest s
  | .haltCpu => haltCpu s
  | .other name => unknownSignal name s

/-- Line 1 of R101: FETCH is activated when no microprogram is, and this costs no step. -/
def State.activateFetch (s : State) : State :=
  match s.active with
  | none => s.activated .fetch
  | some _ => s

/-- Line 2 of R101: the microprogram that is active and the signal at the cursor, or why there is none. -/
def State.currentSignal (s : State) : Except Fault (Nat × Signal) :=
  match s.active with
  | none => .error .noMicroprogram
  | some k =>
    match controlStore s.params k with
    | none => .error (.notInControlStore k)
    | some sigs =>
      match sigs[s.upc]? with
      | none => .error (.cursorOutOfRange k s.upc)
      | some sig => .ok (sigs.length, sig)

/-- The event `Step` of the spec (R100, R101): nothing on a halted machine, else exactly one control signal. -/
def signalStep (s : State) : Host.Outcome State Fault Refusal :=
  if s.halted then .next s
  else
    match s.activateFetch.currentSignal with
    | .error f => .fault f
    | .ok (len, sig) => .next (applyResult len (perform sig s.activateFetch))

/-- `n` events `Step`, stopping at a fault. -/
def signalSteps : Nat → State → Host.Outcome State Fault Refusal
  | 0, s => .next s
  | n + 1, s =>
    match signalStep s with
    | .next s' => signalSteps n s'
    | .fault f => .fault f
    | .refused r => .refused r

/-- The name a `Step` adds to the signal trace (R139): none on a halted machine. -/
def State.tracedSignal (s : State) : List Text :=
  if s.halted then []
  else
    match s.activateFetch.currentSignal with
    | .error _ => []
    | .ok (_, sig) => [signalName sig]

/-- The signal trace of `n` events `Step` (R139). -/
def signalTrace : Nat → State → List Text
  | 0, _ => []
  | n + 1, s =>
    s.tracedSignal ++
      match signalStep s with
      | .next s' => signalTrace n s'
      | .fault _ => []
      | .refused _ => []

/-- Between two instructions: no microprogram is active, or FETCH is at its first signal, which is the same for the next
`Step` (44_control_flow.md R227). -/
def State.atBoundary (s : State) : Bool :=
  match s.active with
  | none => true
  | some k => k == .fetch && s.upc == 0

/-- The number of `Step` events an instruction takes when no halt cuts it off (70_reset_and_hazards.md R290). -/
def stepCount (k : Key) : Nat :=
  if k = .fetch then 4 else 4 + (microprogram k).length

end Sys2Proof.Machine
end

