-- ==== Sys2Proof/Machine/Fetch.lean ====
section
/-! DEFINITION. The fetch part of every instruction (41_arithmetic_logic.md R169), what is left of an instruction that has
begun, and where an instruction text is placed for the next fetch. -/

namespace Sys2Proof.Machine

/-- The first three signals of FETCH (R104), up to and without `Decode`. -/
def fetchLine (s : State) : State :=
  runSignals 4 [pcOutMarIn, memReadPcInc, mbrOutIrIn] (s.activated .fetch)

/-- `Decode` (R110) on a fetched line, and then the whole instruction it activates. -/
def decodeAndRun (s : State) : Host.Outcome State Fault Refusal :=
  match decode s.params.logicExt s.ir with
  | .instr i => exec i s
  | .blank => .next (raiseHalt (.operandMissing 0) s)
  | .unrecognized m => .next (raiseHalt (.unrecognizedInstruction m) s)

/-- One instruction from its fetch: a halt in the fetch ends it. -/
def instructionStep (s : State) : Host.Outcome State Fault Refusal :=
  if (fetchLine s).halted then .next (fetchLine s) else decodeAndRun (fetchLine s)

/-- The events `Step` that are left of the instruction in progress, at most `fuel` of them. -/
def runToBoundary : Nat → State → Host.Outcome State Fault Refusal
  | 0, s => .next s
  | fuel + 1, s =>
    if s.halted || s.atBoundary then .next s
    else
      match signalStep s with
      | .next s' => runToBoundary fuel s'
      | .fault f => .fault f
      | .refused r => .refused r

/-- More `Step` events than any instruction has left once it has begun: 3 of FETCH and 4 of the longest microprogram. -/
def longestRest : Nat := 8

/-- The instruction memory with `t` at index `n`; indices it had not reached become blank. -/
def placeAt (l : List Text) (n : Nat) (t : Text) : List Text :=
  match n, l with
  | 0, [] => [t]
  | 0, _ :: rest => t :: rest
  | k + 1, [] => [] :: placeAt [] k t
  | k + 1, x :: rest => x :: placeAt rest k t

/-- The address the next instruction is fetched from, 0 where `pc` names no line. -/
def State.fetchAddress (s : State) : Word := if s.pc.toInt < 0 then 0 else s.pc

/-- `s` made ready to fetch `t` as its next instruction: running, between two instructions, `t` at the fetch address. -/
def State.withFetchText (s : State) (t : Text) : State :=
  { s with
    imem := placeAt s.imem s.fetchAddress.toInt.toNat t
    pc := s.fetchAddress
    active := none
    upc := 0
    halted := false
    reason := none }

/-- The input events of R6 and the environment's part of R295: `Step`, `LoadProgram(p)`, and device `i` given one more
value for its reads. Events are serial; each may come after any other, also in the middle of an instruction (R274). -/
inductive Event where
  | step
  | loadProgram (p : List Text)
  | deviceSupply (i : Nat) (v : Word)
deriving DecidableEq, Repr

/-- Device `i` has one more value for its reads (R210). -/
def State.deviceSupply (s : State) (i : Nat) (v : Word) : State :=
  match s.devices[i]? with
  | none => s
  | some d => { s with devices := s.devices.set i { d with supplied := d.supplied ++ [v] } }

/-- What an event does. -/
def applyEvent (e : Event) (s : State) : Host.Outcome State Fault Refusal :=
  match e with
  | .step => signalStep s
  | .loadProgram p => .next (loadProgram p s)
  | .deviceSupply i v => .next (s.deviceSupply i v)

end Sys2Proof.Machine
end

