-- ==== Sys2Proof/Machine/Step.lean ====
section
/-! DEFINITION. The step of the host's interface: one whole instruction. The spec's own event `Step`, one control signal, is
`signalStep` in Micro.lean; a step here is the events `Step` of one instruction (log entry 8). -/

namespace Sys2Proof.Machine

/-- One instruction: nothing on a halted machine (40_microengine.md R100); between two instructions, the fetch part (R169)
and the instruction it fetches; inside an instruction, the rest of it. -/
def step (s : State) : Host.Outcome State Fault Refusal :=
  if s.halted then .next s
  else if s.atBoundary then instructionStep s
  else runToBoundary longestRest s

/-- `s` with the text whose bytes are `w` where the next step fetches its instruction (log entries 7 and 9). -/
def State.withFetchWord (s : State) (nbits w : Nat) : State := s.withFetchText (wordText nbits w)

end Sys2Proof.Machine
end

