-- ==== Sys2Proof/Machine/Observe.lean ====
section
/-! DEFINITION. The observation surface (10_state.md R50) and the rendering of a halt (60_exceptions.md R241). -/

namespace Sys2Proof.Machine

/-- The code of a halt cause (R241). -/
def haltCode : HaltCause → Nat
  | .hltOk => 0
  | .endOfProgram _ => 1
  | .unrecognizedInstruction _ => 2
  | .unknownSignal _ => 3
  | .operandMissing _ => 4
  | .badInteger _ => 5
  | .memOutOfRange _ => 6
  | .divByZero => 7
  | .noDevice _ => 8

/-- The reason string of a halt cause (R241). -/
def haltText : HaltCause → Text
  | .hltOk => "program halted normally (HLT)".toList
  | .endOfProgram _ => "end of program".toList
  | .unrecognizedInstruction m => "unrecognized instruction: ".toList ++ m
  | .unknownSignal name => "unknown control signal: ".toList ++ name
  | .operandMissing i => "malformed instruction: missing operand ".toList ++ natText i
  | .badInteger t => "malformed instruction: cannot parse integer '".toList ++ t ++ "'".toList
  | .memOutOfRange a => "memory address out of range: ".toList ++ intText a.toInt
  | .divByZero => "division by zero".toList
  | .noDevice i => "no I/O device at index ".toList ++ natText i

/-- `haltReason()` (R39, R241): the empty string while there is no reason. -/
def State.haltReason (s : State) : Text :=
  match s.reason with
  | none => []
  | some c => haltText c

/-- `isHalted()` (R38). -/
def State.isHalted (s : State) : Bool := s.halted

/-- What an observer may read (R50), but for the memory range. -/
structure Observation where
  pc : Word
  ir : Text
  mar : Word
  mbr : Word
  flags : Flags
  registers : List (Token × Word)
  isHalted : Bool
  haltReason : Text
deriving DecidableEq, Repr

/-- The register-file snapshot, name to value (R50). -/
def RegFile.snapshot (r : RegFile) : List (Token × Word) := r.map (fun x => (x.1, x.2.value))

/-- The observation of a state; reading changes nothing (R50). -/
def State.observe (s : State) : Observation :=
  { pc := s.pc
    ir := s.ir
    mar := s.mar
    mbr := s.mbr
    flags := s.flags
    registers := s.regs.snapshot
    isHalted := s.isHalted
    haltReason := s.haltReason }

/-- The data-memory range snapshot of R50, R6 and R295: the cells from index `lo` on, `n` of them. DESIGN CHOICE, log
entry 24: the spec says only "a range"; that a range is a first index and a count, both natural numbers, and that an index
at or past `MEM_CAPACITY` gives no cell, so that the list is shorter, are the model's. -/
def State.memRange (s : State) (lo n : Nat) : List Word :=
  ((List.range n).map (fun k => lo + k)).filterMap
    (fun a => if a < s.params.memCapacity then some (s.mem.read a) else none)

end Sys2Proof.Machine
end

