-- ==== Sys2Proof/Safety.lean ====
section
/-! DEFINITION. The terms statements use: the invariant every event keeps, normal and abnormal ends of a run (70_reset_and_hazards.md
R276), and the instructions by what they may touch. -/

namespace Sys2Proof.Machine

/-- R41: the cursor is inside the active microprogram, and 0 while none is active. -/
def State.cursorOk (s : State) : Prop :=
  match s.active with
  | none => s.upc = 0
  | some k => k.present s.params.logicExt = true ∧ s.upc < (microprogram k).length

/-- R44: once the decode signal of a microprogram has run, the fields it names hold the tokens of `ir`. -/
def State.fieldsDecoded (s : State) : Prop :=
  match s.active with
  | none => True
  | some k =>
    0 < s.upc →
      match (microprogram k).head? with
      | some .decodeOperandsRRR =>
        s.op1.isSome ∧ s.op2.isSome ∧ s.dest.isSome ∧ s.op1 = s.tok 1 ∧ s.op2 = s.tok 2 ∧ s.dest = s.tok 3
      | some .decodeOperandsRR => s.op1.isSome ∧ s.op2.isSome ∧ s.op1 = s.tok 1 ∧ s.op2 = s.tok 2
      | some .decodeOperandsRImm => s.op1.isSome ∧ s.dest.isSome ∧ s.dest = s.tok 1 ∧ s.op1 = s.tok 2
      | some .decodeOperandsRRdest => s.op1.isSome ∧ s.dest.isSome ∧ s.op1 = s.tok 1 ∧ s.dest = s.tok 2
      | some .decodeOperandAddr => s.op1.isSome ∧ s.op1 = s.tok 1
      | _ => True

/-- R28, R110: what `pc`, `mar` and `ir` hold during a fetch, and that a running microprogram other than FETCH is the one
the text in `ir` selects. -/
def State.fetchProgress (s : State) : Prop :=
  match s.active with
  | none => True
  | some .fetch =>
    (s.upc = 1 → s.mar = s.pc) ∧
    (2 ≤ s.upc → s.pc = s.mar + 1 ∧ s.imemRead s.mar = some s.ir ∧ isBlank s.ir = false)
  | some k => (tokens s.ir).head? = some k.name

/-- R45, R168: every pending entry is -1, 0 or 1, and a numeric `IQ_DEPTH` is never exceeded. -/
def State.iqOk (s : State) : Prop :=
  (∀ e ∈ s.iq, e = -1 ∨ e = 0 ∨ e = 1) ∧ ∀ d : Nat, s.params.iqDepth = some d → s.iq.length ≤ d

/-- R38, R39: the machine is halted exactly when it has a reason. -/
def State.haltOk (s : State) : Prop := s.halted = s.reason.isSome

/-- The data memory is in canonical form and lists only cells below `MEM_CAPACITY` (R46, R60). -/
def State.memOk (s : State) : Prop := Memory.wf s.mem ∧ ∀ c ∈ s.mem, c.1 < s.params.memCapacity

/-- R5: the capacity and the program length are in the ranges an `i32` address needs. -/
def State.boundsOk (s : State) : Prop := s.params.ok ∧ s.imem.length < 2 ^ 31

/-- The invariant of the machine: it holds at reset, and every event keeps it. -/
structure State.Inv (s : State) : Prop where
  bounds : s.boundsOk
  mem : s.memOk
  regs : RegFile.wf s.regs
  cursor : s.cursorOk
  fields : s.fieldsDecoded
  fetch : s.fetchProgress
  iq : s.iqOk
  halt : s.haltOk

/-- The machine is about to fetch the line `t`: it runs, it is between two instructions, and `t` is the text at `pc`. -/
def State.aboutToFetch (s : State) (t : Text) : Prop :=
  s.halted = false ∧ s.atBoundary = true ∧ s.imemRead s.pc = some t

/-- The fetch part of every instruction (41_arithmetic_logic.md R169), up to and without `Decode`: the state in which the
line `t` has been fetched. -/
def State.fetched (s : State) (t : Text) : State :=
  { s with
    mar := s.pc
    mbr := Config.fetchDigest t
    ir := t
    pc := s.pc + 1
    active := some .fetch
    upc := 3 }

/-- `s` halted at signal `u` of the microprogram of `k` (60_exceptions.md R240). -/
def State.haltedIn (s : State) (k : Key) (u : Nat) (c : HaltCause) : State :=
  { s with active := some k, upc := u, halted := true, reason := some c }

/-- `s` with the result `r` of an instruction in `mbr` and, through `MBR_out,Reg_Dest_in`, in the register `d`, the
instruction ended (R124, R102). -/
def State.resultTo (s : State) (d : Token) (r : Word) : State :=
  { s.writeReg (signalName .mbrOutRegDestIn) d r with dest := some d, mbr := r, active := none, upc := 0 }

/-- Whether an exact result lies outside the `i32` range (R171). -/
def outsideI32 (v : Int) : Bool := decide (v < -2147483648) || decide (2147483647 < v)

/-- Z and S of a result as R150 states them on its signed value, with a given C and V. -/
def lawFlags (r : Word) (c v : Bool) : Flags :=
  { z := decide (r.toInt = 0), c := c, s := decide (r.toInt < 0), v := v }

/-- The register file without its provenance texts (R24). -/
def RegFile.withoutProvenance (r : RegFile) : RegFile := r.map (fun x => (x.1, { x.2 with provenance := [] }))

/-- The state without its provenance texts. -/
def State.withoutProvenance (s : State) : State := { s with regs := s.regs.withoutProvenance }

/-- The state with its flags forgotten. -/
def State.withoutFlags (s : State) : State := { s with flags := Flags.clear }

/-- An outcome with its next state seen through `f`. -/
def seenThrough (f : State → State) : Host.Outcome State Fault Refusal → Host.Outcome State Fault Refusal
  | .next s => .next (f s)
  | .fault e => .fault e
  | .refused e => .refused e

/-- A run has ended normally (R276). -/
def State.endedNormally (s : State) : Bool := s.halted && s.reason == some .hltOk

/-- A run has ended with an error-class halt, END_OF_PROGRAM included (R276). -/
def State.endedAbnormally (s : State) : Bool := s.halted && s.reason != some .hltOk

end Sys2Proof.Machine

namespace Sys2Proof

open Machine

/-- The instructions that call the ALU, the only ones that write a flag (R35). -/
def Instr.writesFlags (i : Instr) : Bool :=
  [Key.add, .sub, .mul, .div, .and, .or, .xor, .not].contains i.key

/-- The instructions that touch the interrupt FIFO (R249). -/
def Instr.touchesFifo (i : Instr) : Bool := [Key.cmp, .je, .jne].contains i.key

/-- The instructions that may write `pc` after their fetch (R29). -/
def Instr.writesPc (i : Instr) : Bool := [Key.jmp, .je, .jne].contains i.key

/-- The instructions that call a device (R210, R211). -/
def Instr.callsDevice (i : Instr) : Bool := [Key.inputChar, .outputChar].contains i.key

/-- The register an instruction may write (R26): its destination operand, `ACC` for INPUT_CHAR, none for the others. -/
def Instr.destination : Instr → Option Token
  | .add _ _ d => d
  | .sub _ _ d => d
  | .mul _ _ d => d
  | .div _ _ d => d
  | .and _ _ d => d
  | .or _ _ d => d
  | .xor _ _ d => d
  | .not _ d => d
  | .movImm d _ => d
  | .movReg _ d => d
  | .load d _ => d
  | .store _ _ => none
  | .inputChar => some accName
  | .outputChar => none
  | .jmp _ => none
  | .cmp _ _ => none
  | .je _ => none
  | .jne _ => none
  | .hlt => none
  | .fetch => none

/-- The cell an instruction stores to: the cell STORE's address operand names, where it is a literal in range (R65). -/
def Instr.storeCell (p : Params) : Instr → Option Nat
  | .store _ (some t) => (parseInt t).bind (cellIndex p)
  | _ => none

end Sys2Proof
end

