-- ==== Sys2Proof/Certificates/Slice0/Obligations.lean ====
section
/-! DEFINITION. The statements for the provers, in the order of OBLIGATIONS.json. Where a statement rests on a point that
the spec marks as its own decision (D<n> of 92_eei_decisions.md, log entry 21) or on a choice of the model (the log entry it
names), its docstring says so under 'Derived:', and its basis is 'derived'. -/

open Sys2Proof Sys2Proof.Machine

/-! ### The step and the micro-engine -/

/-- 40_microengine.md R100. -/
def Obligations.HaltedMachineStaysAsItIs : Prop :=
  ∀ s : State, s.halted = true →
    signalStep s = .next s ∧ ∀ n : Nat, signalSteps n s = .next s

/-- R101, R107 to R110 and R169: between two instructions, a step at a state whose line decodes to `i` is `exec i` at
the state in which the line has been fetched. Derived: a step as one whole instruction is log entry 8, the digest is
free (log entry 3), and R169 is the spec's inference. -/
def Obligations.StepRunsTheDecodedInstruction : Prop :=
  ∀ (s : State) (t : Text) (i : Instr),
    s.aboutToFetch t → decode s.params.logicExt t = .instr i → step s = exec i (s.fetched t)

/-- The four signals of FETCH (R104) as single events `Step`: after three of them the line is fetched, and the fourth
activates the microprogram of the key the line's mnemonic is (R110). Derived: the lookup of every key is the spec's
decision D28. -/
def Obligations.FourSignalsFetchAndActivate : Prop :=
  ∀ (s : State) (t : Text) (i : Instr),
    s.aboutToFetch t → decode s.params.logicExt t = .instr i →
      signalSteps 3 s = .next (s.fetched t) ∧
      signalSteps 4 s = .next { s.fetched t with active := some i.key, upc := 0 }

/-- R102, R105: every `Step` of a running machine performs one signal, so the cursor moves by one, or the microprogram
ends, or another is activated at its first signal, or the machine halts with the cursor where it was. Derived: R102
rests on the spec's decisions D11 and D27. -/
def Obligations.OneSignalMovesTheCursorOnce : Prop :=
  ∀ s t : State, s.halted = false → signalStep s = .next t →
    (t.halted = true ∧ t.active = s.activateFetch.active ∧ t.upc = s.activateFetch.upc) ∨
    (t.halted = false ∧
      ((t.active = s.activateFetch.active ∧ t.upc = s.activateFetch.upc + 1) ∨
        (t.active = none ∧ t.upc = 0) ∨
        (∃ k : Key, t.active = some k ∧ t.upc = 0)))

/-- 60_exceptions.md R247: a `Step`, and a whole instruction, from a state of the invariant always answers a next
state, on a halted machine the same one. Derived: the invariant is log entry 23, a step as one instruction log entry 8. -/
def Obligations.EveryStepAnswersANextState : Prop :=
  ∀ s : State,
    (s.Inv → (∃ t : State, signalStep s = .next t) ∧ (∃ t : State, step s = .next t)) ∧
    (s.halted = true → step s = .next s)

/-- The invariant of 10_state.md R28, R38, R39, R41, R44, R45 and 20_memory.md R60 holds at reset. Derived: the
invariant is log entry 23; the reset parameters and devices are log entries 1 and 2. -/
def Obligations.InvariantHoldsAtReset : Prop := State.reset.Inv

/-- Every event of R6 keeps the invariant: a `Step`, a reload with a program of less than 2^31 lines, a supplied
device value. The FIFO's clause holds whatever the free value of a full FIFO is. Derived: the invariant is log entry 23,
the canonical forms log entries 10 and 11, a full FIFO log entry 14, the length of a program log entry 17. -/
def Obligations.EveryEventKeepsTheInvariant : Prop :=
  ∀ (e : Event) (s t : State),
    (∀ p : List Text, e = .loadProgram p → p.length < 2 ^ 31) → s.Inv → applyEvent e s = .next t → t.Inv

/-- A whole instruction keeps the invariant. Derived: the invariant is log entry 23, a step as one instruction log
entry 8. -/
def Obligations.EveryInstructionStepKeepsTheInvariant : Prop :=
  ∀ s t : State, s.Inv → step s = .next t → t.Inv

/-- The model's two grains agree: a step of a running machine is 1 to 8 events `Step` (R101, R103), the last of which
is the first to end at an instruction's boundary or in a halt. Derived: a step as one instruction is log entry 8; the
microprograms are the spec's decision D6. -/
def Obligations.InstructionStepIsASequenceOfSignalSteps : Prop :=
  ∀ s : State, s.Inv → s.halted = false →
    ∃ (n : Nat) (t : State), 1 ≤ n ∧ n ≤ 8 ∧ step s = .next t ∧ signalSteps n s = .next t ∧
      (t.halted = true ∨ t.atBoundary = true) ∧
      ∀ (m : Nat) (u : State), 1 ≤ m → m < n → signalSteps m s = .next u →
        u.halted = false ∧ u.atBoundary = false

/-- 70_reset_and_hazards.md R290: the number of `Step` events of an instruction that no error halt cuts off, which is
the number the table gives its key. Derived: R290 is the spec's inference from its decision D6. -/
def Obligations.InstructionsTakeTheirStepCount : Prop :=
  (∀ (s u : State) (t : Text) (i : Instr),
    s.aboutToFetch t → decode s.params.logicExt t = .instr i → exec i (s.fetched t) = .next u →
      u.halted = false ∨ u.reason = some .hltOk →
      signalSteps (stepCount i.key) s = .next u) ∧
  (∀ k : Key, (k, stepCount k) ∈ ([(.add, 7), (.sub, 7), (.mul, 7), (.div, 7), (.and, 7), (.or, 7), (.xor, 7), (.not, 7),
    (.movImm, 7), (.movReg, 7), (.load, 8), (.store, 8), (.inputChar, 5), (.outputChar, 5), (.jmp, 6), (.cmp, 6),
    (.je, 5), (.jne, 5), (.hlt, 5), (.fetch, 4)] : List (Key × Nat)))

/-- R44: no `Step` from a state of the invariant finds an empty decode field. Derived: R44 is the spec's inference and
decision D13. -/
def Obligations.NoSignalReadsAnEmptyDecodeField : Prop :=
  ∀ s t : State, s.Inv → s.halted = false → signalStep s = .next t → t.reason ≠ some (.operandMissing 0)

/-- R30: the increment of `pc` never wraps, because it follows a successful fetch at `mar = pc`. Derived: R30 is the
spec's inference. -/
def Obligations.ProgramCounterIncrementNeverWraps : Prop :=
  ∀ s t : State, s.Inv → s.halted = false → s.active = some .fetch → s.upc = 1 →
    signalStep s = .next t → t.halted = false → t.pc.toInt = s.pc.toInt + 1

/-! ### Reset, reload and halts outside an instruction -/

/-- 10_state.md R49, 70_reset_and_hazards.md R270: what every power-on leaves, read through the machine's own reads.
Derived: R49 and R270 rest on the spec's decisions D17, D19, D21, D30. -/
def Obligations.PowerOnLeavesEverythingClear : Prop :=
  ∀ (p : Params) (ds : List Device),
    let s := State.powerOn p ds
    s.pc = 0 ∧ s.mar = 0 ∧ s.mbr = 0 ∧ s.ir = [] ∧ s.iq = [] ∧ s.op1 = none ∧ s.op2 = none ∧ s.dest = none ∧
      s.active = none ∧ s.upc = 0 ∧ s.halted = false ∧ s.reason = none ∧
      s.flags = { z := false, c := false, s := false, v := false } ∧ s.params = p ∧ s.devices = ds ∧
      (∀ n : Token, s.readReg n = 0 ∧ s.regs.entry n = none) ∧
      (∀ a : Nat, s.mem.read a = 0) ∧ (∀ a : Word, s.imemRead a = none)

/-- R272: every assignment of `LoadProgram(p)`, on any machine, halted or not, inside an instruction or not. -/
def Obligations.ReloadResetsTheListedState : Prop :=
  ∀ (p : List Text) (s : State), ∃ t : State, applyEvent (.loadProgram p) s = .next t ∧
    t.imem = p ∧ t.pc = 0 ∧ t.ir = [] ∧ t.mar = 0 ∧ t.mbr = 0 ∧ t.regs = [] ∧ t.iq = [] ∧
    t.op1 = none ∧ t.op2 = none ∧ t.dest = none ∧ t.active = none ∧ t.upc = 0 ∧ t.halted = false ∧ t.reason = none

/-- R273, R295 (the spec's decisions D17, D21, D25): a reload keeps the data memory, the flags, the parameters and the
devices. Derived: the decisions just named. -/
def Obligations.ReloadKeepsMemoryFlagsAndDevices : Prop :=
  ∀ (p : List Text) (s t : State), applyEvent (.loadProgram p) s = .next t →
    (∀ a : Nat, t.mem.read a = s.mem.read a) ∧ t.mem = s.mem ∧ t.flags = s.flags ∧ t.params = s.params ∧
    t.devices = s.devices

/-- R90, R108, 60_exceptions.md R243: an absent or blank line halts at the second signal, and `pc`, `mbr` and `ir`
stay. Derived: R90 and R243 are the spec's inferences, blankness its decision D33. -/
def Obligations.AbsentOrBlankLineEndsTheProgram : Prop :=
  ∀ s : State, s.halted = false → s.atBoundary = true →
    (s.imemRead s.pc = none ∨ ∃ t : Text, s.imemRead s.pc = some t ∧ isBlank t = true) →
      step s = .next ({ s with mar := s.pc }.haltedIn .fetch 1 (.endOfProgram s.pc)) ∧
      signalSteps 2 s = step s

/-- R89, R243: a text whose mnemonic is no key halts at the fourth signal, after `pc` was incremented. Derived: R243
is the spec's inference. -/
def Obligations.UnknownMnemonicHaltsAtDecode : Prop :=
  ∀ (s : State) (t : Text) (m : Token),
    s.aboutToFetch t → (tokens t).head? = some m → (∀ k : Key, k.present s.params.logicExt = true → k.name ≠ m) →
      step s = .next ((s.fetched t).haltedIn .fetch 3 (.unrecognizedInstruction m)) ∧
      signalSteps 4 s = step s

/-- R271: without a program, the second `Step` halts. Derived: R271 is the spec's inference. -/
def Obligations.StepBeforeAnyLoadEndsTheProgram : Prop :=
  ∀ (p : Params) (ds : List Device),
    signalSteps 2 (State.powerOn p ds) = .next ((State.powerOn p ds).haltedIn .fetch 1 (.endOfProgram 0)) ∧
    step (State.powerOn p ds) = signalSteps 2 (State.powerOn p ds)

/-- R107, R109, R112 to R114, R125, R126, R132, R136, and R137 for every other name: signals of the source, each with its
effect and its halts, and what a `Clear` and a halt do to the machine (R102, R240). Derived: the outcomes and the state a
halt leaves are the spec's decisions D11 and D27, the halt on a missing token (R84) its decision D24, and that a decode
signal then writes no field (R140) its decision D36. -/
def Obligations.SourceSignalsDoWhatTheirRulesSay : Prop :=
  ∀ s : State,
    perform .pcOutMarIn s = .next { s with mar := s.pc } ∧
    perform .mbrOutIrIn s = .next s ∧
    (∀ a b : Token, (tokens s.ir)[1]? = some a → (tokens s.ir)[2]? = some b →
      perform .decodeOperandsRR s = .next { s with op1 := some a, op2 := some b } ∧
      perform .decodeOperandsRImm s = .next { s with dest := some a, op1 := some b }) ∧
    ((tokens s.ir)[1]? = none →
      perform .decodeOperandsRR s = .halt (.operandMissing 1) s ∧
      perform .decodeOperandsRImm s = .halt (.operandMissing 1) s ∧
      perform .decodeOperandAddr s = .halt (.operandMissing 1) s ∧
      perform .reg1ToMbr s = .halt (.operandMissing 1) s) ∧
    ((tokens s.ir)[1]?.isSome = true → (tokens s.ir)[2]? = none →
      perform .decodeOperandsRR s = .halt (.operandMissing 2) s ∧
      perform .decodeOperandsRImm s = .halt (.operandMissing 2) s) ∧
    (∀ t : Token, (tokens s.ir)[1]? = some t →
      perform .decodeOperandAddr s = .next { s with op1 := some t } ∧
      perform .reg1ToMbr s = .next { s with mbr := s.readReg t }) ∧
    (∀ (t : Token) (v : Word), s.op1 = some t → parseInt t = some v →
      perform .immediateToMbr s = .next { s with mbr := v } ∧
      perform .addressToPc s = .clear { s with pc := v }) ∧
    (∀ t : Token, s.op1 = some t → parseInt t = none →
      perform .immediateToMbr s = .halt (.badInteger t) s ∧
      perform .addressToPc s = .halt (.badInteger t) s) ∧
    perform .haltCpu s = .halt .hltOk s ∧
    (∀ name : Text, perform (.other name) s = .halt (.unknownSignal name) s) ∧
    (∀ (len : Nat) (u : State), applyResult len (.clear u) = { u with active := none, upc := 0 }) ∧
    (∀ (len : Nat) (c : HaltCause) (u : State),
      applyResult len (.halt c u) = { u with halted := true, reason := some c })

/-! ### Text and encoding -/

/-- R81: three facts that fix the token list of every string. Derived: the whitespace set is the spec's decision D3. -/
def Obligations.TokensAreTheMaximalRuns : Prop :=
  (∀ t : Text, tokenValid t = true → tokens t = [t]) ∧
  (∀ (a b : Text) (c : Char), isSpace c = true → tokens (a ++ c :: b) = tokens a ++ tokens b) ∧
  tokens [] = []

/-- R83: the decimal spelling of every `i32` is read as that `i32`, and so is a spelling with `+` or a leading zero; any
run of digits is read, with a sign or without, as the number it spells, where that is an `i32`; and a token that is not
an optional sign before one or more digits is no literal. Derived: the grammar is the spec's decision D4. -/
def Obligations.DecimalSpellingsAreReadBack : Prop :=
  (∀ w : Word, parseInt (intText w.toInt) = some w) ∧
  (∀ n : Nat, n ≤ 2147483647 → parseInt ('+' :: natText n) = some (BitVec.ofNat 32 n)) ∧
  (∀ n : Nat, n ≤ 2147483647 → parseInt ('0' :: natText n) = some (BitVec.ofNat 32 n)) ∧
  (∀ n : Nat, 2147483647 < n → parseInt (natText n) = none) ∧
  (∀ n : Nat, 2147483648 < n → parseInt ('-' :: natText n) = none) ∧
  (∀ ds : Text, ds ≠ [] → (∀ c ∈ ds, 0x30 ≤ c.toNat ∧ c.toNat ≤ 0x39) →
    let n := ds.foldl (fun n c => 10 * n + (c.toNat - 0x30)) 0
    parseInt ds = (if n ≤ 2147483647 then some (BitVec.ofNat 32 n) else none) ∧
    parseInt ('+' :: ds) = (if n ≤ 2147483647 then some (BitVec.ofNat 32 n) else none) ∧
    parseInt ('-' :: ds) = (if n ≤ 2147483648 then some (BitVec.ofInt 32 (-(n : Int))) else none)) ∧
  (∀ t : Token, parseInt t = none ∨
    ∃ ds : Text, ds ≠ [] ∧ (∀ c ∈ ds, 0x30 ≤ c.toNat ∧ c.toNat ≤ 0x39) ∧ (t = ds ∨ t = '+' :: ds ∨ t = '-' :: ds))

/-- R80, R86, R88: decoding an encoded well-formed instruction gives it back, with every operand at every token.
Derived: text as the encoding is the spec's decision D2, the whitespace set (R81) its decision D3, the formats its
decisions D7, D9, D10. -/
def Obligations.DecodeReadsEveryEncodedInstruction : Prop :=
  ∀ (i : Instr) (logicExt : Bool), i.wellFormed = true → i.key.present logicExt = true →
    decode logicExt (encode i) = .instr i

/-- R85, R88: a text that decodes to a well-formed instruction holds the tokens of its encoding, and then only tokens
that are ignored. Derived: that extra tokens are ignored is the spec's decision D24, the cut into tokens (R81) its
decision D3. -/
def Obligations.DecodedTextHoldsTheEncoding : Prop :=
  ∀ (logicExt : Bool) (t : Text) (i : Instr), decode logicExt t = .instr i → i.wellFormed = true →
    i.key.present logicExt = true ∧ ∃ ignored : List Token, tokens t = tokens (encode i) ++ ignored

/-- R80, R81, R86, R88, R89: words written out by character code from the encodings of R88, one of them an indented line.
Derived: bytes as character codes are log entry 7; text as the encoding is the spec's decision D2, the operand order of
STORE its decision D10 (log entry 21); that the indented line `JE 6` decodes is its decision D3 on whitespace, general
knowledge G1 (log entries 21 and 22), and D3 asks claims about the real machine to avoid such lines. -/
def Obligations.WrittenWordsDecode : Prop :=
  decodeTableWord 72 0x642062206120444441 = some (.add (some ['a']) (some ['b']) (some ['d'])) ∧
  decodeTableWord 72 0x3920732045524f5453 = some (.store (some ['s']) (some ['9'])) ∧
  decodeTableWord 40 0x3620454a20 = some (.je (some ['6'])) ∧
  decodeTableWord 24 0x544c48 = some .hlt ∧
  decodeTableWord 24 0x746c68 = none

/-! ### The ALU -/

/-- 41_arithmetic_logic.md R151, R152, over the exact sum and difference. -/
def Obligations.AluAddAndSubWidenAndTruncate : Prop :=
  ∀ (ovf : Bool) (op : AluOp) (w : Int) (a b : Word),
    (op = .add ∧ w = a.toInt + b.toInt ∨ op = .sub ∧ w = a.toInt - b.toInt) →
      let r := BitVec.ofInt 32 w
      alu ovf op a b = some (r, lawFlags r (decide (w / 2 ^ 32 ≠ 0)) (decide (w ≠ r.toInt)))

/-- R153, over the exact product. -/
def Obligations.AluMulWidensAndTruncates : Prop :=
  ∀ (ovf : Bool) (a b : Word),
    let w := a.toInt * b.toInt
    let r := BitVec.ofInt 32 w
    alu ovf .mul a b = some (r, lawFlags r false (decide (w ≠ r.toInt)))

/-- R154, R155, R173: the quotient by its size and its sign, the one overflow, and the zero divisor. Derived: the
spec's decisions D14, D15, D16. -/
def Obligations.AluDivRoundsTowardZero : Prop :=
  ∀ (ovf : Bool) (a b : Word),
    (b = 0 → alu ovf .div a b = none) ∧
    (b ≠ 0 → ∀ q : Int, q.natAbs = a.toInt.natAbs / b.toInt.natAbs →
      (q < 0 ↔ q ≠ 0 ∧ (a.toInt < 0 ∧ 0 < b.toInt ∨ 0 < a.toInt ∧ b.toInt < 0)) →
        let r := BitVec.ofInt 32 q
        alu ovf .div a b =
          some (r, lawFlags r false (ovf && decide (a.toInt = -2147483648 ∧ b.toInt = -1))))

/-- R156 to R159: bit by bit, with C and V false. Derived: C and V false is the spec's decision D15 (R150). -/
def Obligations.AluLogicIsBitwise : Prop :=
  ∀ (ovf : Bool) (a b r : Word) (f : Flags),
    (alu ovf .and a b = some (r, f) → ∀ k : Nat, r.getLsbD k = (a.getLsbD k && b.getLsbD k)) ∧
    (alu ovf .or a b = some (r, f) → ∀ k : Nat, r.getLsbD k = (a.getLsbD k || b.getLsbD k)) ∧
    (alu ovf .xor a b = some (r, f) → ∀ k : Nat, r.getLsbD k = (a.getLsbD k != b.getLsbD k)) ∧
    (alu ovf .not a b = some (r, f) →
      r.toInt = -a.toInt - 1 ∧ ∀ k : Nat, k < 32 → r.getLsbD k = !a.getLsbD k) ∧
    (∀ op ∈ [AluOp.and, AluOp.or, AluOp.xor, AluOp.not],
      (alu ovf op a b).isSome = true ∧ (alu ovf op a b = some (r, f) → f = lawFlags r false false))

/-- R168: the signed order, without wrap. Derived: the spec's decision D18. -/
def Obligations.CompareIsTheSignedOrder : Prop :=
  ∀ a b : Word,
    (a.toInt < b.toInt → compareWords a b = -1) ∧ (a.toInt = b.toInt → compareWords a b = 0) ∧
      (b.toInt < a.toInt → compareWords a b = 1)

/-! ### Registers and memory -/

/-- 10_state.md R20 to R22: a written register reads back with an entry, every other name keeps its entry, a name
without an entry reads 0, and the register file keeps its canonical form. Derived: the canonical form is log entry 11;
R22 holds an inference of the spec. -/
def Obligations.RegisterWriteReadsBack : Prop :=
  ∀ (s : State) (g : Text) (n : Token) (v : Word),
    (s.writeReg g n v).readReg n = v ∧ n ∈ (s.writeReg g n v).regs.names ∧
      (∀ m : Token, m ≠ n → (s.writeReg g n v).regs.entry m = s.regs.entry m ∧ (s.writeReg g n v).readReg m = s.readReg m) ∧
      (∀ m : Token, m ∉ s.regs.names → s.readReg m = 0) ∧
      (RegFile.wf s.regs → RegFile.wf (s.writeReg g n v).regs)

/-- 20_memory.md R61: a read in range gives the cell, a read out of range halts with the address. Derived: the signal
is the spec's decision D7. -/
def Obligations.DataReadIsTheCellOrAHalt : Prop :=
  ∀ s : State,
    (0 ≤ s.mar.toInt ∧ s.mar.toInt < s.params.memCapacity →
      memDataReadMbrIn s = .next { s with mbr := s.mem.read s.mar.toInt.toNat }) ∧
    (s.mar.toInt < 0 ∨ (s.params.memCapacity : Int) ≤ s.mar.toInt →
      memDataReadMbrIn s = .halt (.memOutOfRange s.mar) s)

/-- R62: a write in range changes that cell and no other, a write out of range halts and changes no cell. The written
cell reads back where the memory is in the canonical form every event keeps (`EveryEventKeepsTheInvariant`). Derived:
the signal is the spec's decision D7, the canonical form log entry 10. -/
def Obligations.DataWriteChangesOneCell : Prop :=
  ∀ s : State,
    (0 ≤ s.mar.toInt ∧ s.mar.toInt < s.params.memCapacity →
      ∃ m : Memory, mbrOutMemDataWrite s = .next { s with mem := m } ∧
        (Memory.wf s.mem → m.read s.mar.toInt.toNat = s.mbr ∧ Memory.wf m) ∧
        ∀ a : Nat, a ≠ s.mar.toInt.toNat → m.read a = s.mem.read a) ∧
    (s.mar.toInt < 0 ∨ (s.params.memCapacity : Int) ≤ s.mar.toInt →
      mbrOutMemDataWrite s = .halt (.memOutOfRange s.mar) s)

/-- The canonical form is one list per content: memories that read the same are equal (log entry 10). Derived: the
form is log entry 10. -/
def Obligations.EqualContentsAreEqualMemories : Prop :=
  ∀ m n : Memory, Memory.wf m → Memory.wf n → (∀ a : Nat, m.read a = n.read a) → m = n

/-! ### The instructions' own effects: each names every field that changes, so all others are unchanged -/

/-- R160, R171, R172. Derived: the microprogram is the spec's decision D6; R172 is its inference. -/
def Obligations.AddWritesTheWrappedSum : Prop :=
  ∀ (s : State) (a b d : Token),
    let w := (s.readReg a).toInt + (s.readReg b).toInt
    let r := BitVec.ofInt 32 w
    exec (.add (some a) (some b) (some d)) s =
      .next { s.resultTo d r with
        op1 := some a, op2 := some b, flags := lawFlags r (decide (w < 0)) (outsideI32 w) }

/-- R161, R171, R172. Derived: the microprogram is the spec's decision D6; R171 and R172 are its inferences. -/
def Obligations.SubWritesTheWrappedDifference : Prop :=
  ∀ (s : State) (a b d : Token),
    let w := (s.readReg a).toInt - (s.readReg b).toInt
    let r := BitVec.ofInt 32 w
    exec (.sub (some a) (some b) (some d)) s =
      .next { s.resultTo d r with
        op1 := some a, op2 := some b, flags := lawFlags r (decide (w < 0)) (outsideI32 w) }

/-- R162, R171. Derived: the microprogram is the spec's decision D6. -/
def Obligations.MulWritesTheLowHalfOfTheProduct : Prop :=
  ∀ (s : State) (a b d : Token),
    let w := (s.readReg a).toInt * (s.readReg b).toInt
    let r := BitVec.ofInt 32 w
    exec (.mul (some a) (some b) (some d)) s =
      .next { s.resultTo d r with op1 := some a, op2 := some b, flags := lawFlags r false (outsideI32 w) }

/-- R163, R154: with a divisor other than 0 the quotient toward zero; with a zero divisor the halt at signal 1,
nothing written but the decode fields. Derived: the spec's decisions D6, D14, D16. -/
def Obligations.DivWritesTheQuotientOrHalts : Prop :=
  ∀ (s : State) (a b d : Token),
    let q := (s.readReg a).toInt.tdiv (s.readReg b).toInt
    let r := BitVec.ofInt 32 q
    (s.readReg b ≠ 0 →
      exec (.div (some a) (some b) (some d)) s =
        .next { s.resultTo d r with
          op1 := some a, op2 := some b, flags := lawFlags r false (s.params.divOvf && outsideI32 q) }) ∧
    (s.readReg b = 0 →
      exec (.div (some a) (some b) (some d)) s =
        .next ({ s with op1 := some a, op2 := some b, dest := some d }.haltedIn .div 1 .divByZero))

/-- R164 to R166. Derived: the spec's decisions D6, D8. -/
def Obligations.LogicInstructionsWriteTheBitwiseResult : Prop :=
  ∀ (s : State) (a b d : Token),
    let x := s.readReg a
    let y := s.readReg b
    exec (.and (some a) (some b) (some d)) s =
      .next { s.resultTo d (x &&& y) with op1 := some a, op2 := some b, flags := lawFlags (x &&& y) false false } ∧
    exec (.or (some a) (some b) (some d)) s =
      .next { s.resultTo d (x ||| y) with op1 := some a, op2 := some b, flags := lawFlags (x ||| y) false false } ∧
    exec (.xor (some a) (some b) (some d)) s =
      .next { s.resultTo d (x ^^^ y) with op1 := some a, op2 := some b, flags := lawFlags (x ^^^ y) false false }

/-- R167, R159: the result is `-x - 1`; `op2` is neither read nor written. Derived: the spec's decisions D6, D8, D9. -/
def Obligations.NotWritesTheComplement : Prop :=
  ∀ (s : State) (src dst : Token),
    let r := BitVec.ofInt 32 (-(s.readReg src).toInt - 1)
    exec (.not (some src) (some dst)) s =
      .next { s.resultTo dst r with op1 := some src, flags := lawFlags r false false }

/-- 42_data_transfer.md R190. Derived: the microprogram is the spec's decision D6. -/
def Obligations.MovImmWritesTheLiteral : Prop :=
  ∀ (s : State) (d i : Token) (v : Word), parseInt i = some v →
    exec (.movImm (some d) (some i)) s = .next { s.resultTo d v with op1 := some i }

/-- R191. Derived: the spec's decisions D6, D9. -/
def Obligations.MovRegCopiesTheSource : Prop :=
  ∀ (s : State) (src dst : Token),
    exec (.movReg (some src) (some dst)) s = .next { s.resultTo dst (s.readReg src) with op1 := some src }

/-- R192: in range the cell is loaded; out of range the halt at signal 2 with the address in `mar`. Derived: the
spec's decisions D6, D7, D10. -/
def Obligations.LoadReadsTheCellOrHalts : Prop :=
  ∀ (s : State) (d m : Token) (a : Word), parseInt m = some a →
    (0 ≤ a.toInt ∧ a.toInt < s.params.memCapacity →
      exec (.load (some d) (some m)) s =
        .next { s.resultTo d (s.mem.read a.toInt.toNat) with op1 := some m, mar := a }) ∧
    (a.toInt < 0 ∨ (s.params.memCapacity : Int) ≤ a.toInt →
      exec (.load (some d) (some m)) s =
        .next ({ s with dest := some d, op1 := some m, mar := a }.haltedIn .load 2 (.memOutOfRange a)))

/-- R193: in range exactly the cell at the address changes; out of range the halt at signal 3, no cell changed.
Derived: the spec's decisions D6, D7, D10; the canonical form is log entry 10. -/
def Obligations.StoreWritesTheCellOrHalts : Prop :=
  ∀ (s : State) (src m : Token) (a : Word), parseInt m = some a →
    (0 ≤ a.toInt ∧ a.toInt < s.params.memCapacity →
      ∃ t : State, exec (.store (some src) (some m)) s = .next t ∧
        t = { s with
          dest := some src, op1 := some m, mar := a, mbr := s.readReg src, active := none, upc := 0, mem := t.mem } ∧
        (Memory.wf s.mem → t.mem.read a.toInt.toNat = s.readReg src ∧ Memory.wf t.mem) ∧
        ∀ c : Nat, c ≠ a.toInt.toNat → t.mem.read c = s.mem.read c) ∧
    (a.toInt < 0 ∨ (s.params.memCapacity : Int) ≤ a.toInt →
      exec (.store (some src) (some m)) s =
        .next ({ s with dest := some src, op1 := some m, mar := a, mbr := s.readReg src }.haltedIn .store 3
          (.memOutOfRange a)))

/-- 43_io.md R210, R212: the next supplied value, or the environment's answer, the free value that `Device.take` gives;
without device 0 the halt. Derived: the spec's decision D25; the port and the free value are log entry 5. -/
def Obligations.InputCharReadsDeviceZero : Prop :=
  ∀ s : State,
    (∀ (d : Device) (v : Word) (rest : List Word), s.devices[0]? = some d → d.supplied = v :: rest →
      exec .inputChar s =
        .next { s.writeReg (signalName .readFromDevice0BusToAcc) accName v with
          devices := s.devices.set 0 { d with supplied := rest }, active := none, upc := 0 }) ∧
    (∀ d : Device, s.devices[0]? = some d → d.supplied = [] →
      exec .inputChar s =
        .next { s.writeReg (signalName .readFromDevice0BusToAcc) accName (Device.take 0 d).1 with
          devices := s.devices.set 0 { d with freeReads := d.freeReads + 1 }, active := none, upc := 0 }) ∧
    (s.devices = [] → exec .inputChar s = .next (s.haltedIn .inputChar 0 (.noDevice 0)))

/-- R211, R213: device 1 receives `ACC` as one more value; without device 1 the halt. Derived: the spec's decision
D25; the port is log entry 5. -/
def Obligations.OutputCharWritesDeviceOne : Prop :=
  ∀ s : State,
    (∀ d : Device, s.devices[1]? = some d →
      exec .outputChar s =
        .next { s with
          devices := s.devices.set 1 { d with written := d.written ++ [s.readReg accName] }, active := none, upc := 0 }) ∧
    (s.devices.length < 2 → exec .outputChar s = .next (s.haltedIn .outputChar 0 (.noDevice 1)))

/-- 44_control_flow.md R220: any `i32` target. Derived: the microprogram is the spec's decision D6. -/
def Obligations.JmpWritesTheTarget : Prop :=
  ∀ (s : State) (t : Token) (v : Word), parseInt t = some v →
    exec (.jmp (some t)) s = .next { s with op1 := some t, pc := v, active := none, upc := 0 }

/-- R221: one entry at the tail of the FIFO, no flag, not `mbr`. A FIFO whose `IQ_DEPTH` is a number and which is full
then holds some of its entries and the new one, in order, within its capacity. Derived: the spec's decisions D6, D18,
D26; what a full FIFO holds is a free value, log entry 14. -/
def Obligations.CmpAppendsTheComparison : Prop :=
  ∀ (s : State) (a b : Token),
    ∃ (e : Word) (q : List Word), exec (.cmp (some a) (some b)) s =
        .next { s with op1 := some a, op2 := some b, iq := q, active := none, upc := 0 } ∧
      ((s.readReg a).toInt < (s.readReg b).toInt → e = -1) ∧ (s.readReg a = s.readReg b → e = 0) ∧
      ((s.readReg b).toInt < (s.readReg a).toInt → e = 1) ∧
      ((∀ d : Nat, s.params.iqDepth = some d → s.iq.length < d) → q = s.iq ++ [e]) ∧
      (∀ d : Nat, s.params.iqDepth = some d → d ≤ s.iq.length → q.Sublist (s.iq ++ [e]) ∧ q.length ≤ d)

/-- R222, R223, R133, R134: a taken conditional jump pops the oldest entry and jumps. Derived: the spec's decision
D12. -/
def Obligations.TakenConditionalJumpPopsAndJumps : Prop :=
  ∀ (s : State) (e : Word) (rest : List Word) (t : Token) (v : Word), s.iq = e :: rest → parseInt t = some v →
    (e = 0 → exec (.je (some t)) s = .next { s with iq := rest, op1 := some t, pc := v, active := none, upc := 0 }) ∧
    (e ≠ 0 → exec (.jne (some t)) s = .next { s with iq := rest, op1 := some t, pc := v, active := none, upc := 0 })

/-- R222, R223: a conditional jump that is not taken reads no operand; with nothing pending it changes nothing; else
it pops by `CJ_POP`. Derived: the spec's decision D12. -/
def Obligations.UntakenConditionalJumpFallsThrough : Prop :=
  ∀ (s : State) (t : Operand),
    (s.iq = [] → exec (.je t) s = .next { s with active := none, upc := 0 } ∧
      exec (.jne t) s = .next { s with active := none, upc := 0 }) ∧
    (∀ (e : Word) (rest : List Word), s.iq = e :: rest →
      let kept := if s.params.cjPop = .always then rest else e :: rest
      (e ≠ 0 → exec (.je t) s = .next { s with iq := kept, active := none, upc := 0 }) ∧
      (e = 0 → exec (.jne t) s = .next { s with iq := kept, active := none, upc := 0 }))

/-- R133, R134, R243: a taken conditional jump without a readable target halts after the pop. Derived: the spec's
decisions D12, D36. -/
def Obligations.TakenConditionalJumpWithBadTargetHalts : Prop :=
  ∀ (s : State) (e : Word) (rest : List Word), s.iq = e :: rest →
    (e = 0 → exec (.je none) s = .next ({ s with iq := rest }.haltedIn .je 0 (.operandMissing 1))) ∧
    (e ≠ 0 → exec (.jne none) s = .next ({ s with iq := rest }.haltedIn .jne 0 (.operandMissing 1))) ∧
    (∀ t : Token, parseInt t = none →
      (e = 0 → exec (.je (some t)) s =
        .next ({ s with iq := rest, op1 := some t }.haltedIn .je 0 (.badInteger t))) ∧
      (e ≠ 0 → exec (.jne (some t)) s =
        .next ({ s with iq := rest, op1 := some t }.haltedIn .jne 0 (.badInteger t))))

/-- R226, R227: HLT halts normally and changes nothing else; FETCH leaves the fetch of the next line to be run.
Derived: FETCH as an instruction is the spec's decision D28. -/
def Obligations.HltHaltsAndFetchDoesNothing : Prop :=
  ∀ s : State,
    exec .hlt s = .next (s.haltedIn .hlt 0 .hltOk) ∧
    exec .fetch s = .next { s with active := some .fetch, upc := 0 }

/-- 30_encoding.md R84, R140, R243: an instruction with a decode signal and too few tokens halts at its first signal
with the lowest missing index, no field written. Derived: the spec's decisions D24, D36. -/
def Obligations.MissingOperandHaltsAtTheDecodeSignal : Prop :=
  ∀ (i : Instr) (s : State) (n : Nat), i.key ≠ .je → i.key ≠ .jne → i.operands.findIdx? Option.isNone = some n →
    exec i s = .next (s.haltedIn i.key 0 (.operandMissing (n + 1)))

/-- R83, R243: a token that is no integer literal halts at the signal that converts it. Derived: the spec's decisions
D4, D27. -/
def Obligations.BadIntegerHaltsAtTheConversion : Prop :=
  ∀ (s : State) (r t : Token), parseInt t = none →
    exec (.movImm (some r) (some t)) s =
      .next ({ s with dest := some r, op1 := some t }.haltedIn .movImm 1 (.badInteger t)) ∧
    exec (.load (some r) (some t)) s =
      .next ({ s with dest := some r, op1 := some t }.haltedIn .load 1 (.badInteger t)) ∧
    exec (.store (some r) (some t)) s =
      .next ({ s with dest := some r, op1 := some t }.haltedIn .store 1 (.badInteger t)) ∧
    exec (.jmp (some t)) s = .next ({ s with op1 := some t }.haltedIn .jmp 1 (.badInteger t))

/-! ### What no instruction and no signal may touch -/

/-- R26: a register other than the instruction's destination keeps its entry. Derived: R26 is the spec's inference. -/
def Obligations.OnlyTheDestinationRegisterChanges : Prop :=
  ∀ (i : Instr) (s t : State) (n : Token), exec i s = .next t → i.destination ≠ some n →
    t.regs.entry n = s.regs.entry n ∧ t.readReg n = s.readReg n

/-- R65: a cell other than the one STORE's address names reads as before, and so does every cell under every other
instruction. Derived: R65 is the spec's inference. -/
def Obligations.OnlyStoreChangesItsCell : Prop :=
  ∀ (i : Instr) (s t : State) (a : Nat), exec i s = .next t → i.storeCell s.params ≠ some a →
    t.mem.read a = s.mem.read a

/-- The rest of the state by the instructions that may change it, for every form and also when the instruction halts: the
parameters (R5, R63, R295), the program (R47), `ir` (R33), the flags (R35), the FIFO (R249), `pc` (R29), the devices (R210,
R211, R257) and the reason of a halt (R39). Derived: each rule is stated in part; the devices' contract is the spec's
decision D25 and the port log entry 5; R63 and R295 rest on its decisions D21, D1, D35. -/
def Obligations.InstructionsKeepWhatTheyDoNotName : Prop :=
  ∀ (i : Instr) (s t : State), exec i s = .next t →
    t.params = s.params ∧ t.imem = s.imem ∧ t.ir = s.ir ∧
    (i.writesFlags = false → t.flags = s.flags) ∧
    (i.touchesFifo = false → t.iq = s.iq) ∧
    (i.writesPc = false → t.pc = s.pc) ∧
    (i.callsDevice = false → t.devices = s.devices) ∧
    (s.halted = false → t.halted = true → ∃ c : HaltCause, t.reason = some c)

/-- R33, R47, R75, and R5, R63, R295 for the parameters: over single events, `imem` and the parameters never change, and
`ir` only by the fetch signal. Derived: R75 is the spec's inference; R63 and R295 rest on its decisions D21, D1, D35; the
other rules are stated in part. -/
def Obligations.NoSignalWritesTheProgram : Prop :=
  ∀ s t : State, signalStep s = .next t →
    t.imem = s.imem ∧ t.params = s.params ∧
    (¬(s.active = some .fetch ∧ s.upc = 1) → t.ir = s.ir)

/-- R45, R249: one `Step` leaves the FIFO, or appends one entry of -1, 0, 1 at its tail where there is room, or removes
its head; where it is full, an entry of CMP leaves some of them, in order, within the capacity. Derived: that an entry is
-1, 0 or 1 is the spec's decision D18, a FIFO without a bound its decision D26; what a full one holds is a free value,
log entry 14. -/
def Obligations.FifoGrowsAtItsTailAndShrinksAtItsHead : Prop :=
  ∀ s t : State, signalStep s = .next t →
    t.iq = s.iq ∨ (∃ e : Word, s.iq = e :: t.iq) ∨
    (s.active = some .cmp ∧ ∃ e : Word, (e = -1 ∨ e = 0 ∨ e = 1) ∧
      (((∀ d : Nat, s.params.iqDepth = some d → s.iq.length < d) ∧ t.iq = s.iq ++ [e]) ∨
        (∃ d : Nat, s.params.iqDepth = some d ∧ d ≤ s.iq.length ∧ t.iq.Sublist (s.iq ++ [e]) ∧ t.iq.length ≤ d)))

/-- R24: provenance never affects computation: two states that differ in it only step to states that differ in it
only. Derived: the text is the spec's decision D29, a free value (log entry 4). -/
def Obligations.ProvenanceNeverAffectsComputation : Prop :=
  ∀ s u : State, s.withoutProvenance = u.withoutProvenance →
    seenThrough State.withoutProvenance (signalStep s) = seenThrough State.withoutProvenance (signalStep u) ∧
    seenThrough State.withoutProvenance (step s) = seenThrough State.withoutProvenance (step u)

/-- R36: no signal and no instruction reads a flag. Derived: R36 is stated in part. -/
def Obligations.NoSignalReadsAFlag : Prop :=
  ∀ s u : State, s.withoutFlags = u.withoutFlags →
    seenThrough State.withoutFlags (signalStep s) = seenThrough State.withoutFlags (signalStep u) ∧
    seenThrough State.withoutFlags (step s) = seenThrough State.withoutFlags (step u)
end

