-- ==== Sys2Proof/Laws/State.lean ====
section
/-! SUPPORT. One lemma per field per named update of the state, true by rfl, so that no proof unfolds a record update. -/

namespace Sys2Proof.Machine

/-! ### `writeReg` -/

@[simp] theorem writeReg_params (s : State) (g : Text) (n : Token) (v : Word) : (s.writeReg g n v).params = s.params := rfl
@[simp] theorem writeReg_pc (s : State) (g : Text) (n : Token) (v : Word) : (s.writeReg g n v).pc = s.pc := rfl
@[simp] theorem writeReg_mar (s : State) (g : Text) (n : Token) (v : Word) : (s.writeReg g n v).mar = s.mar := rfl
@[simp] theorem writeReg_mbr (s : State) (g : Text) (n : Token) (v : Word) : (s.writeReg g n v).mbr = s.mbr := rfl
@[simp] theorem writeReg_ir (s : State) (g : Text) (n : Token) (v : Word) : (s.writeReg g n v).ir = s.ir := rfl
@[simp] theorem writeReg_regs (s : State) (g : Text) (n : Token) (v : Word) : (s.writeReg g n v).regs = s.regs.write n { value := v, provenance := Config.provText g s.ir n v } := rfl
@[simp] theorem writeReg_flags (s : State) (g : Text) (n : Token) (v : Word) : (s.writeReg g n v).flags = s.flags := rfl
@[simp] theorem writeReg_halted (s : State) (g : Text) (n : Token) (v : Word) : (s.writeReg g n v).halted = s.halted := rfl
@[simp] theorem writeReg_reason (s : State) (g : Text) (n : Token) (v : Word) : (s.writeReg g n v).reason = s.reason := rfl
@[simp] theorem writeReg_active (s : State) (g : Text) (n : Token) (v : Word) : (s.writeReg g n v).active = s.active := rfl
@[simp] theorem writeReg_upc (s : State) (g : Text) (n : Token) (v : Word) : (s.writeReg g n v).upc = s.upc := rfl
@[simp] theorem writeReg_op1 (s : State) (g : Text) (n : Token) (v : Word) : (s.writeReg g n v).op1 = s.op1 := rfl
@[simp] theorem writeReg_op2 (s : State) (g : Text) (n : Token) (v : Word) : (s.writeReg g n v).op2 = s.op2 := rfl
@[simp] theorem writeReg_dest (s : State) (g : Text) (n : Token) (v : Word) : (s.writeReg g n v).dest = s.dest := rfl
@[simp] theorem writeReg_iq (s : State) (g : Text) (n : Token) (v : Word) : (s.writeReg g n v).iq = s.iq := rfl
@[simp] theorem writeReg_mem (s : State) (g : Text) (n : Token) (v : Word) : (s.writeReg g n v).mem = s.mem := rfl
@[simp] theorem writeReg_imem (s : State) (g : Text) (n : Token) (v : Word) : (s.writeReg g n v).imem = s.imem := rfl
@[simp] theorem writeReg_devices (s : State) (g : Text) (n : Token) (v : Word) : (s.writeReg g n v).devices = s.devices := rfl

/-! ### `iqRequest` -/

@[simp] theorem iqRequest_params (s : State) (c : Word) : (s.iqRequest c).params = s.params := rfl
@[simp] theorem iqRequest_pc (s : State) (c : Word) : (s.iqRequest c).pc = s.pc := rfl
@[simp] theorem iqRequest_mar (s : State) (c : Word) : (s.iqRequest c).mar = s.mar := rfl
@[simp] theorem iqRequest_mbr (s : State) (c : Word) : (s.iqRequest c).mbr = s.mbr := rfl
@[simp] theorem iqRequest_ir (s : State) (c : Word) : (s.iqRequest c).ir = s.ir := rfl
@[simp] theorem iqRequest_regs (s : State) (c : Word) : (s.iqRequest c).regs = s.regs := rfl
@[simp] theorem iqRequest_flags (s : State) (c : Word) : (s.iqRequest c).flags = s.flags := rfl
@[simp] theorem iqRequest_halted (s : State) (c : Word) : (s.iqRequest c).halted = s.halted := rfl
@[simp] theorem iqRequest_reason (s : State) (c : Word) : (s.iqRequest c).reason = s.reason := rfl
@[simp] theorem iqRequest_active (s : State) (c : Word) : (s.iqRequest c).active = s.active := rfl
@[simp] theorem iqRequest_upc (s : State) (c : Word) : (s.iqRequest c).upc = s.upc := rfl
@[simp] theorem iqRequest_op1 (s : State) (c : Word) : (s.iqRequest c).op1 = s.op1 := rfl
@[simp] theorem iqRequest_op2 (s : State) (c : Word) : (s.iqRequest c).op2 = s.op2 := rfl
@[simp] theorem iqRequest_dest (s : State) (c : Word) : (s.iqRequest c).dest = s.dest := rfl
@[simp] theorem iqRequest_iq (s : State) (c : Word) : (s.iqRequest c).iq = fifoRequest s.params.iqDepth s.iq c :=
  rfl
@[simp] theorem iqRequest_mem (s : State) (c : Word) : (s.iqRequest c).mem = s.mem := rfl
@[simp] theorem iqRequest_imem (s : State) (c : Word) : (s.iqRequest c).imem = s.imem := rfl
@[simp] theorem iqRequest_devices (s : State) (c : Word) : (s.iqRequest c).devices = s.devices := rfl

/-! ### `activated` -/

@[simp] theorem activated_params (s : State) (k : Key) : (s.activated k).params = s.params := rfl
@[simp] theorem activated_pc (s : State) (k : Key) : (s.activated k).pc = s.pc := rfl
@[simp] theorem activated_mar (s : State) (k : Key) : (s.activated k).mar = s.mar := rfl
@[simp] theorem activated_mbr (s : State) (k : Key) : (s.activated k).mbr = s.mbr := rfl
@[simp] theorem activated_ir (s : State) (k : Key) : (s.activated k).ir = s.ir := rfl
@[simp] theorem activated_regs (s : State) (k : Key) : (s.activated k).regs = s.regs := rfl
@[simp] theorem activated_flags (s : State) (k : Key) : (s.activated k).flags = s.flags := rfl
@[simp] theorem activated_halted (s : State) (k : Key) : (s.activated k).halted = s.halted := rfl
@[simp] theorem activated_reason (s : State) (k : Key) : (s.activated k).reason = s.reason := rfl
@[simp] theorem activated_active (s : State) (k : Key) : (s.activated k).active = some k := rfl
@[simp] theorem activated_upc (s : State) (k : Key) : (s.activated k).upc = 0 := rfl
@[simp] theorem activated_op1 (s : State) (k : Key) : (s.activated k).op1 = s.op1 := rfl
@[simp] theorem activated_op2 (s : State) (k : Key) : (s.activated k).op2 = s.op2 := rfl
@[simp] theorem activated_dest (s : State) (k : Key) : (s.activated k).dest = s.dest := rfl
@[simp] theorem activated_iq (s : State) (k : Key) : (s.activated k).iq = s.iq := rfl
@[simp] theorem activated_mem (s : State) (k : Key) : (s.activated k).mem = s.mem := rfl
@[simp] theorem activated_imem (s : State) (k : Key) : (s.activated k).imem = s.imem := rfl
@[simp] theorem activated_devices (s : State) (k : Key) : (s.activated k).devices = s.devices := rfl

/-! ### `raiseHalt` -/

@[simp] theorem raiseHalt_params (c : HaltCause) (s : State) : (raiseHalt c s).params = s.params := rfl
@[simp] theorem raiseHalt_pc (c : HaltCause) (s : State) : (raiseHalt c s).pc = s.pc := rfl
@[simp] theorem raiseHalt_mar (c : HaltCause) (s : State) : (raiseHalt c s).mar = s.mar := rfl
@[simp] theorem raiseHalt_mbr (c : HaltCause) (s : State) : (raiseHalt c s).mbr = s.mbr := rfl
@[simp] theorem raiseHalt_ir (c : HaltCause) (s : State) : (raiseHalt c s).ir = s.ir := rfl
@[simp] theorem raiseHalt_regs (c : HaltCause) (s : State) : (raiseHalt c s).regs = s.regs := rfl
@[simp] theorem raiseHalt_flags (c : HaltCause) (s : State) : (raiseHalt c s).flags = s.flags := rfl
@[simp] theorem raiseHalt_halted (c : HaltCause) (s : State) : (raiseHalt c s).halted = true := rfl
@[simp] theorem raiseHalt_reason (c : HaltCause) (s : State) : (raiseHalt c s).reason = some c := rfl
@[simp] theorem raiseHalt_active (c : HaltCause) (s : State) : (raiseHalt c s).active = s.active := rfl
@[simp] theorem raiseHalt_upc (c : HaltCause) (s : State) : (raiseHalt c s).upc = s.upc := rfl
@[simp] theorem raiseHalt_op1 (c : HaltCause) (s : State) : (raiseHalt c s).op1 = s.op1 := rfl
@[simp] theorem raiseHalt_op2 (c : HaltCause) (s : State) : (raiseHalt c s).op2 = s.op2 := rfl
@[simp] theorem raiseHalt_dest (c : HaltCause) (s : State) : (raiseHalt c s).dest = s.dest := rfl
@[simp] theorem raiseHalt_iq (c : HaltCause) (s : State) : (raiseHalt c s).iq = s.iq := rfl
@[simp] theorem raiseHalt_mem (c : HaltCause) (s : State) : (raiseHalt c s).mem = s.mem := rfl
@[simp] theorem raiseHalt_imem (c : HaltCause) (s : State) : (raiseHalt c s).imem = s.imem := rfl
@[simp] theorem raiseHalt_devices (c : HaltCause) (s : State) : (raiseHalt c s).devices = s.devices := rfl

/-! ### `loadProgram` -/

@[simp] theorem loadProgram_params (p : List Text) (s : State) : (loadProgram p s).params = s.params := rfl
@[simp] theorem loadProgram_pc (p : List Text) (s : State) : (loadProgram p s).pc = 0 := rfl
@[simp] theorem loadProgram_mar (p : List Text) (s : State) : (loadProgram p s).mar = 0 := rfl
@[simp] theorem loadProgram_mbr (p : List Text) (s : State) : (loadProgram p s).mbr = 0 := rfl
@[simp] theorem loadProgram_ir (p : List Text) (s : State) : (loadProgram p s).ir = [] := rfl
@[simp] theorem loadProgram_regs (p : List Text) (s : State) : (loadProgram p s).regs = [] := rfl
@[simp] theorem loadProgram_flags (p : List Text) (s : State) : (loadProgram p s).flags = s.flags := rfl
@[simp] theorem loadProgram_halted (p : List Text) (s : State) : (loadProgram p s).halted = false := rfl
@[simp] theorem loadProgram_reason (p : List Text) (s : State) : (loadProgram p s).reason = none := rfl
@[simp] theorem loadProgram_active (p : List Text) (s : State) : (loadProgram p s).active = none := rfl
@[simp] theorem loadProgram_upc (p : List Text) (s : State) : (loadProgram p s).upc = 0 := rfl
@[simp] theorem loadProgram_op1 (p : List Text) (s : State) : (loadProgram p s).op1 = none := rfl
@[simp] theorem loadProgram_op2 (p : List Text) (s : State) : (loadProgram p s).op2 = none := rfl
@[simp] theorem loadProgram_dest (p : List Text) (s : State) : (loadProgram p s).dest = none := rfl
@[simp] theorem loadProgram_iq (p : List Text) (s : State) : (loadProgram p s).iq = [] := rfl
@[simp] theorem loadProgram_mem (p : List Text) (s : State) : (loadProgram p s).mem = s.mem := rfl
@[simp] theorem loadProgram_imem (p : List Text) (s : State) : (loadProgram p s).imem = p := rfl
@[simp] theorem loadProgram_devices (p : List Text) (s : State) : (loadProgram p s).devices = s.devices := rfl

/-! ### `haltedIn` -/

@[simp] theorem haltedIn_params (s : State) (k : Key) (u : Nat) (c : HaltCause) : (s.haltedIn k u c).params = s.params := rfl
@[simp] theorem haltedIn_pc (s : State) (k : Key) (u : Nat) (c : HaltCause) : (s.haltedIn k u c).pc = s.pc := rfl
@[simp] theorem haltedIn_mar (s : State) (k : Key) (u : Nat) (c : HaltCause) : (s.haltedIn k u c).mar = s.mar := rfl
@[simp] theorem haltedIn_mbr (s : State) (k : Key) (u : Nat) (c : HaltCause) : (s.haltedIn k u c).mbr = s.mbr := rfl
@[simp] theorem haltedIn_ir (s : State) (k : Key) (u : Nat) (c : HaltCause) : (s.haltedIn k u c).ir = s.ir := rfl
@[simp] theorem haltedIn_regs (s : State) (k : Key) (u : Nat) (c : HaltCause) : (s.haltedIn k u c).regs = s.regs := rfl
@[simp] theorem haltedIn_flags (s : State) (k : Key) (u : Nat) (c : HaltCause) : (s.haltedIn k u c).flags = s.flags := rfl
@[simp] theorem haltedIn_halted (s : State) (k : Key) (u : Nat) (c : HaltCause) : (s.haltedIn k u c).halted = true := rfl
@[simp] theorem haltedIn_reason (s : State) (k : Key) (u : Nat) (c : HaltCause) : (s.haltedIn k u c).reason = some c := rfl
@[simp] theorem haltedIn_active (s : State) (k : Key) (u : Nat) (c : HaltCause) : (s.haltedIn k u c).active = some k := rfl
@[simp] theorem haltedIn_upc (s : State) (k : Key) (u : Nat) (c : HaltCause) : (s.haltedIn k u c).upc = u := rfl
@[simp] theorem haltedIn_op1 (s : State) (k : Key) (u : Nat) (c : HaltCause) : (s.haltedIn k u c).op1 = s.op1 := rfl
@[simp] theorem haltedIn_op2 (s : State) (k : Key) (u : Nat) (c : HaltCause) : (s.haltedIn k u c).op2 = s.op2 := rfl
@[simp] theorem haltedIn_dest (s : State) (k : Key) (u : Nat) (c : HaltCause) : (s.haltedIn k u c).dest = s.dest := rfl
@[simp] theorem haltedIn_iq (s : State) (k : Key) (u : Nat) (c : HaltCause) : (s.haltedIn k u c).iq = s.iq := rfl
@[simp] theorem haltedIn_mem (s : State) (k : Key) (u : Nat) (c : HaltCause) : (s.haltedIn k u c).mem = s.mem := rfl
@[simp] theorem haltedIn_imem (s : State) (k : Key) (u : Nat) (c : HaltCause) : (s.haltedIn k u c).imem = s.imem := rfl
@[simp] theorem haltedIn_devices (s : State) (k : Key) (u : Nat) (c : HaltCause) : (s.haltedIn k u c).devices = s.devices := rfl

/-! ### `fetched` -/

@[simp] theorem fetched_params (s : State) (t : Text) : (s.fetched t).params = s.params := rfl
@[simp] theorem fetched_pc (s : State) (t : Text) : (s.fetched t).pc = s.pc + 1 := rfl
@[simp] theorem fetched_mar (s : State) (t : Text) : (s.fetched t).mar = s.pc := rfl
@[simp] theorem fetched_mbr (s : State) (t : Text) : (s.fetched t).mbr = Config.fetchDigest t := rfl
@[simp] theorem fetched_ir (s : State) (t : Text) : (s.fetched t).ir = t := rfl
@[simp] theorem fetched_regs (s : State) (t : Text) : (s.fetched t).regs = s.regs := rfl
@[simp] theorem fetched_flags (s : State) (t : Text) : (s.fetched t).flags = s.flags := rfl
@[simp] theorem fetched_halted (s : State) (t : Text) : (s.fetched t).halted = s.halted := rfl
@[simp] theorem fetched_reason (s : State) (t : Text) : (s.fetched t).reason = s.reason := rfl
@[simp] theorem fetched_active (s : State) (t : Text) : (s.fetched t).active = some .fetch := rfl
@[simp] theorem fetched_upc (s : State) (t : Text) : (s.fetched t).upc = 3 := rfl
@[simp] theorem fetched_op1 (s : State) (t : Text) : (s.fetched t).op1 = s.op1 := rfl
@[simp] theorem fetched_op2 (s : State) (t : Text) : (s.fetched t).op2 = s.op2 := rfl
@[simp] theorem fetched_dest (s : State) (t : Text) : (s.fetched t).dest = s.dest := rfl
@[simp] theorem fetched_iq (s : State) (t : Text) : (s.fetched t).iq = s.iq := rfl
@[simp] theorem fetched_mem (s : State) (t : Text) : (s.fetched t).mem = s.mem := rfl
@[simp] theorem fetched_imem (s : State) (t : Text) : (s.fetched t).imem = s.imem := rfl
@[simp] theorem fetched_devices (s : State) (t : Text) : (s.fetched t).devices = s.devices := rfl

/-! ### `resultTo` -/

@[simp] theorem resultTo_params (s : State) (d : Token) (r : Word) : (s.resultTo d r).params = s.params := rfl
@[simp] theorem resultTo_pc (s : State) (d : Token) (r : Word) : (s.resultTo d r).pc = s.pc := rfl
@[simp] theorem resultTo_mar (s : State) (d : Token) (r : Word) : (s.resultTo d r).mar = s.mar := rfl
@[simp] theorem resultTo_mbr (s : State) (d : Token) (r : Word) : (s.resultTo d r).mbr = r := rfl
@[simp] theorem resultTo_ir (s : State) (d : Token) (r : Word) : (s.resultTo d r).ir = s.ir := rfl
@[simp] theorem resultTo_regs (s : State) (d : Token) (r : Word) : (s.resultTo d r).regs = s.regs.write d { value := r, provenance := Config.provText (signalName .mbrOutRegDestIn) s.ir d r } := rfl
@[simp] theorem resultTo_flags (s : State) (d : Token) (r : Word) : (s.resultTo d r).flags = s.flags := rfl
@[simp] theorem resultTo_halted (s : State) (d : Token) (r : Word) : (s.resultTo d r).halted = s.halted := rfl
@[simp] theorem resultTo_reason (s : State) (d : Token) (r : Word) : (s.resultTo d r).reason = s.reason := rfl
@[simp] theorem resultTo_active (s : State) (d : Token) (r : Word) : (s.resultTo d r).active = none := rfl
@[simp] theorem resultTo_upc (s : State) (d : Token) (r : Word) : (s.resultTo d r).upc = 0 := rfl
@[simp] theorem resultTo_op1 (s : State) (d : Token) (r : Word) : (s.resultTo d r).op1 = s.op1 := rfl
@[simp] theorem resultTo_op2 (s : State) (d : Token) (r : Word) : (s.resultTo d r).op2 = s.op2 := rfl
@[simp] theorem resultTo_dest (s : State) (d : Token) (r : Word) : (s.resultTo d r).dest = some d := rfl
@[simp] theorem resultTo_iq (s : State) (d : Token) (r : Word) : (s.resultTo d r).iq = s.iq := rfl
@[simp] theorem resultTo_mem (s : State) (d : Token) (r : Word) : (s.resultTo d r).mem = s.mem := rfl
@[simp] theorem resultTo_imem (s : State) (d : Token) (r : Word) : (s.resultTo d r).imem = s.imem := rfl
@[simp] theorem resultTo_devices (s : State) (d : Token) (r : Word) : (s.resultTo d r).devices = s.devices := rfl

end Sys2Proof.Machine
end

