-- ==== Sys2Proof/Laws/Memory.lean ====
section
/-! SUPPORT. The data memory: reading after writing, and the canonical form that every operation keeps (20_memory.md R61,
R62). -/

namespace Sys2Proof.Machine

theorem Memory.read_listed_append (m : Memory) (a b : Nat) (v : Word) :
    (Memory.listed a v ++ m).read b = if b = a ∧ v ≠ Memory.unlisted then v else m.read b := by
  unfold Memory.listed
  split
  · next h => simp [h]
  · next h => by_cases hb : b = a <;> simp [Memory.read, hb, h]

/-- Below every listed index nothing is listed. -/
theorem Memory.read_of_lt {m : Memory} {a : Nat} (h : ∀ c ∈ m, a < c.1) : m.read a = Memory.unlisted := by
  induction m with
  | nil => rfl
  | cons c rest ih =>
    obtain ⟨b, w⟩ := c
    have hb : a < b := h (b, w) List.mem_cons_self
    rw [Memory.read, if_neg (by omega)]
    exact ih fun c hc => h c (List.mem_cons_of_mem _ hc)

/-- A write reads back; memories in canonical form only, since a write of 0 takes the entry out. -/
theorem Memory.read_write_same {m : Memory} (a : Nat) (v : Word) (h : Memory.wf m) : (m.write a v).read a = v := by
  induction m with
  | nil =>
    have := Memory.read_listed_append [] a a v
    simp only [List.append_nil] at this
    rw [Memory.write, this]
    by_cases hv : v = Memory.unlisted
    · simp [hv, Memory.read]
    · simp [hv]
  | cons c rest ih =>
    obtain ⟨b, w⟩ := c
    obtain ⟨hp, hz⟩ := h
    simp only [List.pairwise_cons] at hp
    unfold Memory.write
    split
    · next hlt =>
      rw [Memory.read_listed_append]
      by_cases hv : v = Memory.unlisted
      · simp only [hv, ne_eq, not_true, and_false, if_false]
        refine Memory.read_of_lt fun c hc => ?_
        rcases List.mem_cons.mp hc with rfl | hc
        · exact hlt
        · exact hlt.trans (hp.1 c hc)
      · simp [hv]
    · split
      · next heq =>
        subst heq
        rw [Memory.read_listed_append]
        by_cases hv : v = Memory.unlisted
        · simp only [hv, ne_eq, not_true, and_false, if_false]
          exact Memory.read_of_lt fun c hc => hp.1 c hc
        · simp [hv]
      · next hne =>
        rw [Memory.read, if_neg hne]
        exact ih ⟨hp.2, fun c hc => hz c (List.mem_cons_of_mem _ hc)⟩

/-- A write leaves every other cell as it reads. -/
theorem Memory.read_write_other (m : Memory) {a b : Nat} (v : Word) (h : b ≠ a) : (m.write a v).read b = m.read b := by
  induction m with
  | nil =>
    have := Memory.read_listed_append [] a b v
    simp only [List.append_nil] at this
    rw [Memory.write, this]
    simp [h]
  | cons c rest ih =>
    obtain ⟨k, w⟩ := c
    unfold Memory.write
    split
    · rw [Memory.read_listed_append]
      simp [h]
    · split
      · next hk =>
        subst hk
        rw [Memory.read_listed_append]
        simp [h, Memory.read]
      · simp [Memory.read, ih]

theorem Memory.mem_listed {a : Nat} {v : Word} {c : Nat × Word} (h : c ∈ Memory.listed a v) :
    c = (a, v) ∧ v ≠ Memory.unlisted := by
  unfold Memory.listed at h
  split at h
  · simp at h
  · next hv => exact ⟨by simpa using h, hv⟩

theorem Memory.mem_write {m : Memory} {a : Nat} {v : Word} {c : Nat × Word} (h : c ∈ m.write a v) :
    (c = (a, v) ∧ v ≠ Memory.unlisted) ∨ c ∈ m := by
  induction m with
  | nil => exact .inl (Memory.mem_listed h)
  | cons x rest ih =>
    obtain ⟨b, w⟩ := x
    unfold Memory.write at h
    split at h
    · rcases List.mem_append.mp h with h | h
      · exact .inl (Memory.mem_listed h)
      · exact .inr h
    · split at h
      · rcases List.mem_append.mp h with h | h
        · exact .inl (Memory.mem_listed h)
        · exact .inr (List.mem_cons_of_mem _ h)
      · rcases List.mem_cons.mp h with h | h
        · exact .inr (h ▸ List.mem_cons_self)
        · exact (ih h).imp_right (List.mem_cons_of_mem _)

/-- Every memory operation keeps the canonical form: the only one that changes the memory is `write`. -/
theorem Memory.wf_write {m : Memory} (a : Nat) (v : Word) (h : Memory.wf m) : Memory.wf (m.write a v) := by
  refine ⟨?_, fun c hc => ?_⟩
  · obtain ⟨hp, hz⟩ := h
    induction m with
    | nil =>
      unfold Memory.write Memory.listed
      split <;> simp
    | cons x rest ih =>
      obtain ⟨b, w⟩ := x
      simp only [List.pairwise_cons] at hp
      unfold Memory.write
      split
      · next hlt =>
        rw [List.pairwise_append]
        refine ⟨by unfold Memory.listed; split <;> simp, by simpa using hp, fun c hc d hd => ?_⟩
        obtain ⟨rfl, -⟩ := Memory.mem_listed hc
        rcases List.mem_cons.mp hd with rfl | hd
        · exact hlt
        · exact hlt.trans (hp.1 d hd)
      · split
        · next heq =>
          subst heq
          rw [List.pairwise_append]
          refine ⟨by unfold Memory.listed; split <;> simp, hp.2, fun c hc d hd => ?_⟩
          obtain ⟨rfl, -⟩ := Memory.mem_listed hc
          exact hp.1 d hd
        · next hge hne =>
          rw [List.pairwise_cons]
          refine ⟨fun c hc => ?_, ih hp.2 fun c hc => hz c (List.mem_cons_of_mem _ hc)⟩
          rcases Memory.mem_write hc with ⟨rfl, -⟩ | hc
          · exact show b < a by omega
          · exact hp.1 c hc
  · rcases Memory.mem_write hc with ⟨rfl, hv⟩ | hc
    · exact hv
    · exact h.2 c hc

/-- The memory of the reset state is in canonical form. -/
theorem Memory.wf_reset : Memory.wf State.reset.mem := by decide

end Sys2Proof.Machine
end

