-- ==== Sys2Proof/Laws/RegFile.lean ====
section
/-! SUPPORT. The register file: the order of names, reading after writing, and the canonical form (10_state.md R20 to R23). -/

namespace Sys2Proof.Machine

theorem tokenLt_irrefl (a : Token) : tokenLt a a = false := by
  induction a with
  | nil => rfl
  | cons c cs ih => simp [tokenLt, ih]

theorem tokenLt_trans {a b c : Token} (hab : tokenLt a b = true) (hbc : tokenLt b c = true) : tokenLt a c = true := by
  induction a generalizing b c with
  | nil =>
    cases c with
    | nil => cases b <;> simp [tokenLt] at hbc
    | cons => rfl
  | cons x xs ih =>
    cases b with
    | nil => simp [tokenLt] at hab
    | cons y ys =>
      cases c with
      | nil => simp [tokenLt] at hbc
      | cons z zs =>
        simp only [tokenLt, Bool.or_eq_true, Bool.and_eq_true, decide_eq_true_eq, beq_iff_eq] at *
        rcases hab with h1 | ⟨h1, h1'⟩ <;> rcases hbc with h2 | ⟨h2, h2'⟩
        · exact .inl (h1.trans h2)
        · exact .inl (h2 ▸ h1)
        · exact .inl (h1 ▸ h2)
        · exact .inr ⟨h1.trans h2, ih h1' h2'⟩

/-- Two different names are ordered one way or the other. -/
theorem tokenLt_total {a b : Token} (hne : a ≠ b) (h : tokenLt a b = false) : tokenLt b a = true := by
  induction a generalizing b with
  | nil =>
    cases b with
    | nil => exact absurd rfl hne
    | cons => simp [tokenLt] at h
  | cons x xs ih =>
    cases b with
    | nil => rfl
    | cons y ys =>
      simp only [tokenLt, Bool.or_eq_false_iff, Bool.and_eq_false_iff, decide_eq_false_iff_not, beq_eq_false_iff_ne,
        Bool.or_eq_true, Bool.and_eq_true, decide_eq_true_eq, beq_iff_eq] at *
      by_cases hxy : x = y
      · subst hxy
        exact .inr ⟨rfl, ih (fun e => hne (e ▸ rfl)) (h.2.resolve_left (by simp))⟩
      · have hn : x.toNat ≠ y.toNat := fun e => hxy (Char.ext (UInt32.toNat_inj.mp e))
        exact .inl (by omega)

theorem entry_write_same (r : RegFile) (n : Token) (e : RegEntry) : (r.write n e).entry n = some e := by
  induction r with
  | nil => simp [RegFile.write, RegFile.entry]
  | cons x rest ih =>
    obtain ⟨m, f⟩ := x
    unfold RegFile.write
    split
    · simp [RegFile.entry]
    · split
      · simp [RegFile.entry]
      · simp [RegFile.entry, *]

theorem entry_write_other (r : RegFile) {n m : Token} (e : RegEntry) (h : m ≠ n) :
    (r.write n e).entry m = r.entry m := by
  induction r with
  | nil => simp [RegFile.write, RegFile.entry, h]
  | cons x rest ih =>
    obtain ⟨k, f⟩ := x
    unfold RegFile.write
    split
    · next hk => subst hk; simp [RegFile.entry, h]
    · split
      · simp [RegFile.entry, h]
      · simp [RegFile.entry, ih]

@[simp] theorem read_write_same (r : RegFile) (n : Token) (e : RegEntry) : (r.write n e).read n = e.value := by
  simp [RegFile.read, entry_write_same]

theorem read_write_other (r : RegFile) {n m : Token} (e : RegEntry) (h : m ≠ n) :
    (r.write n e).read m = r.read m := by
  simp [RegFile.read, entry_write_other r e h]

theorem mem_write {r : RegFile} {n : Token} {e : RegEntry} {x : Token × RegEntry} (h : x ∈ r.write n e) :
    x = (n, e) ∨ x ∈ r := by
  induction r with
  | nil => simpa [RegFile.write] using h
  | cons y rest ih =>
    obtain ⟨m, f⟩ := y
    unfold RegFile.write at h
    split at h
    · rcases List.mem_cons.mp h with h | h
      · exact .inl h
      · exact .inr (List.mem_cons_of_mem _ h)
    · split at h
      · rcases List.mem_cons.mp h with h | h
        · exact .inl h
        · exact .inr h
      · rcases List.mem_cons.mp h with h | h
        · exact .inr (h ▸ List.mem_cons_self)
        · exact (ih h).imp_right (List.mem_cons_of_mem _)

/-- Every register write keeps the canonical form. -/
theorem RegFile.wf_write {r : RegFile} (n : Token) (e : RegEntry) (h : RegFile.wf r) : RegFile.wf (r.write n e) := by
  induction r with
  | nil => simp [RegFile.wf, RegFile.write]
  | cons y rest ih =>
    obtain ⟨m, f⟩ := y
    simp only [RegFile.wf, List.pairwise_cons] at h
    unfold RegFile.write
    split
    · next hn => subst hn; simpa [RegFile.wf, List.pairwise_cons] using h
    · next hne =>
      split
      · next hlt =>
        simp only [RegFile.wf, List.pairwise_cons, List.mem_cons]
        refine ⟨?_, h⟩
        rintro x (rfl | hx)
        · exact hlt
        · exact tokenLt_trans hlt (h.1 x hx)
      · next hge =>
        simp only [RegFile.wf, List.pairwise_cons]
        refine ⟨fun x hx => ?_, ih h.2⟩
        rcases mem_write hx with rfl | hx
        · exact tokenLt_total hne (by simpa using hge)
        · exact h.1 x hx

theorem entry_isSome_iff_mem_names (r : RegFile) (n : Token) : (r.entry n).isSome = true ↔ n ∈ r.names := by
  induction r with
  | nil => simp [RegFile.entry, RegFile.names]
  | cons y rest ih =>
    obtain ⟨m, f⟩ := y
    by_cases h : n = m
    · simp [RegFile.entry, RegFile.names, h]
    · simp only [RegFile.names] at ih
      simp [RegFile.entry, RegFile.names, h, ih]

end Sys2Proof.Machine
end

