-- ==== Sys2Proof/Laws/Ops.lean ====
section
/-! SUPPORT. What each shared operation can do, once: data and instruction memory, devices, the sequencer. -/

namespace Sys2Proof.Machine

/-! ### Addresses and memory -/

theorem cellIndex_of_inRange {p : Params} {a : Word} (h : 0 ≤ a.toInt ∧ a.toInt < p.memCapacity) :
    cellIndex p a = some a.toInt.toNat := by
  rw [cellIndex, if_neg]
  omega

theorem cellIndex_of_outOfRange {p : Params} {a : Word} (h : a.toInt < 0 ∨ (p.memCapacity : Int) ≤ a.toInt) :
    cellIndex p a = none := by
  rw [cellIndex, if_pos h]

/-- A data address that names a cell is in range, and the cell is the address. -/
theorem cellIndex_eq_some {p : Params} {a : Word} {k : Nat} (h : cellIndex p a = some k) :
    0 ≤ a.toInt ∧ a.toInt < p.memCapacity ∧ k = a.toInt.toNat ∧ k < p.memCapacity := by
  unfold cellIndex at h
  split at h
  · cases h
  · next hr =>
    cases h
    omega

/-- What a data write that succeeds does. -/
theorem memWrite_eq_some {s t : State} {a v : Word} (h : s.memWrite a v = some t) :
    ∃ k, cellIndex s.params a = some k ∧ t = { s with mem := s.mem.write k v } := by
  simp only [State.memWrite, Option.map_eq_some_iff] at h
  obtain ⟨k, hk, rfl⟩ := h
  exact ⟨k, hk, rfl⟩

/-- A line that is read is inside the instruction memory. -/
theorem imemRead_eq_some {s : State} {a : Word} {t : Text} (h : s.imemRead a = some t) :
    0 ≤ a.toInt ∧ a.toInt.toNat < s.imem.length ∧ s.imem[a.toInt.toNat]? = some t := by
  unfold State.imemRead at h
  split at h
  · cases h
  · next hn => exact ⟨by omega, (List.getElem?_eq_some_iff.mp h).1, h⟩

/-! ### The interrupt FIFO -/

@[simp] theorem fifoHasRoom_none (n : Nat) : fifoHasRoom none n = true := rfl
@[simp] theorem fifoHasRoom_some (d n : Nat) : fifoHasRoom (some d) n = decide (n < d) := rfl
@[simp] theorem fifoRequest_unbounded (iq : List Word) (c : Word) : fifoRequest none iq c = iq ++ [c] := rfl

theorem fifoRequest_room {depth : Option Nat} {iq : List Word} {c : Word} (h : fifoHasRoom depth iq.length = true) :
    fifoRequest depth iq c = iq ++ [c] := by
  cases depth with
  | none => rfl
  | some d => simp only [fifoRequest, h, if_true]

theorem keepMarked_sublist (ks : List Bool) (es : List Word) : (keepMarked ks es).Sublist es := by
  induction ks generalizing es with
  | nil => exact List.nil_sublist es
  | cons k ks ih =>
    cases es with
    | nil => exact List.nil_sublist []
    | cons e es =>
      unfold keepMarked
      split
      · exact (ih es).cons_cons e
      · exact (ih es).cons e

/-- What a full FIFO holds after a request: some of the entries and the new one, in order, within the capacity. -/
theorem fullFifo_spec (d : Nat) (iq : List Word) (c : Word) :
    (fullFifo d iq c).Sublist (iq ++ [c]) ∧ (fullFifo d iq c).length ≤ d :=
  ⟨(List.take_sublist ..).trans (keepMarked_sublist ..), List.length_take_le ..⟩

/-- What a request can do to a FIFO. -/
theorem fifoRequest_cases (depth : Option Nat) (iq : List Word) (c : Word) :
    (fifoHasRoom depth iq.length = true ∧ fifoRequest depth iq c = iq ++ [c]) ∨
    (∃ d, depth = some d ∧ d ≤ iq.length ∧ fifoRequest depth iq c = fullFifo d iq c) := by
  cases depth with
  | none => exact .inl ⟨rfl, rfl⟩
  | some d =>
    by_cases h : iq.length < d
    · exact .inl ⟨by simpa using h, fifoRequest_room (by simpa using h)⟩
    · exact .inr ⟨d, rfl, Nat.le_of_not_lt h, by simp [fifoRequest, h]⟩

/-- A request keeps a FIFO within its capacity. -/
theorem fifoRequest_length_le {d : Nat} {iq : List Word} {c : Word} :
    (fifoRequest (some d) iq c).length ≤ d := by
  rcases fifoRequest_cases (some d) iq c with ⟨h, e⟩ | ⟨_, h, -, e⟩
  · simp at h
    simp [e]
    omega
  · cases h
    exact e ▸ (fullFifo_spec d iq c).2

/-- Every entry after a request was there before, or is the new one. -/
theorem mem_fifoRequest {depth : Option Nat} {iq : List Word} {c e : Word} (h : e ∈ fifoRequest depth iq c) :
    e ∈ iq ∨ e = c := by
  have hs : (fifoRequest depth iq c).Sublist (iq ++ [c]) := by
    rcases fifoRequest_cases depth iq c with ⟨-, e⟩ | ⟨d, -, -, e⟩ <;> rw [e]
    exact (fullFifo_spec d iq c).1
  simpa using hs.subset h

/-! ### Devices -/

/-- What a device read that succeeds does: only the device list changes. -/
theorem devRead_eq_some {s t : State} {i : Nat} {v : Word} (h : s.devRead i = some (v, t)) :
    ∃ d, s.devices[i]? = some d ∧ v = (Device.take i d).1 ∧
      t = { s with devices := s.devices.set i (Device.take i d).2 } := by
  unfold State.devRead at h
  split at h
  · cases h
  · next d hd =>
    cases h
    exact ⟨d, hd, rfl, rfl⟩

/-- What a device write that succeeds does: only the device list changes. -/
theorem devWrite_eq_some {s t : State} {i : Nat} {v : Word} (h : s.devWrite i v = some t) :
    ∃ d, s.devices[i]? = some d ∧
      t = { s with devices := s.devices.set i { d with written := d.written ++ [v] } } := by
  unfold State.devWrite at h
  split at h
  · cases h
  · next d hd =>
    cases h
    exact ⟨d, hd, rfl⟩

/-! ### The sequencer -/

/-- The sequencer's reaction to an outcome touches `active`, `upc`, `halted` and `reason` only. -/
theorem applyResult_rest (len : Nat) (r : SigResult) :
    applyResult len r =
      { r.state with
        active := (applyResult len r).active
        upc := (applyResult len r).upc
        halted := (applyResult len r).halted
        reason := (applyResult len r).reason } := by
  cases r with
  | next s => simp only [applyResult, SigResult.state]; split <;> rfl
  | activate k s => rfl
  | clear s => rfl
  | halt c s => rfl

@[simp] theorem runSignals_nil (len : Nat) (s : State) : runSignals len [] s = s := rfl

theorem runSignals_next {len : Nat} {sig : State → SigResult} {rest : List (State → SigResult)} {s t : State}
    (h : sig s = .next t) : runSignals len (sig :: rest) s = runSignals len rest (applyResult len (.next t)) := by
  simp only [runSignals, h]

theorem runSignals_halt {len : Nat} {sig : State → SigResult} {rest : List (State → SigResult)} {s t : State}
    {c : HaltCause} (h : sig s = .halt c t) : runSignals len (sig :: rest) s = raiseHalt c t := by
  simp only [runSignals, h, applyResult]

theorem runSignals_clear {len : Nat} {sig : State → SigResult} {rest : List (State → SigResult)} {s t : State}
    (h : sig s = .clear t) : runSignals len (sig :: rest) s = { t with active := none, upc := 0 } := by
  simp only [runSignals, h, applyResult]

/-- A property of states that every signal and the sequencer keep is kept by a run of signals. -/
theorem runSignals_keeps {P : State → Prop} (len : Nat) (sigs : List (State → SigResult))
    (hsig : ∀ sig ∈ sigs, ∀ u, P u → P (sig u).state) (hseq : ∀ r : SigResult, P r.state → P (applyResult len r))
    {s : State} (hs : P s) : P (runSignals len sigs s) := by
  induction sigs generalizing s with
  | nil => exact hs
  | cons sig rest ih =>
    have h1 := hsig sig List.mem_cons_self s hs
    have hrest := fun g hg => hsig g (List.mem_cons_of_mem _ hg)
    unfold runSignals
    split
    · next t ht => exact ih hrest (hseq (.next t) (by rw [ht] at h1; exact h1))
    all_goals
      next ht => exact hseq _ (by rw [ht] at h1; exact h1)

end Sys2Proof.Machine
end

