-- ==== Sys2Proof/Laws/Signals.lean ====
section
/-! SUPPORT. What each signal can do, once: its cases, and what every signal leaves alone. -/

namespace Sys2Proof.Machine

/-! ### Operands -/

@[simp] theorem needToken_some (i : Nat) (t : Token) (s : State) (k : Token → SigResult) :
    needToken i (some t) s k = k t := rfl
@[simp] theorem needToken_none (i : Nat) (s : State) (k : Token → SigResult) :
    needToken i none s k = .halt (.operandMissing i) s := rfl
@[simp] theorem needField_some (t : Token) (s : State) (k : Token → SigResult) : needField (some t) s k = k t := rfl
@[simp] theorem needField_none (s : State) (k : Token → SigResult) :
    needField none s k = .halt (.operandMissing 0) s := rfl
theorem needInt_some {t : Token} {v : Word} (h : parseInt t = some v) (s : State) (k : Word → SigResult) :
    needInt t s k = k v := by simp [needInt, h]
theorem needInt_none {t : Token} (h : parseInt t = none) (s : State) (k : Word → SigResult) :
    needInt t s k = .halt (.badInteger t) s := by simp [needInt, h]

/-- Each of the three either halts on the state it was given or goes on. -/
theorem needToken_cases (i : Nat) (o : Operand) (s : State) (k : Token → SigResult) :
    needToken i o s k = .halt (.operandMissing i) s ∨ ∃ t, o = some t ∧ needToken i o s k = k t := by
  cases o with
  | none => exact .inl rfl
  | some t => exact .inr ⟨t, rfl, rfl⟩

theorem needField_cases (o : Option Token) (s : State) (k : Token → SigResult) :
    needField o s k = .halt (.operandMissing 0) s ∨ ∃ t, o = some t ∧ needField o s k = k t := by
  cases o with
  | none => exact .inl rfl
  | some t => exact .inr ⟨t, rfl, rfl⟩

theorem needInt_cases (t : Token) (s : State) (k : Word → SigResult) :
    needInt t s k = .halt (.badInteger t) s ∨ ∃ v, parseInt t = some v ∧ needInt t s k = k v := by
  cases h : parseInt t with
  | none => exact .inl (needInt_none h s k)
  | some v => exact .inr ⟨v, rfl, needInt_some h s k⟩

/-! ### Conditional jumps -/

theorem condJump_empty {s : State} (taken : Word → Bool) (t : Operand) (h : s.iq = []) :
    condJump taken t s = .next s := by simp [condJump, h]

theorem condJump_taken {s : State} {taken : Word → Bool} {e : Word} {rest : List Word} (t : Operand)
    (h : s.iq = e :: rest) (ht : taken e = true) : condJump taken t s = jumpInline t { s with iq := rest } := by
  simp [condJump, h, ht, popTested]

theorem condJump_untaken {s : State} {taken : Word → Bool} {e : Word} {rest : List Word} (t : Operand)
    (h : s.iq = e :: rest) (ht : taken e = false) : condJump taken t s = .next (popTested false rest s) := by
  simp [condJump, h, ht]

/-! ### What no signal's effects touch -/

/-- What the sequencer alone writes, and what only events from outside write: no signal rule touches them. -/
structure SameOutside (s t : State) : Prop where
  active : t.active = s.active
  upc : t.upc = s.upc
  halted : t.halted = s.halted
  reason : t.reason = s.reason
  params : t.params = s.params
  imem : t.imem = s.imem

theorem SameOutside.refl (s : State) : SameOutside s s := ⟨rfl, rfl, rfl, rfl, rfl, rfl⟩

theorem needToken_same {i : Nat} {o : Operand} {s : State} {k : Token → SigResult}
    (h : ∀ t, SameOutside s (k t).state) : SameOutside s (needToken i o s k).state := by
  cases o with
  | none => exact .refl s
  | some t => exact h t

theorem needField_same {o : Option Token} {s : State} {k : Token → SigResult}
    (h : ∀ t, SameOutside s (k t).state) : SameOutside s (needField o s k).state := by
  cases o with
  | none => exact .refl s
  | some t => exact h t

theorem needInt_same {t : Token} {s : State} {k : Word → SigResult}
    (h : ∀ v, SameOutside s (k v).state) : SameOutside s (needInt t s k).state := by
  rcases needInt_cases t s k with e | ⟨v, -, e⟩ <;> rw [e]
  · exact .refl s
  · exact h v

theorem aluToMbr_same (op : AluOp) (a b : Word) (s : State) : SameOutside s (aluToMbr op a b s).state := by
  unfold aluToMbr
  split <;> exact ⟨rfl, rfl, rfl, rfl, rfl, rfl⟩

theorem aluBinary_same (op : AluOp) (s : State) : SameOutside s (aluBinary op s).state :=
  needField_same fun _ => needField_same fun _ => aluToMbr_same ..

theorem popTested_same (taken : Bool) (rest : List Word) (s : State) : SameOutside s (popTested taken rest s) := by
  unfold popTested
  split <;> exact ⟨rfl, rfl, rfl, rfl, rfl, rfl⟩

theorem SameOutside.trans {s t u : State} (h : SameOutside s t) (g : SameOutside t u) : SameOutside s u :=
  ⟨g.1.trans h.1, g.2.trans h.2, g.3.trans h.3, g.4.trans h.4, g.5.trans h.5, g.6.trans h.6⟩

theorem addressToPc_same (s : State) : SameOutside s (addressToPc s).state :=
  needField_same fun _ => needInt_same fun _ => ⟨rfl, rfl, rfl, rfl, rfl, rfl⟩

theorem jumpInline_same (t : Operand) (s : State) : SameOutside s (jumpInline t s).state := by
  cases t with
  | none => exact .refl s
  | some t =>
    have h : SameOutside s { s with op1 := some t } := ⟨rfl, rfl, rfl, rfl, rfl, rfl⟩
    exact h.trans (addressToPc_same _)

theorem condJump_same (taken : Word → Bool) (t : Operand) (s : State) : SameOutside s (condJump taken t s).state := by
  unfold condJump
  split
  · exact .refl s
  · split
    · exact (popTested_same ..).trans (jumpInline_same ..)
    · exact popTested_same ..

/-- No signal rule touches the sequencer's state, the halt, the parameters or the program. -/
theorem perform_same (sig : Signal) (s : State) : SameOutside s (perform sig s).state := by
  cases sig <;> simp only [perform]
  case memReadPcInc =>
    unfold memReadPcInc
    split
    · exact .refl s
    · split <;> exact ⟨rfl, rfl, rfl, rfl, rfl, rfl⟩
  case decode => unfold decodeSignal; split <;> exact .refl s
  case memDataReadMbrIn => unfold memDataReadMbrIn; split <;> exact ⟨rfl, rfl, rfl, rfl, rfl, rfl⟩
  case mbrOutMemDataWrite =>
    unfold mbrOutMemDataWrite
    split
    · exact .refl s
    · next h => obtain ⟨k, -, rfl⟩ := memWrite_eq_some h; exact ⟨rfl, rfl, rfl, rfl, rfl, rfl⟩
  case accToBusWriteToDevice1 =>
    unfold accToBusWriteToDevice1
    split
    · exact .refl s
    · next h => obtain ⟨d, -, rfl⟩ := devWrite_eq_some h; exact ⟨rfl, rfl, rfl, rfl, rfl, rfl⟩
  case readFromDevice0BusToAcc =>
    unfold readFromDevice0BusToAcc
    split
    · exact .refl s
    · next h => obtain ⟨d, -, -, rfl⟩ := devRead_eq_some h; exact ⟨rfl, rfl, rfl, rfl, rfl, rfl⟩
  case condJumpIfZero => exact condJump_same ..
  case condJumpIfNotZero => exact condJump_same ..
  case addressToPc => exact addressToPc_same s
  case aluAdd => exact aluBinary_same .add s
  case aluSub => exact aluBinary_same .sub s
  case aluMul => exact aluBinary_same .mul s
  case aluDiv => exact aluBinary_same .div s
  case aluAnd => exact aluBinary_same .and s
  case aluOr => exact aluBinary_same .or s
  case aluXor => exact aluBinary_same .xor s
  case aluNot => exact needField_same fun _ => aluToMbr_same ..
  case decodeOperandsRRR =>
    exact needToken_same fun _ => needToken_same fun _ => needToken_same fun _ => ⟨rfl, rfl, rfl, rfl, rfl, rfl⟩
  case decodeOperandsRR => exact needToken_same fun _ => needToken_same fun _ => ⟨rfl, rfl, rfl, rfl, rfl, rfl⟩
  case decodeOperandsRImm => exact needToken_same fun _ => needToken_same fun _ => ⟨rfl, rfl, rfl, rfl, rfl, rfl⟩
  case decodeOperandsRRdest => exact needToken_same fun _ => needToken_same fun _ => ⟨rfl, rfl, rfl, rfl, rfl, rfl⟩
  case decodeOperandAddr => exact needToken_same fun _ => ⟨rfl, rfl, rfl, rfl, rfl, rfl⟩
  case mbrOutRegDestIn => exact needField_same fun _ => ⟨rfl, rfl, rfl, rfl, rfl, rfl⟩
  case immediateToMbr => exact needField_same fun _ => needInt_same fun _ => ⟨rfl, rfl, rfl, rfl, rfl, rfl⟩
  case reg1ToMbr => exact needToken_same fun _ => ⟨rfl, rfl, rfl, rfl, rfl, rfl⟩
  case addressToMar => exact needField_same fun _ => needInt_same fun _ => ⟨rfl, rfl, rfl, rfl, rfl, rfl⟩
  case aluCmpInterruptRequest => exact needField_same fun _ => needField_same fun _ => ⟨rfl, rfl, rfl, rfl, rfl, rfl⟩
  all_goals exact ⟨rfl, rfl, rfl, rfl, rfl, rfl⟩

end Sys2Proof.Machine
end

