-- ==== Sys2Proof/Laws/Micro.lean ====
section
/-! SUPPORT. What the event `Step` can do, once (40_microengine.md R100 to R102), and runs of it. -/

namespace Sys2Proof.Machine

/-- The signal at the cursor: its key is in the control store and the cursor is inside the microprogram. -/
theorem currentSignal_eq_ok {s : State} {len : Nat} {sig : Signal} (h : s.currentSignal = .ok (len, sig)) :
    ∃ k, s.active = some k ∧ k.present s.params.logicExt = true ∧ len = (microprogram k).length ∧
      (microprogram k)[s.upc]? = some sig := by
  unfold State.currentSignal at h
  split at h
  · cases h
  · next k hk =>
    split at h
    · cases h
    · next sigs hs =>
      unfold controlStore at hs
      split at hs
      · next hp =>
        cases hs
        split at h
        · cases h
        · next sig' hsig =>
          cases h
          exact ⟨k, hk, hp, rfl, hsig⟩
      · cases hs

theorem currentSignal_of {s : State} {k : Key} {sig : Signal} (hk : s.active = some k)
    (hp : k.present s.params.logicExt = true) (hsig : (microprogram k)[s.upc]? = some sig) :
    s.currentSignal = .ok ((microprogram k).length, sig) := by
  simp [State.currentSignal, hk, controlStore, hp, hsig]

/-- Everything a `Step` that answers a next state can have done. -/
theorem signalStep_cases {s t : State} (h : signalStep s = .next t) :
    (s.halted = true ∧ t = s) ∨
    (s.halted = false ∧ ∃ (k : Key) (sig : Signal),
      s.activateFetch.active = some k ∧ k.present s.activateFetch.params.logicExt = true ∧
      (microprogram k)[s.activateFetch.upc]? = some sig ∧
      t = applyResult (microprogram k).length (perform sig s.activateFetch)) := by
  unfold signalStep at h
  split at h
  · next hh => cases h; exact .inl ⟨hh, rfl⟩
  · next hh =>
    split at h
    · cases h
    · next len sig hc =>
      obtain ⟨k, hk, hp, rfl, hsig⟩ := currentSignal_eq_ok hc
      cases h
      exact .inr ⟨by simpa using hh, k, sig, hk, hp, hsig, rfl⟩

/-- A `Step` of a running machine whose cursor names a signal performs that signal. -/
theorem signalStep_of {s : State} {k : Key} {sig : Signal} (hh : s.halted = false)
    (hk : s.activateFetch.active = some k) (hp : k.present s.activateFetch.params.logicExt = true)
    (hsig : (microprogram k)[s.activateFetch.upc]? = some sig) :
    signalStep s = .next (applyResult (microprogram k).length (perform sig s.activateFetch)) := by
  simp [signalStep, hh, currentSignal_of hk hp hsig]

theorem signalStep_halted {s : State} (h : s.halted = true) : signalStep s = .next s := by
  simp [signalStep, h]

@[simp] theorem signalSteps_zero (s : State) : signalSteps 0 s = .next s := rfl

theorem signalSteps_succ {n : Nat} {s t : State} (h : signalStep s = .next t) :
    signalSteps (n + 1) s = signalSteps n t := by
  simp [signalSteps, h]

/-- A run of `n + m` steps is a run of `n` and then one of `m`. -/
theorem signalSteps_add {n m : Nat} {s t : State} (h : signalSteps n s = .next t) :
    signalSteps (n + m) s = signalSteps m t := by
  induction n generalizing s with
  | zero => cases h; simp
  | succ n ih =>
    rw [Nat.succ_add]
    cases hs : signalStep s with
    | next u =>
      rw [signalSteps_succ hs] at h
      rw [signalSteps_succ hs]
      exact ih h
    | fault f => simp [signalSteps, hs] at h
    | refused r => simp [signalSteps, hs] at h

/-- Between two instructions a `Step` starts as FETCH at its first signal. -/
theorem activateFetch_of_boundary {s : State} (h : s.atBoundary = true) : s.activateFetch = s.activated .fetch := by
  unfold State.atBoundary at h
  unfold State.activateFetch State.activated
  cases ha : s.active with
  | none => rfl
  | some k =>
    rw [ha] at h
    simp only [Bool.and_eq_true, beq_iff_eq] at h
    obtain ⟨rfl, hu⟩ := h
    cases s
    simp_all

/-- Inside a microprogram a `Step` performs the signal at the cursor. -/
theorem activateFetch_of_active {s : State} {k : Key} (h : s.active = some k) : s.activateFetch = s := by
  simp [State.activateFetch, h]

end Sys2Proof.Machine
end

