-- ==== Sys2Proof/Laws/Fetch.lean ====
section
/-! SUPPORT. What the fetch and the decoder can do, once (40_microengine.md R107 to R110). -/

namespace Sys2Proof.Machine

/-- The fetch of a line with a token. -/
theorem memReadPcInc_line {s : State} {t : Text} (h : s.imemRead s.mar = some t) (hb : isBlank t = false) :
    memReadPcInc s = .next { s with mbr := Config.fetchDigest t, ir := t, pc := s.pc + 1 } := by
  simp [memReadPcInc, h, hb]

/-- The fetch of an absent or blank line. -/
theorem memReadPcInc_end {s : State} (h : s.imemRead s.mar = none ∨ ∃ t, s.imemRead s.mar = some t ∧ isBlank t = true) :
    memReadPcInc s = .halt (.endOfProgram s.mar) s := by
  rcases h with h | ⟨t, h, hb⟩
  · simp [memReadPcInc, h]
  · simp [memReadPcInc, h, hb]

theorem decode_of_blank {le : Bool} {t : Text} (h : isBlank t = true) : decode le t = .blank := by
  simp only [isBlank, List.isEmpty_iff] at h
  simp [decode, h]

theorem isBlank_of_decode {le : Bool} {t : Text} {i : Instr} (h : decode le t = .instr i) : isBlank t = false := by
  by_contra hb
  rw [decode_of_blank (by simpa using hb)] at h
  cases h

/-- A key the lookup finds is in the control store and is named by the mnemonic. -/
theorem lookupKey_eq_some {le : Bool} {m : Token} {k : Key} (h : lookupKey le m = some k) :
    k.name = m ∧ k.present le = true := by
  simpa [Bool.and_eq_true] using List.find?_some h

/-- No two keys have the same name. -/
theorem keyName_injective {j k : Key} (h : j.name = k.name) : j = k := by
  revert h; cases j <;> cases k <;> decide

theorem mem_allKeys (k : Key) : k ∈ Key.all := by cases k <;> decide

/-- The lookup finds every key of the control store by its name. -/
theorem lookupKey_name {le : Bool} {k : Key} (h : k.present le = true) : lookupKey le k.name = some k := by
  unfold lookupKey
  cases hf : Key.all.find? (fun j => j.name == k.name && j.present le) with
  | none => exact absurd (List.find?_eq_none.mp hf k (mem_allKeys k)) (by simp [h])
  | some j =>
    have := List.find?_some hf
    simp only [Bool.and_eq_true, beq_iff_eq] at this
    rw [keyName_injective this.1]

/-- A mnemonic that names no key of the control store is not found. -/
theorem lookupKey_eq_none {le : Bool} {m : Token} (h : ∀ k : Key, k.present le = true → k.name ≠ m) :
    lookupKey le m = none := by
  simp only [lookupKey, List.find?_eq_none, Bool.and_eq_true, beq_iff_eq, not_and]
  exact fun k _ hn hp => h k hp hn

/-- The instruction a key and tokens make has that key. -/
@[simp] theorem key_instr (k : Key) (ts : List Token) : (k.instr ts).key = k := by cases k <;> rfl

/-- What a text that decodes to an instruction is: its first token is the key's name, and the operands are its tokens. -/
theorem decode_eq_instr {le : Bool} {t : Text} {i : Instr} (h : decode le t = .instr i) :
    (tokens t).head? = some i.key.name ∧ i.key.present le = true ∧ i = i.key.instr (tokens t) := by
  unfold decode at h
  split at h
  · cases h
  · next m rest ht =>
    split at h
    · next k hk =>
      cases h
      obtain ⟨hn, hp⟩ := lookupKey_eq_some hk
      rw [key_instr, ht]
      exact ⟨by simp [hn], hp, rfl⟩
    · cases h

/-- FETCH is in every control store. -/
theorem present_fetch (le : Bool) : Key.present le .fetch = true := by cases le <;> decide

/-- The first three signals of FETCH on a line with a token, as one. -/
theorem fetchLine_line {s : State} {t : Text} (h : s.imemRead s.pc = some t) (hb : isBlank t = false) :
    fetchLine s = s.fetched t := by
  have hm := memReadPcInc_line (s := { s with mar := s.pc, active := some .fetch, upc := 1 }) h hb
  change runSignals 4 [memReadPcInc, mbrOutIrIn] { s with mar := s.pc, active := some .fetch, upc := 1 } = _
  rw [runSignals_next hm]
  rfl

/-- The first three signals of FETCH on an absent or blank line: a halt at the second. -/
theorem fetchLine_end {s : State} (h : s.imemRead s.pc = none ∨ ∃ t, s.imemRead s.pc = some t ∧ isBlank t = true) :
    fetchLine s = { s with mar := s.pc }.haltedIn .fetch 1 (.endOfProgram s.pc) := by
  have hm := memReadPcInc_end (s := { s with mar := s.pc, active := some .fetch, upc := 1 }) h
  change runSignals 4 [memReadPcInc, mbrOutIrIn] { s with mar := s.pc, active := some .fetch, upc := 1 } = _
  rw [runSignals_halt hm]
  rfl

end Sys2Proof.Machine
end

