-- ==== Sys2Proof/Laws/PerInstr.lean ====
section
/-! SUPPORT. The family `Rebuild` of lemmas, one per constructor of `Instr`: the key of an instruction and the tokens of its
text make the instruction again, whatever tokens follow (30_encoding.md R85, R86). -/

namespace Sys2Proof.Laws.Rebuild

open Sys2Proof

/-- An instruction none of whose operands is missing is what its key makes of its operand tokens, extra tokens ignored. -/
def Statement (i : Instr) : Prop :=
  ∀ ops extra : List Token, i.operands = ops.map some → i.key.instr (i.key.name :: (ops ++ extra)) = i

/-- The operand tokens of an operand list of length 0 to 3. -/
theorem map_some_zero {ops : List Token} (h : [] = ops.map some) : ops = [] := by simpa using h.symm

theorem map_some_one {a : Operand} {ops : List Token} (h : [a] = ops.map some) : ∃ x, a = some x ∧ ops = [x] := by
  rcases ops with _ | ⟨x, _ | ⟨y, l⟩⟩ <;> simp_all

theorem map_some_two {a b : Operand} {ops : List Token} (h : [a, b] = ops.map some) :
    ∃ x y, a = some x ∧ b = some y ∧ ops = [x, y] := by
  rcases ops with _ | ⟨x, _ | ⟨y, _ | ⟨z, l⟩⟩⟩ <;> simp_all

theorem map_some_three {a b c : Operand} {ops : List Token} (h : [a, b, c] = ops.map some) :
    ∃ x y z, a = some x ∧ b = some y ∧ c = some z ∧ ops = [x, y, z] := by
  rcases ops with _ | ⟨x, _ | ⟨y, _ | ⟨z, _ | ⟨w, l⟩⟩⟩⟩ <;> simp_all

theorem add (a b d : Operand) : Statement (.add a b d) := by
  intro ops extra h; obtain ⟨x, y, z, rfl, rfl, rfl, rfl⟩ := map_some_three h; rfl

theorem sub (a b d : Operand) : Statement (.sub a b d) := by
  intro ops extra h; obtain ⟨x, y, z, rfl, rfl, rfl, rfl⟩ := map_some_three h; rfl

theorem mul (a b d : Operand) : Statement (.mul a b d) := by
  intro ops extra h; obtain ⟨x, y, z, rfl, rfl, rfl, rfl⟩ := map_some_three h; rfl

theorem div (a b d : Operand) : Statement (.div a b d) := by
  intro ops extra h; obtain ⟨x, y, z, rfl, rfl, rfl, rfl⟩ := map_some_three h; rfl

theorem and (a b d : Operand) : Statement (.and a b d) := by
  intro ops extra h; obtain ⟨x, y, z, rfl, rfl, rfl, rfl⟩ := map_some_three h; rfl

theorem or (a b d : Operand) : Statement (.or a b d) := by
  intro ops extra h; obtain ⟨x, y, z, rfl, rfl, rfl, rfl⟩ := map_some_three h; rfl

theorem xor (a b d : Operand) : Statement (.xor a b d) := by
  intro ops extra h; obtain ⟨x, y, z, rfl, rfl, rfl, rfl⟩ := map_some_three h; rfl

theorem not (src dst : Operand) : Statement (.not src dst) := by
  intro ops extra h; obtain ⟨x, y, rfl, rfl, rfl⟩ := map_some_two h; rfl

theorem movImm (dst imm : Operand) : Statement (.movImm dst imm) := by
  intro ops extra h; obtain ⟨x, y, rfl, rfl, rfl⟩ := map_some_two h; rfl

theorem movReg (src dst : Operand) : Statement (.movReg src dst) := by
  intro ops extra h; obtain ⟨x, y, rfl, rfl, rfl⟩ := map_some_two h; rfl

theorem load (dst addr : Operand) : Statement (.load dst addr) := by
  intro ops extra h; obtain ⟨x, y, rfl, rfl, rfl⟩ := map_some_two h; rfl

theorem store (src addr : Operand) : Statement (.store src addr) := by
  intro ops extra h; obtain ⟨x, y, rfl, rfl, rfl⟩ := map_some_two h; rfl

theorem inputChar : Statement .inputChar := by
  intro ops extra h; cases map_some_zero h; rfl

theorem outputChar : Statement .outputChar := by
  intro ops extra h; cases map_some_zero h; rfl

theorem jmp (target : Operand) : Statement (.jmp target) := by
  intro ops extra h; obtain ⟨x, rfl, rfl⟩ := map_some_one h; rfl

theorem cmp (a b : Operand) : Statement (.cmp a b) := by
  intro ops extra h; obtain ⟨x, y, rfl, rfl, rfl⟩ := map_some_two h; rfl

theorem je (target : Operand) : Statement (.je target) := by
  intro ops extra h; obtain ⟨x, rfl, rfl⟩ := map_some_one h; rfl

theorem jne (target : Operand) : Statement (.jne target) := by
  intro ops extra h; obtain ⟨x, rfl, rfl⟩ := map_some_one h; rfl

theorem hlt : Statement .hlt := by
  intro ops extra h; cases map_some_zero h; rfl

theorem fetch : Statement .fetch := by
  intro ops extra h; cases map_some_zero h; rfl

end Sys2Proof.Laws.Rebuild
end

