-- ==== Sys2Proof/Tests/Slice0.lean ====
section
/-! SUPPORT. Tests of the model against the spec's own examples and vectors (95_test_vectors.md, whose ids the comments name)
and against the rules' examples; the smoke test of WellFormed; the words of the encodings written out by character code. -/

namespace Sys2Proof.Tests

open Sys2Proof.Machine

/-- A test machine: 16 cells, two devices, registers R1 and R2 holding `a` and `b`, `t` as the next instruction. -/
def machine (a b : Int) (t : String) : State :=
  { State.reset with
    regs := (RegFile.write [] "R1".toList ⟨BitVec.ofInt 32 a, []⟩).write "R2".toList ⟨BitVec.ofInt 32 b, []⟩
    imem := [t.toList] }

/-- One field of the state after one step. -/
def after {α : Type} (s : State) (f : State → α) : Option α :=
  match step s with
  | .next s' => some (f s')
  | .fault _ => none
  | .refused _ => none

/-- A register after one step. -/
def regAfter (s : State) (n : String) : Option Word := after s (fun t => t.readReg n.toList)

/-- Z, C, S, V after one step. -/
def flagsAfter (s : State) : Option (Bool × Bool × Bool × Bool) :=
  after s (fun t => (t.flags.z, t.flags.c, t.flags.s, t.flags.v))

/-- The halt cause after one step. -/
def reasonAfter (s : State) : Option (Option HaltCause) := after s State.reason

/-! ### WellFormed (R82, R86) -/

theorem test_wf_accepts : (Instr.add (some ['A']) (some ['B']) (some ['C'])).wellFormed = true := by decide
theorem test_wf_refuses_missing : (Instr.add (some ['A']) (some ['B']) none).wellFormed = false := by decide
theorem test_wf_refuses_empty_token : (Instr.jmp (some [])).wellFormed = false := by decide
theorem test_wf_refuses_space : (Instr.jmp (some ['1', ' '])).wellFormed = false := by decide
theorem test_literals_accept : (Instr.jmp (some "-3".toList)).literalsOk = true := by decide
theorem test_literals_refuse : (Instr.movImm (some ['R']) (some "0x10".toList)).literalsOk = false := by decide

/-! ### Text: V-T -/

theorem test_tokens_spaces :
    tokens "  MOV_IMM\tR1   +7  ".toList = ["MOV_IMM".toList, "R1".toList, "+7".toList] := by decide
theorem test_tokens_blank : tokens "   \t ".toList = [] := by decide
theorem test_parse_int_min : parseInt "-2147483648".toList = some (BitVec.ofInt 32 (-2147483648)) := by decide
theorem test_parse_int_past_max : parseInt "2147483648".toList = none := by decide
theorem test_parse_leading_zeros : parseInt "007".toList = some 7 := by decide
theorem test_parse_sign_only : parseInt "+".toList = none := by decide
theorem test_int_text : intText (-120) = "-120".toList := by decide

/-! ### Decoding: the words by character code, first character lowest (R80, R88) -/

theorem test_word_add : decodeTableWord 72 0x642062206120444441 = some (.add (some ['a']) (some ['b']) (some ['d'])) := by decide
theorem test_word_sub : decodeTableWord 72 0x642062206120425553 = some (.sub (some ['a']) (some ['b']) (some ['d'])) := by decide
theorem test_word_mul : decodeTableWord 72 0x6420622061204c554d = some (.mul (some ['a']) (some ['b']) (some ['d'])) := by decide
theorem test_word_div : decodeTableWord 72 0x642062206120564944 = some (.div (some ['a']) (some ['b']) (some ['d'])) := by decide
theorem test_word_and : decodeTableWord 72 0x642062206120444e41 = some (.and (some ['a']) (some ['b']) (some ['d'])) := by decide
theorem test_word_or : decodeTableWord 64 0x642062206120524f = some (.or (some ['a']) (some ['b']) (some ['d'])) := by decide
theorem test_word_xor : decodeTableWord 72 0x642062206120524f58 = some (.xor (some ['a']) (some ['b']) (some ['d'])) := by decide
theorem test_word_not : decodeTableWord 56 0x64207320544f4e = some (.not (some ['s']) (some ['d'])) := by decide
theorem test_word_mov_imm : decodeTableWord 88 0x352064204d4d495f564f4d = some (.movImm (some ['d']) (some ['5'])) := by decide
theorem test_word_mov_reg : decodeTableWord 88 0x642073204745525f564f4d = some (.movReg (some ['s']) (some ['d'])) := by decide
theorem test_word_load : decodeTableWord 64 0x3920642044414f4c = some (.load (some ['d']) (some ['9'])) := by decide
theorem test_word_store : decodeTableWord 72 0x3920732045524f5453 = some (.store (some ['s']) (some ['9'])) := by decide
theorem test_word_input_char : decodeTableWord 80 0x524148435f5455504e49 = some (.inputChar) := by decide
theorem test_word_output_char : decodeTableWord 88 0x524148435f54555054554f = some (.outputChar) := by decide
theorem test_word_jmp : decodeTableWord 40 0x3220504d4a = some (.jmp (some ['2'])) := by decide
theorem test_word_cmp : decodeTableWord 56 0x62206120504d43 = some (.cmp (some ['a']) (some ['b'])) := by decide
theorem test_word_je : decodeTableWord 32 0x3620454a = some (.je (some ['6'])) := by decide
theorem test_word_jne : decodeTableWord 40 0x3320454e4a = some (.jne (some ['3'])) := by decide
theorem test_word_hlt : decodeTableWord 24 0x544c48 = some (.hlt) := by decide
theorem test_word_fetch : decodeTableWord 40 0x4843544546 = some (.fetch) := by decide
theorem test_word_lower_case_refused : decodeTableWord 72 0x642062206120646461 = none := by decide
theorem test_word_extra_token_ignored : decodeTableWord 56 0x33203220504d4a = some (.jmp (some ['2'])) := by decide
theorem test_decode_missing_operand : decode true "ADD R1 R2".toList =
    .instr (.add (some "R1".toList) (some "R2".toList) none) := by decide
theorem test_decode_comment : decode true "// a comment".toList = .unrecognized "//".toList := by decide
theorem test_decode_without_logic_ext : decode false "AND a b d".toList = .unrecognized "AND".toList := by decide
theorem test_encode_store : encode (.store (some "R1".toList) (some "10".toList)) = "STORE R1 10".toList := by decide

/-! ### Arithmetic and logic: V-ADD to V-LOGIC, V-AL -/

theorem test_add_result : regAfter (machine 5 3 "ADD R1 R2 R3") "R3" = some 8 := by decide
theorem test_add_flags :
    flagsAfter (machine 2147483647 1 "ADD R1 R2 R3") = some (false, false, true, true) ∧
    flagsAfter (machine (-1) 1 "ADD R1 R2 R3") = some (true, false, false, false) := by decide
theorem test_sub_result : regAfter (machine 1 2 "SUB R1 R2 R1") "R1" = some (-1) := by decide
theorem test_sub_flags : flagsAfter (machine 1 2 "SUB R1 R2 R3") = some (false, true, true, false) := by decide
theorem test_mul_result : regAfter (machine 46341 46341 "MUL R1 R2 R3") "R3" = some (BitVec.ofInt 32 (-2147479015)) := by
  decide
theorem test_mul_flags : flagsAfter (machine (-65536) 65536 "MUL R1 R2 R3") = some (true, false, false, true) := by decide
theorem test_div_results :
    regAfter (machine (-7) 2 "DIV R1 R2 R3") "R3" = some (-3) ∧
    flagsAfter (machine (-2147483648) (-1) "DIV R1 R2 R3") = some (false, false, true, true) := by decide
theorem test_div_by_zero : after (machine 7 0 "DIV R1 R2 R3") (fun t => (t.reason, t.active, t.upc)) =
    some (some .divByZero, some .div, 1) := by decide
theorem test_and_result : regAfter (machine 12 10 "AND R1 R2 R3") "R3" = some 8 := by decide
theorem test_or_result : regAfter (machine 12 10 "OR R1 R2 R3") "R3" = some 14 := by decide
theorem test_xor_result : regAfter (machine 12 10 "XOR R1 R2 R3") "R3" = some 6 := by decide
theorem test_xor_flags : flagsAfter (machine 7 7 "XOR R1 R2 R1") = some (true, false, false, false) := by decide
theorem test_not_source_first : regAfter (machine 7 0 "NOT R1 R2") "R2" = some (-8) := by decide
theorem test_missing_operand : after (machine 5 3 "ADD R1 R2") (fun t => (t.reason, t.op1, t.upc, t.active)) =
    some (some (.operandMissing 3), none, 0, some .add) := by decide

/-! ### Data transfer: V-DT -/

theorem test_mov_imm_min : regAfter (machine 0 0 "MOV_IMM R3 -2147483648") "R3" = some (BitVec.ofInt 32 (-2147483648)) := by
  decide
theorem test_mov_imm_bad : after (machine 0 0 "MOV_IMM R3 x") (fun t => (t.reason, t.dest, t.upc)) =
    some (some (.badInteger ['x']), some "R3".toList, 1) := by decide
theorem test_mov_reg_source_first : regAfter (machine 42 7 "MOV_REG R1 R2") "R2" = some 42 := by decide
theorem test_load_unwritten_cell : after (machine 5 0 "LOAD R1 15") (fun t => (t.readReg "R1".toList, t.mar)) =
    some (0, 15) := by decide
theorem test_load_past_end : after (machine 5 0 "LOAD R1 16") (fun t => (t.reason, t.mar, t.upc)) =
    some (some (.memOutOfRange 16), 16, 2) := by decide
theorem test_store_cell : after (machine 42 0 "STORE R1 10") (fun t => (t.mem, t.mbr)) = some ([(10, 42)], 42) := by decide
theorem test_store_negative : after (machine 3 0 "STORE R1 -1") (fun t => (t.reason, t.mbr, t.mem, t.upc)) =
    some (some (.memOutOfRange (-1)), 3, [], 3) := by decide

/-! ### Devices: V-IO -/

theorem test_input_supplied : regAfter ((machine 0 0 "INPUT_CHAR").deviceSupply 0 72) "ACC" = some 72 := by decide
theorem test_input_no_device : reasonAfter { machine 0 0 "INPUT_CHAR" with devices := [] } = some (some (.noDevice 0)) := by
  decide
theorem test_output_unwritten_acc :
    after (machine 0 0 "OUTPUT_CHAR") (fun t => t.devices.map Device.written) = some [[], [0]] := by decide
theorem test_output_one_device :
    reasonAfter { machine 0 0 "OUTPUT_CHAR" with devices := [Device.fresh] } = some (some (.noDevice 1)) := by decide

/-! ### Control flow: V-CJ, V-J, V-H -/

theorem test_jmp_absolute : after (machine 0 0 "JMP -3") (fun t => (t.pc, t.active)) = some (-3, none) := by decide
theorem test_jmp_bad : after (machine 0 0 "JMP x") (fun t => (t.reason, t.pc)) = some (some (.badInteger ['x']), 1) := by
  decide
theorem test_cmp_no_wrap : after (machine (-2147483648) 1 "CMP R1 R2") State.iq = some [-1] := by decide
theorem test_je_taken_pops_one : after { machine 0 0 "JE 6" with iq := [0, 1] } (fun t => (t.pc, t.iq)) =
    some (6, [1]) := by decide
theorem test_je_not_taken_pops : after { machine 0 0 "JE zz" with iq := [1, 0] } (fun t => (t.pc, t.iq, t.halted)) =
    some (1, [0], false) := by decide
theorem test_jne_nothing_pending : after (machine 0 0 "JNE 3") (fun t => (t.pc, t.iq)) = some (1, []) := by decide
theorem test_jne_bad_target_popped : after { machine 0 0 "JNE zz" with iq := [1] } (fun t => (t.reason, t.iq, t.op1)) =
    some (some (.badInteger "zz".toList), [], some "zz".toList) := by decide
theorem test_hlt : after (machine 0 0 "HLT now please") (fun t => (t.reason, t.pc, t.active, t.upc)) =
    some (some .hltOk, 1, some .hlt, 0) := by decide
theorem test_fetch_is_a_no_operation : after (machine 0 0 "FETCH") (fun t => (t.active, t.upc, t.pc, t.halted)) =
    some (some .fetch, 0, 1, false) := by decide
theorem test_blank_line_ends : after (machine 0 0 "   ") (fun t => (t.reason, t.pc, t.ir, t.upc)) =
    some (some (.endOfProgram 0), 0, [], 1) := by decide
theorem test_wrong_case : after (machine 0 0 "add R1 R2 R3") (fun t => (t.reason, t.active, t.upc)) =
    some (some (.unrecognizedInstruction "add".toList), some .fetch, 3) := by decide
theorem test_empty_program_two_steps : (match signalSteps 2 State.reset with
    | .next t => t.reason
    | .fault _ => none
    | .refused _ => none) = some (.endOfProgram 0) := by decide
theorem test_jmp_trace : signalTrace 6 (machine 0 0 "JMP 2") =
    ["PC_out,MAR_in".toList, "Mem_read,PC_inc".toList, "MBR_out,IR_in".toList, "Decode".toList,
      "Decode_Operand_Addr".toList, "Address_to_PC".toList] := by decide
theorem test_reload_keeps_memory : (loadProgram [] { State.reset with mem := [(3, 42)], pc := 6 }).mem = [(3, 42)] := by
  decide
theorem test_reason_text : haltText (.memOutOfRange (-1)) = "memory address out of range: -1".toList := by decide

/-! ### Witnesses: for every statement with hypotheses, a concrete state and operands that meet them together -/

/-- A fetch line between two instructions. -/
def ready : State := machine 5 3 "ADD R1 R2 R3"

/-- The same machine after the first signal of FETCH. -/
def fetching : State := { ready with active := some .fetch, upc := 1 }

/-- A machine inside ADD, its decode signal done, with pending entries and the first and the last cell in use. -/
def busy : State :=
  { machine 5 3 "ADD R1 R2 R3" with
    pc := 1
    ir := "ADD R1 R2 R3".toList
    active := some .add
    upc := 1
    op1 := some "R1".toList
    op2 := some "R2".toList
    dest := some "R3".toList
    iq := [1, 0, -1]
    mem := [(0, 7), (15, -1)] }

/-- A machine that HLT has halted. -/
def stopped : State := { busy with active := some .hlt, upc := 0, ir := "HLT".toList, halted := true, reason := some .hltOk }

theorem witness_inv_ready : ready.Inv :=
  ⟨⟨show 16 ≤ 2 ^ 31 by norm_num, show 1 < 2 ^ 31 by norm_num⟩, ⟨by decide, by decide⟩, by decide, rfl, trivial, trivial,
    ⟨nofun, nofun⟩, rfl⟩

theorem witness_inv_fetching : fetching.Inv :=
  ⟨⟨show 16 ≤ 2 ^ 31 by norm_num, show 1 < 2 ^ 31 by norm_num⟩, ⟨by decide, by decide⟩, by decide,
    ⟨by decide, by decide⟩, fun _ => trivial, ⟨fun _ => rfl, fun h => absurd h (by decide)⟩, ⟨nofun, nofun⟩, rfl⟩

theorem witness_inv_busy : busy.Inv :=
  ⟨⟨show 16 ≤ 2 ^ 31 by norm_num, show 1 < 2 ^ 31 by norm_num⟩, ⟨by decide, by decide⟩, by decide,
    ⟨by decide, by decide⟩, fun _ => ⟨rfl, rfl, rfl, by decide, by decide, by decide⟩, show (tokens "ADD R1 R2 R3".toList).head? = some (Key.name .add) by decide,
    ⟨show ∀ e ∈ ([1, 0, -1] : List Word), e = -1 ∨ e = 0 ∨ e = 1 by simp, nofun⟩, rfl⟩

/-- `HaltedMachineStaysAsItIs`. -/
theorem witness_halted : stopped.halted = true := rfl

/-- `StepRunsTheDecodedInstruction`, `FourSignalsFetchAndActivate`. -/
theorem witness_about_to_fetch : ready.aboutToFetch "ADD R1 R2 R3".toList ∧
    decode ready.params.logicExt "ADD R1 R2 R3".toList =
      .instr (.add (some "R1".toList) (some "R2".toList) (some "R3".toList)) := ⟨⟨rfl, rfl, rfl⟩, by decide⟩

/-- `OneSignalMovesTheCursorOnce`, `NoSignalReadsAnEmptyDecodeField`, `NoSignalWritesTheProgram`,
`FifoGrowsAtItsTailAndShrinksAtItsHead`: the second signal of ADD. -/
theorem witness_signal : busy.Inv ∧ busy.halted = false ∧ (∃ t : State, signalStep busy = .next t) ∧
    ¬(busy.active = some .fetch ∧ busy.upc = 1) := ⟨witness_inv_busy, rfl, ⟨_, rfl⟩, by decide⟩

/-- `EveryEventKeepsTheInvariant`, for each kind of event. -/
theorem witness_events : busy.Inv ∧ (∃ t : State, applyEvent .step busy = .next t) ∧
    (∃ t : State, applyEvent (.loadProgram ["HLT".toList]) busy = .next t) ∧ ["HLT".toList].length < 2 ^ 31 ∧
    ∃ t : State, applyEvent (.deviceSupply 0 72) busy = .next t :=
  ⟨witness_inv_busy, ⟨_, rfl⟩, ⟨_, rfl⟩, by decide, ⟨_, rfl⟩⟩

/-- `EveryInstructionStepKeepsTheInvariant`, `InstructionStepIsASequenceOfSignalSteps`: from inside an instruction and
between two. -/
theorem witness_instruction_step : busy.Inv ∧ busy.halted = false ∧ (∃ t : State, step busy = .next t) ∧
    ready.Inv ∧ ready.halted = false ∧ ∃ t : State, step ready = .next t :=
  ⟨witness_inv_busy, rfl, ⟨_, rfl⟩, witness_inv_ready, rfl, ⟨_, rfl⟩⟩

/-- `InstructionsTakeTheirStepCount`: an instruction that goes on, and HLT. -/
theorem witness_step_count :
    (∃ u : State, exec (.add (some "R1".toList) (some "R2".toList) (some "R3".toList))
      (ready.fetched "ADD R1 R2 R3".toList) = .next u ∧ u.halted = false) ∧
    ((machine 0 0 "HLT").aboutToFetch "HLT".toList ∧ decode true "HLT".toList = .instr .hlt ∧
      ∃ u : State, exec .hlt ((machine 0 0 "HLT").fetched "HLT".toList) = .next u ∧ u.reason = some .hltOk) :=
  ⟨⟨_, rfl, rfl⟩, ⟨rfl, rfl, rfl⟩, by decide, ⟨_, rfl, rfl⟩⟩

/-- `ProgramCounterIncrementNeverWraps`. -/
theorem witness_pc_increment : fetching.Inv ∧ fetching.halted = false ∧ fetching.active = some .fetch ∧
    fetching.upc = 1 ∧ ∃ t : State, signalStep fetching = .next t ∧ t.halted = false :=
  ⟨witness_inv_fetching, rfl, rfl, rfl, ⟨_, rfl, rfl⟩⟩

/-- `ReloadKeepsMemoryFlagsAndDevices`: in the middle of an instruction. -/
theorem witness_reload : ∃ t : State, applyEvent (.loadProgram ["HLT".toList]) busy = .next t := ⟨_, rfl⟩

/-- `AbsentOrBlankLineEndsTheProgram`: absent below and above the program, and blank. -/
theorem witness_end_of_program :
    ({ ready with pc := 1 }.atBoundary = true ∧ { ready with pc := 1 }.imemRead 1 = none) ∧
    { ready with pc := -1 }.imemRead (-1) = none ∧
    (machine 0 0 " ").imemRead 0 = some " ".toList ∧ isBlank " ".toList = true := by decide

/-- `UnknownMnemonicHaltsAtDecode`: a name that is no key, and a key that LOGIC_EXT leaves out. -/
theorem witness_unknown_mnemonic :
    (machine 0 0 "add R1").aboutToFetch "add R1".toList ∧ (tokens "add R1".toList).head? = some "add".toList ∧
    (∀ k ∈ Key.all, k.present true = true → k.name ≠ "add".toList) ∧
    ∀ k ∈ Key.all, k.present false = true → k.name ≠ "XOR".toList :=
  ⟨⟨rfl, rfl, rfl⟩, by decide, by decide, by decide⟩

/-- `SourceSignalsDoWhatTheirRulesSay`: token counts 3, 1 and 2, a literal and a token that is none. -/
theorem witness_source_signals :
    (tokens "CMP a b".toList)[1]? = some ['a'] ∧ (tokens "CMP a b".toList)[2]? = some ['b'] ∧
    (tokens "CMP".toList)[1]? = none ∧ ((tokens "CMP a".toList)[1]?.isSome = true ∧ (tokens "CMP a".toList)[2]? = none) ∧
    parseInt "-3".toList = some (-3) ∧ parseInt "x".toList = none := by decide

/-- Tokens outside the grammar of R83, which `DecimalSpellingsAreReadBack` refuses. -/
theorem test_parse_refuses : ∀ t ∈ ["", "+", "-", "12a", "0x10", "1_000", "+-1", "--1", "1-", "'A'"],
    parseInt t.toList = none := by decide

/-- `DecimalSpellingsAreReadBack`: a run of digits, with a sign and without. -/
theorem witness_digits : "007".toList ≠ [] ∧ (∀ c ∈ "007".toList, 0x30 ≤ c.toNat ∧ c.toNat ≤ 0x39) ∧
    parseInt "-007".toList = some (-7) ∧ parseInt "+007".toList = some 7 :=
  ⟨by decide, by simp, by decide, by decide⟩

/-- `TokensAreTheMaximalRuns`, `DecimalSpellingsAreReadBack` at the ends of their ranges. -/
theorem witness_text : tokenValid "R1".toList = true ∧ isSpace ' ' = true ∧
    parseInt "2147483647".toList = some 2147483647 ∧ parseInt "-2147483649".toList = none ∧
    (2147483647 : Nat) ≤ 2147483647 ∧ (2147483647 : Nat) < 2147483648 ∧ (2147483648 : Nat) < 2147483649 :=
  ⟨by decide, by decide, by decide, by decide, by norm_num, by norm_num, by norm_num⟩

/-- `DecodeReadsEveryEncodedInstruction`, `DecodedTextHoldsTheEncoding`, also without LOGIC_EXT. -/
theorem witness_encoding :
    (Instr.store (some "R1".toList) (some "9".toList)).wellFormed = true ∧ Key.present false .store = true ∧
    decode false "  STORE R1	9 more".toList = .instr (.store (some "R1".toList) (some "9".toList)) := by decide

/-- `AluAddAndSubWidenAndTruncate`, both operations. -/
theorem witness_alu_wide :
    (AluOp.add = .add ∧ (8 : Int) = (5 : Word).toInt + (3 : Word).toInt) ∧
    (AluOp.sub = .sub ∧ (-1 : Int) = (1 : Word).toInt - (2 : Word).toInt) := by decide

/-- `AluDivRoundsTowardZero`: a quotient of each sign, and 0. -/
theorem witness_alu_div :
    ((2 : Word) ≠ 0 ∧ (-3 : Int).natAbs = (-7 : Word).toInt.natAbs / (2 : Word).toInt.natAbs ∧
      ((-3 : Int) < 0 ↔ (-3 : Int) ≠ 0 ∧
        ((-7 : Word).toInt < 0 ∧ 0 < (2 : Word).toInt ∨ 0 < (-7 : Word).toInt ∧ (2 : Word).toInt < 0))) ∧
    ((0 : Int).natAbs = (-1 : Word).toInt.natAbs / (2 : Word).toInt.natAbs) ∧
    (3 : Int).natAbs = (-7 : Word).toInt.natAbs / (-2 : Word).toInt.natAbs := by decide

/-- `AluLogicIsBitwise`, each of the four. -/
theorem witness_alu_logic : ∀ op ∈ [AluOp.and, AluOp.or, AluOp.xor, AluOp.not], (alu true op 12 10).isSome = true := by decide

/-- `CompareIsTheSignedOrder`: the most negative number below 1, itself, and 1 above it. -/
theorem witness_compare :
    let least := BitVec.ofInt 32 (-2147483648)
    least.toInt < (1 : Word).toInt ∧ least.toInt = least.toInt ∧ (1 : Word).toInt > least.toInt := by decide

/-- `RegisterWriteReadsBack`, `OnlyTheDestinationRegisterChanges`: names, listed and not. -/
theorem witness_registers : RegFile.wf busy.regs ∧ "R2".toList ≠ "R1".toList ∧ "R9".toList ∉ busy.regs.names ∧
    (Instr.movReg (some "R1".toList) (some "R3".toList)).destination ≠ some "R2".toList ∧
    ∃ t : State, exec (.movReg (some "R1".toList) (some "R3".toList)) busy = .next t :=
  ⟨by decide, by decide, by decide, by decide, ⟨_, rfl⟩⟩

/-- `DataReadIsTheCellOrAHalt`, `DataWriteChangesOneCell`, `LoadReadsTheCellOrHalts`, `StoreWritesTheCellOrHalts`: the
first and the last cell, and the addresses next to them. -/
theorem witness_addresses : Memory.wf busy.mem ∧
    (0 ≤ (0 : Word).toInt ∧ (15 : Word).toInt < busy.params.memCapacity) ∧
    (-1 : Word).toInt < 0 ∧ (busy.params.memCapacity : Int) ≤ (16 : Word).toInt ∧
    parseInt "0".toList = some 0 ∧ parseInt "15".toList = some 15 ∧ parseInt "16".toList = some 16 ∧ parseInt "-1".toList = some (-1) := by decide

/-- `EqualContentsAreEqualMemories`: one content, written in two orders. -/
theorem witness_equal_memories :
    let m := Memory.write (Memory.write [] 15 4) 0 7
    let n := Memory.write (Memory.write (Memory.write [] 0 7) 15 9) 15 4
    Memory.wf m ∧ Memory.wf n ∧ ∀ a ∈ [0, 1, 15, 16], m.read a = n.read a := by decide

/-- `DivWritesTheQuotientOrHalts`: a divisor, and an unwritten register. -/
theorem witness_divisors : busy.readReg "R2".toList ≠ 0 ∧ busy.readReg "R9".toList = 0 := by decide

/-- `MovImmWritesTheLiteral`, `JmpWritesTheTarget`, `BadIntegerHaltsAtTheConversion`. -/
theorem witness_literals : parseInt "007".toList = some 7 ∧ parseInt "0x10".toList = none := by decide

/-- `InputCharReadsDeviceZero`: a supplied value, none supplied, no device. -/
theorem witness_input : (∃ d : Device, (busy.deviceSupply 0 72).devices[0]? = some d ∧ d.supplied = 72 :: []) ∧
    (∃ d : Device, busy.devices[0]? = some d ∧ d.supplied = []) ∧ { busy with devices := [] }.devices = [] :=
  ⟨⟨_, rfl, rfl⟩, ⟨_, rfl, rfl⟩, rfl⟩

/-- `OutputCharWritesDeviceOne`: device 1 attached, and one device only. -/
theorem witness_output : (∃ d : Device, busy.devices[1]? = some d) ∧
    { busy with devices := [Device.fresh] }.devices.length < 2 := ⟨⟨_, rfl⟩, by decide⟩

/-- `busy` with a FIFO of capacity `d`. -/
def bounded (d : Nat) : State := { busy with params := { busy.params with iqDepth := some d } }

/-- `CmpAppendsTheComparison`: below, equal, above; the FIFO unbounded, with room for just one entry, and just full. -/
theorem witness_cmp :
    (busy.readReg "R2".toList).toInt < (busy.readReg "R1".toList).toInt ∧
    busy.readReg "R8".toList = busy.readReg "R9".toList ∧
    busy.params.iqDepth = none ∧ ((bounded 4).params.iqDepth = some 4 ∧ (bounded 4).iq.length < 4) ∧
    ((bounded 3).params.iqDepth = some 3 ∧ 3 ≤ (bounded 3).iq.length) := by decide

theorem test_cmp_last_room : after { bounded 4 with active := none, upc := 0, pc := 0, imem := ["CMP R1 R1".toList] } State.iq =
    some [1, 0, -1, 0] := by decide

/-- A request on a full FIFO, whatever the free value is. -/
theorem test_full_fifo : ((bounded 3).iqRequest 0).iq.length ≤ 3 :=
  show (fifoRequest (some 3) (bounded 3).iq 0).length ≤ 3 from fifoRequest_length_le

/-- The conditional jumps' statements: each value of the oldest entry, with a target and without, and nothing pending. -/
theorem witness_cond_jump :
    (busy.iq = 1 :: [0, -1] ∧ (1 : Word) ≠ 0) ∧ { busy with iq := [0, 1] }.iq = 0 :: [1] ∧ ready.iq = [] ∧
    parseInt "6".toList = some 6 ∧ parseInt "zz".toList = none := by decide

/-- `MissingOperandHaltsAtTheDecodeSignal`: the lowest missing index. -/
theorem witness_missing : (Instr.add (some ['a']) none none).key ≠ .je ∧ (Instr.add (some ['a']) none none).key ≠ .jne ∧
    (Instr.add (some ['a']) none none).operands.findIdx? Option.isNone = some 1 := by decide

/-- `OnlyStoreChangesItsCell`: STORE to cell 15 and the cell below it; and an instruction that stores nothing. -/
theorem witness_store_frame :
    (∃ t : State, exec (.store (some "R1".toList) (some "15".toList)) busy = .next t) ∧
    (Instr.store (some "R1".toList) (some "15".toList)).storeCell busy.params = some 15 ∧ (some 15 : Option Nat) ≠ some 14 ∧
    (∃ t : State, exec (.cmp (some "R1".toList) (some "R2".toList)) busy = .next t) ∧
    (Instr.cmp (some "R1".toList) (some "R2".toList)).storeCell busy.params ≠ some 0 :=
  ⟨⟨_, rfl⟩, by decide, by decide, ⟨_, rfl⟩, by decide⟩

/-- `InstructionsKeepWhatTheyDoNotName`: an instruction outside each of the four groups, and one that halts. -/
theorem witness_keeps :
    (Instr.load (some "R1".toList) (some "0".toList)).writesFlags = false ∧
    (Instr.load (some "R1".toList) (some "0".toList)).touchesFifo = false ∧
    (Instr.load (some "R1".toList) (some "0".toList)).writesPc = false ∧
    (Instr.load (some "R1".toList) (some "0".toList)).callsDevice = false ∧
    (∃ t : State, exec (.load (some "R1".toList) (some "0".toList)) busy = .next t) ∧
    (busy.halted = false ∧ ∃ t : State, exec .hlt busy = .next t ∧ t.halted = true) :=
  ⟨by decide, by decide, by decide, by decide, ⟨_, rfl⟩, rfl, ⟨_, rfl, rfl⟩⟩

/-- The registers of `busy`, otherwise annotated. -/
def otherProvenance : RegFile := [("R1".toList, ⟨5, ['p']⟩), ("R2".toList, ⟨3, ['q']⟩)]

/-- `ProvenanceNeverAffectsComputation`, `NoSignalReadsAFlag`: two different states that look the same. -/
theorem witness_seen_through :
    (busy ≠ { busy with regs := otherProvenance } ∧
      busy.withoutProvenance =
        { busy with regs := otherProvenance }.withoutProvenance) ∧
    busy ≠ { busy with flags := { z := true, c := true, s := true, v := true } } ∧
      busy.withoutFlags = { busy with flags := { z := true, c := true, s := true, v := true } }.withoutFlags := by
  decide

end Sys2Proof.Tests
end

section
/-! SUPPORT. What every control signal may write (its footprint), said once per signal, and what follows for a `Step` and
for an instruction: the fields no signal of a microprogram names are unchanged. -/

namespace Sys2Proof.Machine

/-! ### The fields of the state, and what leaves them unchanged -/

/-- The fields of `State`, as names. -/
inductive StateField where
  | params | pc | mar | mbr | ir | regs | flags | halted | reason | active | upc | op1 | op2 | dest | iq | mem | imem
  | devices
deriving DecidableEq

/-- The type of a field's content. -/
abbrev StateField.Content : StateField → Type
  | .params => Params
  | .pc | .mar | .mbr => Word
  | .ir => Text
  | .regs => RegFile
  | .flags => Flags
  | .halted => Bool
  | .reason => Option HaltCause
  | .active => Option Key
  | .upc => Nat
  | .op1 | .op2 | .dest => Option Token
  | .iq => List Word
  | .mem => Memory
  | .imem => List Text
  | .devices => List Device

/-- The content of a field. -/
def State.get (s : State) : (f : StateField) → f.Content
  | .params => s.params
  | .pc => s.pc
  | .mar => s.mar
  | .mbr => s.mbr
  | .ir => s.ir
  | .regs => s.regs
  | .flags => s.flags
  | .halted => s.halted
  | .reason => s.reason
  | .active => s.active
  | .upc => s.upc
  | .op1 => s.op1
  | .op2 => s.op2
  | .dest => s.dest
  | .iq => s.iq
  | .mem => s.mem
  | .imem => s.imem
  | .devices => s.devices

/-- From `s` to `t` at most the fields `w` have changed. -/
def OnlyChanges (w : List StateField) (s t : State) : Prop := ∀ f, f ∉ w → t.get f = s.get f

theorem OnlyChanges.refl (w : List StateField) (s : State) : OnlyChanges w s s := fun _ _ => rfl

theorem OnlyChanges.trans {w : List StateField} {s t u : State} (h : OnlyChanges w s t) (g : OnlyChanges w t u) :
    OnlyChanges w s u := fun f hf => (g f hf).trans (h f hf)

theorem OnlyChanges.mono {v w : List StateField} {s t : State} (h : OnlyChanges v s t) (hvw : v ⊆ w) :
    OnlyChanges w s t := fun f hf => h f fun hv => hf (hvw hv)

/-! ### The sequencer's fields -/

/-- The fields that the sequencer and a halt write, and no signal rule. -/
def sequencerFields : List StateField := [.active, .upc, .halted, .reason]

theorem onlyChanges_sequencer (s : State) (a : Option Key) (n : Nat) (h : Bool) (r : Option HaltCause) :
    OnlyChanges sequencerFields s { s with active := a, upc := n, halted := h, reason := r } := by
  intro f hf
  cases f with
  | active | upc | halted | reason => simp [sequencerFields] at hf
  | _ => rfl

theorem activated_onlyChanges (s : State) (k : Key) : OnlyChanges sequencerFields s (s.activated k) :=
  onlyChanges_sequencer s (some k) 0 s.halted s.reason

theorem activateFetch_onlyChanges (s : State) : OnlyChanges sequencerFields s s.activateFetch := by
  unfold State.activateFetch
  split
  · exact activated_onlyChanges s .fetch
  · exact .refl _ s

theorem applyResult_onlyChanges (len : Nat) (r : SigResult) :
    OnlyChanges sequencerFields r.state (applyResult len r) := by
  rw [applyResult_rest]
  exact onlyChanges_sequencer _ _ _ _ _

/-- The sequencer writes `halted` and `reason` together or not at all (R240). -/
theorem applyResult_halt_cases (len : Nat) (r : SigResult) :
    ((applyResult len r).halted = r.state.halted ∧ (applyResult len r).reason = r.state.reason) ∨
    ∃ c, (applyResult len r).halted = true ∧ (applyResult len r).reason = some c := by
  cases r with
  | next s =>
    simp only [applyResult]
    split <;> exact .inl ⟨rfl, rfl⟩
  | activate k s => exact .inl ⟨rfl, rfl⟩
  | clear s => exact .inl ⟨rfl, rfl⟩
  | halt c s => exact .inr ⟨c, rfl, rfl⟩

/-! ### The signals -/

/-- The rule of a signal on given operand tokens: `perform` reads them from `ir`, an arm of `exec` has them from its
instruction. -/
def performOn (tok : Nat → Operand) (sig : Signal) (s : State) : SigResult :=
  match sig with
  | .decodeOperandsRRR => decodeOperandsRRR (tok 1) (tok 2) (tok 3) s
  | .decodeOperandsRR => decodeOperandsRR (tok 1) (tok 2) s
  | .decodeOperandsRImm => decodeOperandsRImm (tok 1) (tok 2) s
  | .decodeOperandAddr => decodeOperandAddr (tok 1) s
  | .decodeOperandsRRdest => decodeOperandsRRdest (tok 1) (tok 2) s
  | .reg1ToMbr => reg1ToMbr (tok 1) s
  | .condJumpIfZero => condJumpIfZero (tok 1) s
  | .condJumpIfNotZero => condJumpIfNotZero (tok 1) s
  | sig => perform sig s

theorem perform_eq_performOn (sig : Signal) (s : State) : perform sig s = performOn s.tok sig s := by
  cases sig <;> rfl

/-- The fields a signal's rule may write (40_microengine.md R107 to R137). -/
def signalFootprint : Signal → List StateField
  | .pcOutMarIn | .addressToMar => [.mar]
  | .memReadPcInc => [.mbr, .ir, .pc]
  | .mbrOutIrIn | .decode | .haltCpu | .other _ => []
  | .decodeOperandsRRR => [.op1, .op2, .dest]
  | .decodeOperandsRR => [.op1, .op2]
  | .decodeOperandsRImm | .decodeOperandsRRdest => [.op1, .dest]
  | .decodeOperandAddr => [.op1]
  | .aluAdd | .aluSub | .aluMul | .aluDiv | .aluAnd | .aluOr | .aluXor | .aluNot => [.mbr, .flags]
  | .mbrOutRegDestIn => [.regs]
  | .immediateToMbr | .reg1ToMbr | .memDataReadMbrIn => [.mbr]
  | .mbrOutMemDataWrite => [.mem]
  | .accToBusWriteToDevice1 => [.devices]
  | .readFromDevice0BusToAcc => [.devices, .regs]
  | .addressToPc => [.pc]
  | .condJumpIfZero | .condJumpIfNotZero => [.iq, .op1, .pc]
  | .aluCmpInterruptRequest => [.iq]

/-- What a signal rule may do to `s`: it writes only the fields `w`, and a microprogram it activates is the one that the
text in `ir` names (R110). -/
structure SigResult.Within (w : List StateField) (s : State) (r : SigResult) : Prop where
  changes : OnlyChanges w s r.state
  activates : ∀ k t, r = .activate k t →
    t = s ∧ k.present s.params.logicExt = true ∧ (tokens s.ir).head? = some k.name

theorem within_next {w : List StateField} {s t : State} (h : OnlyChanges w s t) : (SigResult.next t).Within w s :=
  ⟨h, fun _ _ e => SigResult.noConfusion e⟩

theorem within_clear {w : List StateField} {s t : State} (h : OnlyChanges w s t) : (SigResult.clear t).Within w s :=
  ⟨h, fun _ _ e => SigResult.noConfusion e⟩

theorem within_halt {w : List StateField} {c : HaltCause} {s t : State} (h : OnlyChanges w s t) :
    (SigResult.halt c t).Within w s := ⟨h, fun _ _ e => SigResult.noConfusion e⟩

/-- A rule that halts for want of a token has changed nothing. -/
theorem needToken_within {w : List StateField} {i : Nat} {o : Operand} {s : State} {k : Token → SigResult}
    (h : ∀ t, (k t).Within w s) : (needToken i o s k).Within w s := by
  rcases needToken_cases i o s k with e | ⟨t, -, e⟩ <;> rw [e]
  · exact within_halt (.refl w s)
  · exact h t

theorem needField_within {w : List StateField} {o : Option Token} {s : State} {k : Token → SigResult}
    (h : ∀ t, (k t).Within w s) : (needField o s k).Within w s := by
  rcases needField_cases o s k with e | ⟨t, -, e⟩ <;> rw [e]
  · exact within_halt (.refl w s)
  · exact h t

theorem needInt_within {w : List StateField} {t : Token} {s u : State} {k : Word → SigResult}
    (hu : OnlyChanges w s u) (h : ∀ v, (k v).Within w s) : (needInt t u k).Within w s := by
  rcases needInt_cases t u k with e | ⟨v, -, e⟩ <;> rw [e]
  · exact within_halt hu
  · exact h v

/-! ### The updates that the rules make -/

section Updates

variable (s : State)

theorem onlyChanges_pc (v : Word) : OnlyChanges [.pc] s { s with pc := v } := by
  intro f hf
  cases f with
  | pc => simp at hf
  | _ => rfl

theorem onlyChanges_mar (v : Word) : OnlyChanges [.mar] s { s with mar := v } := by
  intro f hf
  cases f with
  | mar => simp at hf
  | _ => rfl

theorem onlyChanges_mbr (v : Word) : OnlyChanges [.mbr] s { s with mbr := v } := by
  intro f hf
  cases f with
  | mbr => simp at hf
  | _ => rfl

theorem onlyChanges_mbr_flags (v : Word) (g : Flags) : OnlyChanges [.mbr, .flags] s { s with mbr := v, flags := g } := by
  intro f hf
  cases f with
  | mbr | flags => simp at hf
  | _ => rfl

theorem onlyChanges_mbr_ir_pc (v : Word) (t : Text) (a : Word) :
    OnlyChanges [.mbr, .ir, .pc] s { s with mbr := v, ir := t, pc := a } := by
  intro f hf
  cases f with
  | mbr | ir | pc => simp at hf
  | _ => rfl

theorem onlyChanges_fields (a b d : Option Token) :
    OnlyChanges [.op1, .op2, .dest] s { s with op1 := a, op2 := b, dest := d } := by
  intro f hf
  cases f with
  | op1 | op2 | dest => simp at hf
  | _ => rfl

theorem onlyChanges_op1_op2 (a b : Option Token) : OnlyChanges [.op1, .op2] s { s with op1 := a, op2 := b } := by
  intro f hf
  cases f with
  | op1 | op2 => simp at hf
  | _ => rfl

theorem onlyChanges_op1_dest (a d : Option Token) : OnlyChanges [.op1, .dest] s { s with op1 := a, dest := d } := by
  intro f hf
  cases f with
  | op1 | dest => simp at hf
  | _ => rfl

theorem onlyChanges_op1 (a : Option Token) : OnlyChanges [.op1] s { s with op1 := a } := by
  intro f hf
  cases f with
  | op1 => simp at hf
  | _ => rfl

theorem onlyChanges_iq (q : List Word) : OnlyChanges [.iq] s { s with iq := q } := by
  intro f hf
  cases f with
  | iq => simp at hf
  | _ => rfl

theorem onlyChanges_mem (m : Memory) : OnlyChanges [.mem] s { s with mem := m } := by
  intro f hf
  cases f with
  | mem => simp at hf
  | _ => rfl

theorem onlyChanges_devices (l : List Device) : OnlyChanges [.devices] s { s with devices := l } := by
  intro f hf
  cases f with
  | devices => simp at hf
  | _ => rfl

theorem writeReg_onlyChanges (g : Text) (n : Token) (v : Word) : OnlyChanges [.regs] s (s.writeReg g n v) := by
  intro f hf
  cases f with
  | regs => simp at hf
  | _ => rfl

end Updates

/-! ### One footprint per signal rule -/

theorem memReadPcInc_within (s : State) : (memReadPcInc s).Within [.mbr, .ir, .pc] s := by
  unfold memReadPcInc
  split
  · exact within_halt (.refl _ s)
  · split
    · exact within_halt (.refl _ s)
    · exact within_next (onlyChanges_mbr_ir_pc s _ _ _)

/-- `Decode` writes nothing, and activates the key that token 0 names. -/
theorem decodeSignal_within (s : State) : (decodeSignal s).Within [] s := by
  unfold decodeSignal
  split
  · next i hi =>
    obtain ⟨hname, hpresent, -⟩ := decode_eq_instr hi
    refine ⟨.refl _ s, fun k t e => ?_⟩
    cases e
    exact ⟨rfl, hpresent, hname⟩
  all_goals exact within_halt (.refl _ s)

theorem aluToMbr_within (op : AluOp) (a b : Word) (s : State) : (aluToMbr op a b s).Within [.mbr, .flags] s := by
  unfold aluToMbr
  split
  · exact within_halt (.refl _ s)
  · exact within_next (onlyChanges_mbr_flags s _ _)

theorem aluBinary_within (op : AluOp) (s : State) : (aluBinary op s).Within [.mbr, .flags] s :=
  needField_within fun _ => needField_within fun _ => aluToMbr_within ..

theorem memDataReadMbrIn_within (s : State) : (memDataReadMbrIn s).Within [.mbr] s := by
  unfold memDataReadMbrIn
  split
  · exact within_halt (.refl _ s)
  · exact within_next (onlyChanges_mbr s _)

theorem mbrOutMemDataWrite_within (s : State) : (mbrOutMemDataWrite s).Within [.mem] s := by
  unfold mbrOutMemDataWrite
  split
  · exact within_halt (.refl _ s)
  · next h =>
    obtain ⟨k, -, rfl⟩ := memWrite_eq_some h
    exact within_next (onlyChanges_mem s _)

theorem accToBusWriteToDevice1_within (s : State) : (accToBusWriteToDevice1 s).Within [.devices] s := by
  unfold accToBusWriteToDevice1
  split
  · exact within_halt (.refl _ s)
  · next h =>
    obtain ⟨d, -, rfl⟩ := devWrite_eq_some h
    exact within_next (onlyChanges_devices s _)

theorem readFromDevice0BusToAcc_within (s : State) : (readFromDevice0BusToAcc s).Within [.devices, .regs] s := by
  unfold readFromDevice0BusToAcc
  split
  · exact within_halt (.refl _ s)
  · next h =>
    obtain ⟨d, -, -, rfl⟩ := devRead_eq_some h
    exact within_next (((onlyChanges_devices s _).mono (by simp)).trans
      ((writeReg_onlyChanges _ _ _ _).mono (by simp)))

/-- A taken jump, on the state `u` that the conditional jump has made of `s` so far. -/
theorem jumpInline_within {w : List StateField} (t : Operand) {s u : State} (h : OnlyChanges w s u)
    (hop : .op1 ∈ w) (hpc : .pc ∈ w) : (jumpInline t u).Within w s := by
  cases t with
  | none => exact within_halt h
  | some x =>
    have hdecoded := h.trans ((onlyChanges_op1 u (some x)).mono (by simpa using hop))
    exact needInt_within hdecoded fun v => within_clear (hdecoded.trans ((onlyChanges_pc _ v).mono (by simpa using hpc)))

theorem popTested_onlyChanges (taken : Bool) (rest : List Word) (s : State) :
    OnlyChanges [.iq] s (popTested taken rest s) := by
  unfold popTested
  split
  · exact onlyChanges_iq s rest
  · exact .refl _ s

theorem condJump_within (taken : Word → Bool) (t : Operand) (s : State) :
    (condJump taken t s).Within [.iq, .op1, .pc] s := by
  unfold condJump
  split
  · exact within_next (.refl _ s)
  · split
    · exact jumpInline_within t ((popTested_onlyChanges _ _ s).mono (by simp)) (by simp) (by simp)
    · exact within_next ((popTested_onlyChanges _ _ s).mono (by simp))

/-- Every signal writes only its footprint, whatever operand tokens it is given. -/
theorem performOn_within (tok : Nat → Operand) (sig : Signal) (s : State) :
    (performOn tok sig s).Within (signalFootprint sig) s := by
  cases sig with
  | pcOutMarIn => exact within_next (onlyChanges_mar s _)
  | memReadPcInc => exact memReadPcInc_within s
  | mbrOutIrIn => exact within_next (.refl _ s)
  | decode => exact decodeSignal_within s
  | decodeOperandsRRR =>
    exact needToken_within fun _ => needToken_within fun _ => needToken_within fun _ =>
      within_next (onlyChanges_fields s _ _ _)
  | decodeOperandsRR =>
    exact needToken_within fun _ => needToken_within fun _ => within_next (onlyChanges_op1_op2 s _ _)
  | decodeOperandsRImm | decodeOperandsRRdest =>
    exact needToken_within fun _ => needToken_within fun _ => within_next (onlyChanges_op1_dest s _ _)
  | decodeOperandAddr => exact needToken_within fun _ => within_next (onlyChanges_op1 s _)
  | aluAdd => exact aluBinary_within .add s
  | aluSub => exact aluBinary_within .sub s
  | aluMul => exact aluBinary_within .mul s
  | aluDiv => exact aluBinary_within .div s
  | aluAnd => exact aluBinary_within .and s
  | aluOr => exact aluBinary_within .or s
  | aluXor => exact aluBinary_within .xor s
  | aluNot => exact needField_within fun _ => aluToMbr_within ..
  | mbrOutRegDestIn => exact needField_within fun _ => within_next (writeReg_onlyChanges s _ _ _)
  | immediateToMbr =>
    exact needField_within fun _ => needInt_within (.refl _ s) fun _ => within_next (onlyChanges_mbr s _)
  | reg1ToMbr => exact needToken_within fun _ => within_next (onlyChanges_mbr s _)
  | addressToMar =>
    exact needField_within fun _ => needInt_within (.refl _ s) fun _ => within_next (onlyChanges_mar s _)
  | memDataReadMbrIn => exact memDataReadMbrIn_within s
  | mbrOutMemDataWrite => exact mbrOutMemDataWrite_within s
  | accToBusWriteToDevice1 => exact accToBusWriteToDevice1_within s
  | readFromDevice0BusToAcc => exact readFromDevice0BusToAcc_within s
  | addressToPc =>
    exact needField_within fun _ => needInt_within (.refl _ s) fun _ => within_clear (onlyChanges_pc s _)
  | condJumpIfZero | condJumpIfNotZero => exact condJump_within ..
  | aluCmpInterruptRequest =>
    exact needField_within fun _ => needField_within fun _ => within_next (onlyChanges_iq s _)
  | haltCpu | other name => exact within_halt (.refl _ s)

theorem perform_within (sig : Signal) (s : State) : (perform sig s).Within (signalFootprint sig) s :=
  perform_eq_performOn sig s ▸ performOn_within s.tok sig s

theorem perform_onlyChanges (sig : Signal) (s : State) : OnlyChanges (signalFootprint sig) s (perform sig s).state :=
  (perform_within sig s).changes

/-- No signal rule writes the sequencer's fields, the parameters or the program. -/
theorem notMem_footprint (sig : Signal) :
    ∀ f ∈ sequencerFields ++ [.params, .imem], f ∉ signalFootprint sig := by
  cases sig with
  | other => simp [signalFootprint]
  | _ => decide

/-! ### The microprograms -/

/-- The four signals of FETCH, each at its place (R104). -/
theorem fetch_signal_cases {n : Nat} {sig : Signal} (h : (microprogram .fetch)[n]? = some sig) :
    n = 0 ∧ sig = .pcOutMarIn ∨ n = 1 ∧ sig = .memReadPcInc ∨ n = 2 ∧ sig = .mbrOutIrIn ∨ n = 3 ∧ sig = .decode := by
  rcases n with _ | _ | _ | _ | n <;> simp_all [microprogram]

/-- No microprogram but FETCH has a signal that writes `ir`. -/
theorem ir_notMem_footprint {k : Key} (hk : k ≠ .fetch) :
    ∀ sig ∈ microprogram k, StateField.ir ∉ signalFootprint sig := by
  cases k with
  | fetch => exact absurd rfl hk
  | _ => decide

/-- The only signal that writes `ir` stands second in FETCH and nowhere else (R75, R103). -/
theorem fetch_one_of_writes_ir {k : Key} {n : Nat} {sig : Signal} (hsig : (microprogram k)[n]? = some sig)
    (hw : .ir ∈ signalFootprint sig) : k = .fetch ∧ n = 1 := by
  by_cases hk : k = .fetch
  · subst hk
    rcases fetch_signal_cases hsig with ⟨-, rfl⟩ | ⟨rfl, -⟩ | ⟨-, rfl⟩ | ⟨-, rfl⟩
    case inr.inl => exact ⟨rfl, rfl⟩
    all_goals simp [signalFootprint] at hw
  · exact absurd hw (ir_notMem_footprint hk sig (List.mem_of_getElem? hsig))

/-! ### A `Step` -/

/-- A `Step` of a running machine writes the fields of the signal at the cursor, and the sequencer's. -/
theorem step_onlyChanges (sig : Signal) (len : Nat) (s : State) :
    OnlyChanges (sequencerFields ++ signalFootprint sig) s (applyResult len (perform sig s.activateFetch)) := by
  have hfetch := (activateFetch_onlyChanges s).mono (List.subset_append_left _ (signalFootprint sig))
  have hsig := (perform_onlyChanges sig s.activateFetch).mono (List.subset_append_right sequencerFields _)
  have hseq := (applyResult_onlyChanges len (perform sig s.activateFetch)).mono
    (List.subset_append_left _ (signalFootprint sig))
  exact (hfetch.trans hsig).trans hseq

/-- Where the cursor is past the first signal of a microprogram, FETCH has not just been activated. -/
theorem activateFetch_eq_self {s : State} (h : s.activateFetch.upc ≠ 0) : s.activateFetch = s := by
  unfold State.activateFetch at h ⊢
  split
  · next hnone => simp [hnone] at h
  · rfl

/-- Settles O57: the footprints of the signals have neither `imem` nor the parameters, and only the second signal of FETCH
has `ir`. -/
theorem noSignalWritesTheProgram : Obligations.NoSignalWritesTheProgram := by
  intro s t h
  rcases signalStep_cases h with ⟨-, rfl⟩ | ⟨-, k, sig, hk, -, hsig, rfl⟩
  · exact ⟨rfl, rfl, fun _ => rfl⟩
  have hstep := step_onlyChanges sig (microprogram k).length s
  refine ⟨hstep .imem ?_, hstep .params ?_, fun hnot => hstep .ir fun hw => hnot ?_⟩
  · simp [sequencerFields, notMem_footprint sig .imem (by decide)]
  · simp [sequencerFields, notMem_footprint sig .params (by decide)]
  · have hir : .ir ∈ signalFootprint sig := by simpa [sequencerFields] using hw
    obtain ⟨rfl, hone⟩ := fetch_one_of_writes_ir hsig hir
    have hself : s.activateFetch = s := activateFetch_eq_self (by omega)
    exact ⟨hself ▸ hk, hself ▸ hone⟩

end Sys2Proof.Machine
end

section
/-! SUPPORT. What `exec` may write: an instruction runs its microprogram on its own operands, so it writes what the
signals of that microprogram write. -/

namespace Sys2Proof.Machine

/-- The operand token at position `n` of an instruction, token 0 being its mnemonic (R84). -/
def operandAt (i : Instr) (n : Nat) : Operand := i.operands.getD (n - 1) none

/-- The signals that `exec` performs for a key: its microprogram, and none for FETCH, whose signals belong to the
following instruction (R227). -/
def execSignals : Key → List Signal
  | .fetch => []
  | k => microprogram k

/-- `exec` is the microprogram of the instruction's key, run on its operands. -/
theorem exec_eq_runProgram (i : Instr) (s : State) :
    exec i s = .next (runProgram i.key ((execSignals i.key).map (performOn (operandAt i))) s) := by
  cases i <;> rfl

/-- The fields an instruction may write. -/
def execFootprint (k : Key) : List StateField := sequencerFields ++ (execSignals k).flatMap signalFootprint

theorem signalFootprint_subset {k : Key} {sig : Signal} (h : sig ∈ execSignals k) :
    signalFootprint sig ⊆ execFootprint k :=
  List.subset_append_of_subset_right _ fun _ hf => List.mem_flatMap.mpr ⟨sig, h, hf⟩

theorem exec_onlyChanges {i : Instr} {s t : State} (h : exec i s = .next t) : OnlyChanges (execFootprint i.key) s t := by
  rw [exec_eq_runProgram] at h
  cases h
  have hseq : sequencerFields ⊆ execFootprint i.key := List.subset_append_left ..
  refine runSignals_keeps (P := OnlyChanges (execFootprint i.key) s) _ _ ?_ ?_ ((activated_onlyChanges s i.key).mono hseq)
  · intro f hf u hu
    obtain ⟨sig, hsig, rfl⟩ := List.mem_map.mp hf
    exact hu.trans ((performOn_within (operandAt i) sig u).changes.mono (signalFootprint_subset hsig))
  · intro r hr
    exact hr.trans ((applyResult_onlyChanges _ r).mono hseq)

/-! ### The groups of instructions -/

theorem program_notMem_execFootprint (k : Key) : ∀ f ∈ [StateField.params, .imem, .ir], f ∉ execFootprint k := by
  cases k <;> decide

theorem flags_notMem_execFootprint {i : Instr} (h : i.writesFlags = false) : .flags ∉ execFootprint i.key := by
  revert h
  unfold Instr.writesFlags
  generalize i.key = k
  cases k <;> decide

theorem iq_notMem_execFootprint {i : Instr} (h : i.touchesFifo = false) : .iq ∉ execFootprint i.key := by
  revert h
  unfold Instr.touchesFifo
  generalize i.key = k
  cases k <;> decide

theorem pc_notMem_execFootprint {i : Instr} (h : i.writesPc = false) : .pc ∉ execFootprint i.key := by
  revert h
  unfold Instr.writesPc
  generalize i.key = k
  cases k <;> decide

theorem devices_notMem_execFootprint {i : Instr} (h : i.callsDevice = false) : .devices ∉ execFootprint i.key := by
  revert h
  unfold Instr.callsDevice
  generalize i.key = k
  cases k <;> decide

/-! ### The halt -/

/-- A halted machine has a reason (R39). -/
def HaltHasReason (s : State) : Prop := s.halted = true → ∃ c, s.reason = some c

theorem applyResult_haltHasReason (len : Nat) {r : SigResult} (h : HaltHasReason r.state) :
    HaltHasReason (applyResult len r) := by
  rcases applyResult_halt_cases len r with ⟨hhalted, hreason⟩ | ⟨c, -, hreason⟩
  · simpa [HaltHasReason, hhalted, hreason] using h
  · exact fun _ => ⟨c, hreason⟩

theorem performOn_haltHasReason (tok : Nat → Operand) (sig : Signal) {s : State} (h : HaltHasReason s) :
    HaltHasReason (performOn tok sig s).state := by
  have hsig := (performOn_within tok sig s).changes
  have hhalted : (performOn tok sig s).state.halted = s.halted := hsig .halted (notMem_footprint sig _ (by decide))
  have hreason : (performOn tok sig s).state.reason = s.reason := hsig .reason (notMem_footprint sig _ (by decide))
  simpa [HaltHasReason, hhalted, hreason] using h

theorem exec_haltHasReason {i : Instr} {s t : State} (h : exec i s = .next t) (hs : HaltHasReason s) :
    HaltHasReason t := by
  rw [exec_eq_runProgram] at h
  cases h
  refine runSignals_keeps (P := HaltHasReason) _ _ ?_ (fun _ => applyResult_haltHasReason _) hs
  intro f hf u hu
  obtain ⟨sig, -, rfl⟩ := List.mem_map.mp hf
  exact performOn_haltHasReason (operandAt i) sig hu

/-- Settles O56: an instruction writes the footprint of its key, and each group of keys keeps a field out of it. -/
theorem instructionsKeepWhatTheyDoNotName : Obligations.InstructionsKeepWhatTheyDoNotName := by
  intro i s t h
  have hexec := exec_onlyChanges h
  have hprogram := program_notMem_execFootprint i.key
  exact ⟨hexec .params (hprogram _ (by decide)), hexec .imem (hprogram _ (by decide)), hexec .ir (hprogram _ (by decide)),
    fun hf => hexec .flags (flags_notMem_execFootprint hf),
    fun hi => hexec .iq (iq_notMem_execFootprint hi),
    fun hp => hexec .pc (pc_notMem_execFootprint hp),
    fun hd => hexec .devices (devices_notMem_execFootprint hd),
    fun hrun => exec_haltHasReason h fun hh => absurd hh (by simp [hrun])⟩

end Sys2Proof.Machine
end

section
/-! SUPPORT. The invariant: every signal keeps the contents of the state in order, and suits the state to the cursor it
leaves behind. -/

namespace Sys2Proof.Machine

/-! ### The contents: bounds, memory, registers, FIFO -/

/-- The clauses of the invariant that no cursor enters. -/
structure ContentsOk (s : State) : Prop where
  bounds : s.boundsOk
  mem : s.memOk
  regs : RegFile.wf s.regs
  iq : s.iqOk

/-- The fields the contents are about. -/
def contentFields : List StateField := [.params, .imem, .mem, .regs, .iq]

theorem ContentsOk.of_onlyChanges {w : List StateField} {s t : State} (h : ContentsOk s) (hst : OnlyChanges w s t)
    (hw : ∀ f ∈ contentFields, f ∉ w) : ContentsOk t := by
  have hparams : t.params = s.params := hst .params (hw _ (by decide))
  have himem : t.imem = s.imem := hst .imem (hw _ (by decide))
  have hmem : t.mem = s.mem := hst .mem (hw _ (by decide))
  have hregs : t.regs = s.regs := hst .regs (hw _ (by decide))
  have hiq : t.iq = s.iq := hst .iq (hw _ (by decide))
  obtain ⟨bounds, mem, regs, iq⟩ := h
  constructor
  · simpa only [State.boundsOk, hparams, himem] using bounds
  · simpa only [State.memOk, hparams, hmem] using mem
  · simpa only [hregs] using regs
  · simpa only [State.iqOk, hparams, hiq] using iq

theorem mem_mem_footprint {sig : Signal} : .mem ∈ signalFootprint sig ↔ sig = .mbrOutMemDataWrite := by
  cases sig <;> simp [signalFootprint]

theorem regs_mem_footprint {sig : Signal} :
    .regs ∈ signalFootprint sig ↔ sig = .mbrOutRegDestIn ∨ sig = .readFromDevice0BusToAcc := by
  cases sig <;> simp [signalFootprint]

theorem iq_mem_footprint {sig : Signal} : .iq ∈ signalFootprint sig ↔
    sig = .aluCmpInterruptRequest ∨ sig = .condJumpIfZero ∨ sig = .condJumpIfNotZero := by
  cases sig <;> simp [signalFootprint]

/-- A store writes a cell in range, and keeps the canonical form. -/
theorem mbrOutMemDataWrite_memOk {s : State} (h : s.memOk) : (mbrOutMemDataWrite s).state.memOk := by
  unfold mbrOutMemDataWrite
  split
  · exact h
  · next hw =>
    obtain ⟨k, hk, rfl⟩ := memWrite_eq_some hw
    obtain ⟨hwf, hrange⟩ := h
    refine ⟨Memory.wf_write k s.mbr hwf, fun c hc => ?_⟩
    rcases Memory.mem_write hc with ⟨rfl, -⟩ | hc
    · exact (cellIndex_eq_some hk).2.2.2
    · exact hrange c hc

theorem perform_memOk (sig : Signal) {s : State} (h : s.memOk) : (perform sig s).state.memOk := by
  by_cases hw : .mem ∈ signalFootprint sig
  · rw [mem_mem_footprint.mp hw]
    exact mbrOutMemDataWrite_memOk h
  · have hmem : (perform sig s).state.mem = s.mem := perform_onlyChanges sig s .mem hw
    have hparams : (perform sig s).state.params = s.params := (perform_same sig s).params
    simpa only [State.memOk, hmem, hparams] using h

theorem mbrOutRegDestIn_regs_wf {s : State} (h : RegFile.wf s.regs) : RegFile.wf (mbrOutRegDestIn s).state.regs := by
  rcases needField_cases s.dest s fun d => .next (s.writeReg (signalName .mbrOutRegDestIn) d s.mbr) with
    e | ⟨d, -, e⟩ <;> rw [mbrOutRegDestIn, e]
  · exact h
  · exact RegFile.wf_write _ _ h

theorem readFromDevice0BusToAcc_regs_wf {s : State} (h : RegFile.wf s.regs) :
    RegFile.wf (readFromDevice0BusToAcc s).state.regs := by
  unfold readFromDevice0BusToAcc
  split
  · exact h
  · next hr =>
    obtain ⟨d, -, -, rfl⟩ := devRead_eq_some hr
    exact RegFile.wf_write _ _ h

theorem perform_regs_wf (sig : Signal) {s : State} (h : RegFile.wf s.regs) : RegFile.wf (perform sig s).state.regs := by
  by_cases hw : .regs ∈ signalFootprint sig
  · rcases regs_mem_footprint.mp hw with rfl | rfl
    · exact mbrOutRegDestIn_regs_wf h
    · exact readFromDevice0BusToAcc_regs_wf h
  · have hregs : (perform sig s).state.regs = s.regs := perform_onlyChanges sig s .regs hw
    rwa [hregs]

/-- The code of a comparison (R168). -/
theorem compareWords_cases (a b : Word) : compareWords a b = -1 ∨ compareWords a b = 0 ∨ compareWords a b = 1 := by
  unfold compareWords
  split
  · exact .inl rfl
  · split
    · exact .inr (.inl rfl)
    · exact .inr (.inr rfl)

theorem iqRequest_iqOk {s : State} (a b : Word) (h : s.iqOk) : (s.iqRequest (compareWords a b)).iqOk := by
  obtain ⟨hcodes, -⟩ := h
  refine ⟨fun e he => ?_, fun d hd => ?_⟩
  · rcases mem_fifoRequest he with he | rfl
    · exact hcodes e he
    · exact compareWords_cases a b
  · rw [iqRequest_params] at hd
    rw [iqRequest_iq, hd]
    exact fifoRequest_length_le

theorem aluCmpInterruptRequest_iqOk {s : State} (h : s.iqOk) : (aluCmpInterruptRequest s).state.iqOk := by
  unfold aluCmpInterruptRequest
  cases s.op1 with
  | none => exact h
  | some a =>
    cases s.op2 with
    | none => exact h
    | some b => exact iqRequest_iqOk _ _ h

/-- A conditional jump leaves the FIFO or takes its head (R133). -/
theorem condJump_iq (taken : Word → Bool) (t : Operand) (s : State) :
    (condJump taken t s).state.iq = s.iq ∨ ∃ e, s.iq = e :: (condJump taken t s).state.iq := by
  cases hq : s.iq with
  | nil => exact .inl (by rw [condJump_empty taken t hq]; exact hq)
  | cons e rest =>
    cases ht : taken e with
    | true =>
      rw [condJump_taken t hq ht]
      have hjump := (jumpInline_within t (.refl [.op1, .pc] { s with iq := rest }) (by simp) (by simp)).changes
      have hrest : (jumpInline t { s with iq := rest }).state.iq = rest := hjump .iq (by decide)
      exact .inr ⟨e, by rw [hrest]⟩
    | false =>
      rw [condJump_untaken t hq ht, popTested]
      split
      · exact .inr ⟨e, rfl⟩
      · exact .inl hq

theorem condJump_iqOk (taken : Word → Bool) (t : Operand) {s : State} (h : s.iqOk) : (condJump taken t s).state.iqOk := by
  obtain ⟨hcodes, hdepth⟩ := h
  have hparams : (condJump taken t s).state.params = s.params := (condJump_within taken t s).changes .params (by decide)
  have hsuffix : (condJump taken t s).state.iq <:+ s.iq := by
    rcases condJump_iq taken t s with e | ⟨e, he⟩
    · rw [e]
    · exact he ▸ List.suffix_cons ..
  refine ⟨fun e he => hcodes e (hsuffix.subset he), fun d hd => ?_⟩
  exact hsuffix.length_le.trans (hdepth d (hparams ▸ hd))

theorem perform_iqOk (sig : Signal) {s : State} (h : s.iqOk) : (perform sig s).state.iqOk := by
  by_cases hw : .iq ∈ signalFootprint sig
  · rcases iq_mem_footprint.mp hw with rfl | rfl | rfl
    · exact aluCmpInterruptRequest_iqOk h
    · exact condJump_iqOk _ _ h
    · exact condJump_iqOk _ _ h
  · have hiq : (perform sig s).state.iq = s.iq := perform_onlyChanges sig s .iq hw
    have hparams : (perform sig s).state.params = s.params := (perform_same sig s).params
    simpa only [State.iqOk, hiq, hparams] using h

theorem perform_contentsOk (sig : Signal) {s : State} (h : ContentsOk s) : ContentsOk (perform sig s).state := by
  obtain ⟨bounds, mem, regs, iq⟩ := h
  have hparams : (perform sig s).state.params = s.params := (perform_same sig s).params
  have himem : (perform sig s).state.imem = s.imem := (perform_same sig s).imem
  exact ⟨by simpa only [State.boundsOk, hparams, himem] using bounds, perform_memOk sig mem, perform_regs_wf sig regs,
    perform_iqOk sig iq⟩

/-! ### The cursor -/

/-- What `State.fieldsDecoded` asks once the first signal `o` of the active microprogram has run (R44). -/
def DecodedBy (o : Option Signal) (s : State) : Prop :=
  match o with
  | some .decodeOperandsRRR =>
    s.op1.isSome ∧ s.op2.isSome ∧ s.dest.isSome ∧ s.op1 = s.tok 1 ∧ s.op2 = s.tok 2 ∧ s.dest = s.tok 3
  | some .decodeOperandsRR => s.op1.isSome ∧ s.op2.isSome ∧ s.op1 = s.tok 1 ∧ s.op2 = s.tok 2
  | some .decodeOperandsRImm => s.op1.isSome ∧ s.dest.isSome ∧ s.dest = s.tok 1 ∧ s.op1 = s.tok 2
  | some .decodeOperandsRRdest => s.op1.isSome ∧ s.dest.isSome ∧ s.op1 = s.tok 1 ∧ s.dest = s.tok 2
  | some .decodeOperandAddr => s.op1.isSome ∧ s.op1 = s.tok 1
  | _ => True

/-- What the invariant asks of the latches where the cursor is at `n` in the microprogram of `k`. -/
def SuitsCursor (k : Key) (n : Nat) (s : State) : Prop :=
  { s with active := some k, upc := n }.fieldsDecoded ∧ { s with active := some k, upc := n }.fetchProgress

theorem suitsCursor_fetch {n : Nat} {s : State} : SuitsCursor .fetch n s ↔
    (n = 1 → s.mar = s.pc) ∧ (2 ≤ n → s.pc = s.mar + 1 ∧ s.imemRead s.mar = some s.ir ∧ isBlank s.ir = false) :=
  ⟨fun h => h.2, fun h => ⟨fun _ => trivial, h⟩⟩

theorem suitsCursor_of_ne {k : Key} (hk : k ≠ .fetch) {n : Nat} {s : State} : SuitsCursor k n s ↔
    (0 < n → DecodedBy (microprogram k).head? s) ∧ (tokens s.ir).head? = some k.name := by
  cases k with
  | fetch => exact absurd rfl hk
  | _ => exact Iff.rfl

/-- At its first signal a microprogram asks only for its name in `ir`, and FETCH for nothing. -/
theorem suitsCursor_zero {k : Key} {s : State} (h : k ≠ .fetch → (tokens s.ir).head? = some k.name) :
    SuitsCursor k 0 s := by
  by_cases hk : k = .fetch
  · subst hk
    exact suitsCursor_fetch.mpr ⟨nofun, nofun⟩
  · exact (suitsCursor_of_ne hk).mpr ⟨nofun, h hk⟩

theorem DecodedBy.of_eq {o : Option Signal} {s t : State} (h : DecodedBy o s) (hir : t.ir = s.ir) (h1 : t.op1 = s.op1)
    (h2 : t.op2 = s.op2) (hd : t.dest = s.dest) : DecodedBy o t := by
  simpa only [DecodedBy, State.tok, hir, h1, h2, hd] using h

theorem needToken_eq_next {i : Nat} {o : Operand} {s t : State} {k : Token → SigResult} :
    needToken i o s k = .next t ↔ ∃ x, o = some x ∧ k x = .next t := by
  cases o <;> simp

/-- A decode signal that goes on has put the tokens of `ir` into its fields (R111 to R115). -/
theorem decodedBy_of_perform {sig : Signal} {s t : State} (h : perform sig s = .next t) : DecodedBy (some sig) t := by
  cases sig with
  | decodeOperandsRRR =>
    simp only [perform, decodeOperandsRRR, needToken_eq_next, SigResult.next.injEq] at h
    obtain ⟨a, ha, b, hb, d, hd, rfl⟩ := h
    exact ⟨rfl, rfl, rfl, ha.symm, hb.symm, hd.symm⟩
  | decodeOperandsRR =>
    simp only [perform, decodeOperandsRR, needToken_eq_next, SigResult.next.injEq] at h
    obtain ⟨a, ha, b, hb, rfl⟩ := h
    exact ⟨rfl, rfl, ha.symm, hb.symm⟩
  | decodeOperandsRImm =>
    simp only [perform, decodeOperandsRImm, needToken_eq_next, SigResult.next.injEq] at h
    obtain ⟨d, hd, i, hi, rfl⟩ := h
    exact ⟨rfl, rfl, hd.symm, hi.symm⟩
  | decodeOperandsRRdest =>
    simp only [perform, decodeOperandsRRdest, needToken_eq_next, SigResult.next.injEq] at h
    obtain ⟨a, ha, d, hd, rfl⟩ := h
    exact ⟨rfl, rfl, ha.symm, hd.symm⟩
  | decodeOperandAddr =>
    simp only [perform, decodeOperandAddr, needToken_eq_next, SigResult.next.injEq] at h
    obtain ⟨a, ha, rfl⟩ := h
    exact ⟨rfl, ha.symm⟩
  | _ => trivial

/-- After its first signal no microprogram writes a decode field. -/
theorem decodeFields_notMem_footprint (k : Key) : ∀ sig ∈ (microprogram k).tail,
    ∀ f ∈ [StateField.op1, .op2, .dest], f ∉ signalFootprint sig := by
  cases k <;> decide

/-- A signal of a microprogram other than FETCH leaves a suitable state suitable to the cursor where it was. -/
theorem suitsCursor_state {k : Key} (hk : k ≠ .fetch) {n : Nat} {sig : Signal} {s : State}
    (hsig : (microprogram k)[n]? = some sig) (h : SuitsCursor k n s) : SuitsCursor k n (perform sig s).state := by
  obtain ⟨hdecoded, hname⟩ := (suitsCursor_of_ne hk).mp h
  have hchanges := perform_onlyChanges sig s
  have hir : (perform sig s).state.ir = s.ir := hchanges .ir (ir_notMem_footprint hk sig (List.mem_of_getElem? hsig))
  refine (suitsCursor_of_ne hk).mpr ⟨fun hn => ?_, by rw [hir]; exact hname⟩
  obtain ⟨m, rfl⟩ := Nat.exists_eq_succ_of_ne_zero hn.ne'
  have htail : sig ∈ (microprogram k).tail := List.mem_of_getElem? (i := m) (by rw [List.getElem?_tail]; exact hsig)
  have hfields := decodeFields_notMem_footprint k sig htail
  exact (hdecoded hn).of_eq hir (hchanges .op1 (hfields _ (by simp))) (hchanges .op2 (hfields _ (by simp)))
    (hchanges .dest (hfields _ (by simp)))

/-- The second signal of FETCH halts and changes nothing, or reads a line with a token (R108). -/
theorem memReadPcInc_cases (s : State) :
    memReadPcInc s = .halt (.endOfProgram s.mar) s ∨
    ∃ line, s.imemRead s.mar = some line ∧ isBlank line = false ∧
      memReadPcInc s = .next { s with mbr := Config.fetchDigest line, ir := line, pc := s.pc + 1 } := by
  cases hline : s.imemRead s.mar with
  | none => exact .inl (memReadPcInc_end (.inl hline))
  | some line =>
    cases hblank : isBlank line with
    | true => exact .inl (memReadPcInc_end (.inr ⟨line, hline, hblank⟩))
    | false => exact .inr ⟨line, rfl, hblank, memReadPcInc_line hline hblank⟩

/-- `Decode` activates or halts, and changes nothing (R110). -/
theorem decodeSignal_cases (s : State) :
    (∃ k, decodeSignal s = .activate k s) ∨ ∃ c, decodeSignal s = .halt c s := by
  unfold decodeSignal
  split
  · exact .inl ⟨_, rfl⟩
  · exact .inr ⟨_, rfl⟩
  · exact .inr ⟨_, rfl⟩

/-- A signal of FETCH that goes on suits the state to the next cursor (R28). -/
theorem suitsCursor_fetch_next {n : Nat} {sig : Signal} {s t : State} (hsig : (microprogram .fetch)[n]? = some sig)
    (hs : SuitsCursor .fetch n s) (h : perform sig s = .next t) : SuitsCursor .fetch (n + 1) t := by
  obtain ⟨hone, htwo⟩ := suitsCursor_fetch.mp hs
  refine suitsCursor_fetch.mpr ?_
  rcases fetch_signal_cases hsig with ⟨rfl, rfl⟩ | ⟨rfl, rfl⟩ | ⟨rfl, rfl⟩ | ⟨rfl, rfl⟩
  · cases h
    exact ⟨fun _ => rfl, nofun⟩
  · rcases memReadPcInc_cases s with e | ⟨line, hline, hblank, e⟩ <;> cases e.symm.trans h
    exact ⟨nofun, fun _ => ⟨congrArg (· + 1) (hone rfl).symm, hline, hblank⟩⟩
  · cases h
    exact ⟨nofun, fun _ => htwo (Nat.le_refl 2)⟩
  · rcases decodeSignal_cases s with ⟨k, e⟩ | ⟨c, e⟩ <;> cases e.symm.trans h

/-- A signal of FETCH that halts has changed nothing (R108, R110). -/
theorem fetch_halt_eq {n : Nat} {sig : Signal} {s t : State} {c : HaltCause}
    (hsig : (microprogram .fetch)[n]? = some sig) (h : perform sig s = .halt c t) : t = s := by
  rcases fetch_signal_cases hsig with ⟨-, rfl⟩ | ⟨-, rfl⟩ | ⟨-, rfl⟩ | ⟨-, rfl⟩
  · cases h
  · rcases memReadPcInc_cases s with e | ⟨line, -, -, e⟩ <;> cases e.symm.trans h
    rfl
  · cases h
  · rcases decodeSignal_cases s with ⟨k, e⟩ | ⟨c, e⟩ <;> cases e.symm.trans h
    rfl

theorem suitsCursor_next {k : Key} {n : Nat} {sig : Signal} {s t : State} (hsig : (microprogram k)[n]? = some sig)
    (hs : SuitsCursor k n s) (h : perform sig s = .next t) : SuitsCursor k (n + 1) t := by
  by_cases hk : k = .fetch
  · subst hk
    exact suitsCursor_fetch_next hsig hs h
  have hstate : SuitsCursor k n t := by simpa only [h, SigResult.state] using suitsCursor_state hk hsig hs
  obtain ⟨hdecoded, hname⟩ := (suitsCursor_of_ne hk).mp hstate
  refine (suitsCursor_of_ne hk).mpr ⟨fun _ => ?_, hname⟩
  rcases Nat.eq_zero_or_pos n with rfl | hn
  · rw [List.head?_eq_getElem?, hsig]
    exact decodedBy_of_perform h
  · exact hdecoded hn

theorem suitsCursor_halt {k : Key} {n : Nat} {sig : Signal} {s t : State} {c : HaltCause}
    (hsig : (microprogram k)[n]? = some sig) (hs : SuitsCursor k n s) (h : perform sig s = .halt c t) :
    SuitsCursor k n t := by
  by_cases hk : k = .fetch
  · subst hk
    exact fetch_halt_eq hsig h ▸ hs
  · simpa only [h, SigResult.state] using suitsCursor_state hk hsig hs

/-! ### The sequencer -/

/-- The clauses of the invariant about the cursor. -/
structure SequencerOk (s : State) : Prop where
  cursor : s.cursorOk
  fields : s.fieldsDecoded
  fetch : s.fetchProgress

theorem sequencerOk_idle {s : State} (ha : s.active = none) (hu : s.upc = 0) : SequencerOk s := by
  constructor
  · simpa only [State.cursorOk, ha] using hu
  · simp only [State.fieldsDecoded, ha]
  · simp only [State.fetchProgress, ha]

theorem sequencerOk_iff {s : State} {k : Key} (ha : s.active = some k) : SequencerOk s ↔
    k.present s.params.logicExt = true ∧ s.upc < (microprogram k).length ∧ SuitsCursor k s.upc s := by
  have hself : { s with active := some k, upc := s.upc } = s := by rw [← ha]
  have hcursor : s.cursorOk ↔ k.present s.params.logicExt = true ∧ s.upc < (microprogram k).length := by
    simp only [State.cursorOk, ha]
  rw [SuitsCursor, hself]
  exact ⟨fun ⟨c, f, g⟩ => ⟨(hcursor.mp c).1, (hcursor.mp c).2, f, g⟩, fun ⟨p, l, f, g⟩ => ⟨hcursor.mpr ⟨p, l⟩, f, g⟩⟩

theorem microprogram_length_pos (k : Key) : 0 < (microprogram k).length := by
  cases k <;> decide

/-- A microprogram of the control store, just activated. -/
theorem sequencerOk_activated {s : State} {k : Key} (hp : k.present s.params.logicExt = true)
    (hname : k ≠ .fetch → (tokens s.ir).head? = some k.name) : SequencerOk (s.activated k) :=
  (sequencerOk_iff rfl).mpr ⟨hp, microprogram_length_pos k, suitsCursor_zero hname⟩

theorem activateFetch_sequencerOk {s : State} (h : SequencerOk s) : SequencerOk s.activateFetch := by
  unfold State.activateFetch
  split
  · exact sequencerOk_activated (present_fetch _) fun hk => absurd rfl hk
  · exact h

/-- The sequencer's reaction to each outcome of the signal at the cursor (R102). -/
theorem applyResult_sequencerOk {s : State} {k : Key} {sig : Signal} (ha : s.active = some k)
    (hsig : (microprogram k)[s.upc]? = some sig) (h : SequencerOk s) :
    SequencerOk (applyResult (microprogram k).length (perform sig s)) := by
  obtain ⟨hpresent, hlt, hsuits⟩ := (sequencerOk_iff ha).mp h
  have hactive : (perform sig s).state.active = s.active := (perform_same sig s).active
  have hupc : (perform sig s).state.upc = s.upc := (perform_same sig s).upc
  have hparams : (perform sig s).state.params = s.params := (perform_same sig s).params
  cases hr : perform sig s with
  | clear t => exact sequencerOk_idle rfl rfl
  | activate j t =>
    obtain ⟨rfl, hj, hname⟩ := (perform_within sig s).activates j t hr
    exact sequencerOk_activated hj fun _ => hname
  | halt c t =>
    simp only [hr, SigResult.state] at hactive hupc hparams
    have ht : SuitsCursor k s.upc t := suitsCursor_halt hsig hsuits hr
    refine (sequencerOk_iff (s := raiseHalt c t) (hactive.trans ha)).mpr ?_
    rw [raiseHalt_params, raiseHalt_upc, hparams, hupc]
    exact ⟨hpresent, hlt, ht⟩
  | next t =>
    simp only [hr, SigResult.state] at hactive hupc hparams
    have ht : SuitsCursor k (s.upc + 1) t := suitsCursor_next hsig hsuits hr
    simp only [applyResult, hupc]
    split
    · exact sequencerOk_idle rfl rfl
    · next hmore =>
      refine (sequencerOk_iff (s := { t with upc := s.upc + 1 }) (hactive.trans ha)).mpr ⟨?_, ?_, ht⟩
      · rwa [hparams]
      · exact Nat.lt_of_le_of_ne hlt hmore

/-! ### The events -/

theorem inv_iff {s : State} : s.Inv ↔ ContentsOk s ∧ SequencerOk s ∧ s.haltOk :=
  ⟨fun ⟨b, m, r, c, f, p, q, h⟩ => ⟨⟨b, m, r, q⟩, ⟨c, f, p⟩, h⟩,
    fun ⟨⟨b, m, r, q⟩, ⟨c, f, p⟩, h⟩ => ⟨b, m, r, c, f, p, q, h⟩⟩

/-- `halted` and `reason` are written together. -/
theorem applyResult_haltOk (len : Nat) {r : SigResult} (h : r.state.haltOk) : (applyResult len r).haltOk := by
  unfold State.haltOk at h ⊢
  rcases applyResult_halt_cases len r with ⟨hhalted, hreason⟩ | ⟨c, hhalted, hreason⟩
  · rw [hhalted, hreason, h]
  · rw [hhalted, hreason]
    rfl

theorem perform_haltOk (sig : Signal) {s : State} (h : s.haltOk) : (perform sig s).state.haltOk := by
  have hhalted : (perform sig s).state.halted = s.halted := (perform_same sig s).halted
  have hreason : (perform sig s).state.reason = s.reason := (perform_same sig s).reason
  simpa only [State.haltOk, hhalted, hreason] using h

theorem activateFetch_haltOk {s : State} (h : s.haltOk) : s.activateFetch.haltOk := by
  unfold State.activateFetch
  split <;> exact h

/-- A `Step` keeps the invariant: the signal at the cursor and the sequencer after it do. -/
theorem signalStep_keeps_inv {s t : State} (hs : s.Inv) (h : signalStep s = .next t) : t.Inv := by
  rcases signalStep_cases h with ⟨-, rfl⟩ | ⟨-, k, sig, hk, -, hsig, rfl⟩
  · exact hs
  obtain ⟨hcontents, hsequencer, hhalt⟩ := inv_iff.mp hs
  refine inv_iff.mpr ⟨?_, ?_, ?_⟩
  · have hfetch := hcontents.of_onlyChanges (activateFetch_onlyChanges s) (by decide)
    exact (perform_contentsOk sig hfetch).of_onlyChanges (applyResult_onlyChanges _ _) (by decide)
  · exact applyResult_sequencerOk hk hsig (activateFetch_sequencerOk hsequencer)
  · exact applyResult_haltOk _ (perform_haltOk sig (activateFetch_haltOk hhalt))

theorem loadProgram_keeps_inv {s : State} {p : List Text} (hp : p.length < 2 ^ 31) (hs : s.Inv) :
    (loadProgram p s).Inv := by
  obtain ⟨⟨hcapacity, -⟩, hmem, -⟩ := hs
  refine inv_iff.mpr ⟨⟨⟨hcapacity, hp⟩, hmem, .nil, nofun, fun _ _ => Nat.zero_le _⟩, sequencerOk_idle rfl rfl, rfl⟩

/-- No clause of the invariant is about the devices. -/
theorem deviceSupply_keeps_inv {s : State} (i : Nat) (v : Word) (hs : s.Inv) : (s.deviceSupply i v).Inv := by
  unfold State.deviceSupply
  split
  · exact hs
  · obtain ⟨b, m, r, c, f, p, q, h⟩ := hs
    exact ⟨b, m, r, c, f, p, q, h⟩

/-- Settles O7, by the three kinds of event. -/
theorem everyEventKeepsTheInvariant : Obligations.EveryEventKeepsTheInvariant := by
  intro e s t hp hs h
  cases e with
  | step => exact signalStep_keeps_inv hs h
  | loadProgram p =>
    cases h
    exact loadProgram_keeps_inv (hp p rfl) hs
  | deviceSupply i v =>
    cases h
    exact deviceSupply_keeps_inv i v hs

end Sys2Proof.Machine
end

section
/-! SUPPORT. A whole instruction is a number of events `Step` (log entry 8), so what every `Step` keeps, every instruction
keeps. -/

namespace Sys2Proof.Machine

/-! ### Runs of signals as events `Step` -/

/-- Two runs of `Step` one after the other are one. -/
theorem signalSteps_trans {n m : Nat} {s t u : State} (hst : signalSteps n s = .next t)
    (htu : signalSteps m t = .next u) : signalSteps (n + m) s = .next u :=
  (signalSteps_add hst).trans htu

theorem signalSteps_one {s t : State} (h : signalStep s = .next t) : signalSteps 1 s = .next t :=
  signalSteps_succ h

/-- The activation of FETCH costs no step (R101). -/
theorem signalStep_activateFetch {s : State} (hrun : s.halted = false) : signalStep s.activateFetch = signalStep s := by
  cases ha : s.active with
  | some k => rw [activateFetch_of_active ha]
  | none => simp [signalStep, State.activateFetch, ha, hrun]

theorem signalSteps_activateFetch {s : State} (hrun : s.halted = false) (n : Nat) :
    signalSteps (n + 1) s.activateFetch = signalSteps (n + 1) s := by
  simp only [signalSteps, signalStep_activateFetch hrun]

/-- Signals that stand from the cursor on in the active microprogram, performed by the sequencer until one of them ends
otherwise than `Next`, are events `Step`. -/
theorem runSignals_is_signalSteps {k : Key} {sigs later : List Signal} {s : State} (hrun : s.halted = false)
    (hk : s.active = some k) (hp : k.present s.params.logicExt = true)
    (hsigs : (microprogram k).drop s.upc = sigs ++ later) :
    ∃ n, signalSteps n s = .next (runSignals (microprogram k).length (sigs.map perform) s) := by
  induction sigs generalizing s with
  | nil => exact ⟨0, rfl⟩
  | cons sig rest ih =>
    have hsig : (microprogram k)[s.upc]? = some sig := by
      rw [← List.head?_drop, hsigs]
      rfl
    have hstep : signalStep s = .next (applyResult (microprogram k).length (perform sig s)) := by
      have hself : s.activateFetch = s := activateFetch_of_active hk
      rw [signalStep_of hrun (k := k) (sig := sig) (by rwa [hself]) (by rwa [hself]) (by rwa [hself]), hself]
    obtain ⟨hactive, hupc, hhalted, -, hparams, -⟩ := perform_same sig s
    simp only [List.map_cons, runSignals]
    cases hr : perform sig s with
    | next t =>
      simp only [hr, SigResult.state] at hstep hactive hupc hhalted hparams
      have hdrop : (microprogram k).drop (t.upc + 1) = rest ++ later := by
        rw [hupc, ← List.tail_drop, hsigs]
        rfl
      by_cases hlast : t.upc + 1 = (microprogram k).length
      · have hnil : rest = [] := by
          rw [hlast, List.drop_length] at hdrop
          exact (List.append_eq_nil_iff.mp hdrop.symm).1
        subst hnil
        exact ⟨1, signalSteps_one hstep⟩
      · have hmove : applyResult (microprogram k).length (.next t) = { t with upc := t.upc + 1 } := if_neg hlast
        simp only [hmove] at hstep ⊢
        obtain ⟨n, hn⟩ := ih (s := { t with upc := t.upc + 1 }) (hhalted.trans hrun) (hactive.trans hk)
          (hparams ▸ hp) hdrop
        exact ⟨1 + n, signalSteps_trans (signalSteps_one hstep) hn⟩
    | activate | clear | halt =>
      rw [hr] at hstep
      exact ⟨1, signalSteps_one hstep⟩

/-! ### The instruction that the text in `ir` is -/

/-- The operands that the signals of a microprogram ask for are the tokens of the text the instruction was read from. -/
theorem performOn_operandAt_instr (k : Key) (s : State) :
    ∀ sig ∈ microprogram k, performOn (operandAt (k.instr (tokens s.ir))) sig s = perform sig s := by
  rw [← List.forall_iff_forall_mem]
  cases k <;> (repeat' apply And.intro) <;> rfl

/-- Signals that do not write `ir` and agree on every state that holds the text of `s` run alike from `s`. -/
theorem runSignals_map_congr {len : Nat} {tok : Nat → Operand} {sigs : List Signal} {s : State}
    (hagree : ∀ sig ∈ sigs, ∀ u : State, u.ir = s.ir → performOn tok sig u = perform sig u)
    (hir : ∀ sig ∈ sigs, .ir ∉ signalFootprint sig) :
    runSignals len (sigs.map (performOn tok)) s = runSignals len (sigs.map perform) s := by
  induction sigs generalizing s with
  | nil => rfl
  | cons sig rest ih =>
    simp only [List.map_cons, runSignals, hagree sig List.mem_cons_self s rfl]
    cases hr : perform sig s with
    | activate | clear | halt => rfl
    | next t =>
      have ht : (perform sig s).state.ir = s.ir := perform_onlyChanges sig s .ir (hir sig List.mem_cons_self)
      rw [hr] at ht
      have hmove : (applyResult len (.next t)).ir = s.ir :=
        (applyResult_onlyChanges len (.next t) .ir (by decide)).trans ht
      exact ih (fun g hg u hu => hagree g (List.mem_cons_of_mem _ hg) u (hu.trans hmove))
        fun g hg => hir g (List.mem_cons_of_mem _ hg)

/-- The instruction that the text in `ir` is, as events `Step` of its microprogram. -/
theorem exec_is_signalSteps {s t : State} {i : Instr} (hrun : s.halted = false)
    (hi : decode s.params.logicExt s.ir = .instr i) (h : exec i s = .next t) :
    ∃ n, signalSteps n (s.activated i.key) = .next t := by
  obtain ⟨-, hp, hinstr⟩ := decode_eq_instr hi
  rw [exec_eq_runProgram] at h
  cases h
  generalize i.key = k at *
  subst hinstr
  by_cases hk : k = .fetch
  · subst hk
    exact ⟨0, rfl⟩
  have hsigs : execSignals k = microprogram k := by
    cases k with
    | fetch => exact absurd rfl hk
    | _ => rfl
  rw [hsigs, runProgram, List.length_map, runSignals_map_congr]
  · exact runSignals_is_signalSteps (later := []) hrun rfl hp (by simp)
  · intro sig hsig u hu
    rw [activated_ir] at hu
    exact hu ▸ performOn_operandAt_instr k u sig hsig
  · exact ir_notMem_footprint hk

/-! ### A whole instruction -/

theorem signalStep_decode {s : State} (hrun : s.halted = false) (ha : s.active = some .fetch) (hu : s.upc = 3) :
    signalStep s = .next (applyResult 4 (decodeSignal s)) := by
  have hself : s.activateFetch = s := activateFetch_of_active ha
  rw [signalStep_of hrun (k := .fetch) (sig := .decode) (by rwa [hself]) (present_fetch _) (by rw [hself, hu]; rfl), hself]
  rfl

/-- `Decode` and the instruction it activates, as events `Step`. -/
theorem decodeAndRun_is_signalSteps {s t : State} (hrun : s.halted = false) (ha : s.active = some .fetch)
    (hu : s.upc = 3) (h : decodeAndRun s = .next t) : ∃ n, signalSteps (1 + n) s = .next t := by
  have hstep := signalStep_decode hrun ha hu
  unfold decodeSignal at hstep
  unfold decodeAndRun at h
  cases hd : decode s.params.logicExt s.ir with
  | instr i =>
    rw [hd] at h hstep
    obtain ⟨n, hn⟩ := exec_is_signalSteps hrun hd h
    exact ⟨n, signalSteps_trans (signalSteps_one hstep) hn⟩
  | blank | unrecognized m =>
    rw [hd] at h hstep
    cases h
    exact ⟨0, signalSteps_one hstep⟩

theorem fetchLine_eq_runSignals (s : State) : fetchLine s = runSignals (microprogram .fetch).length
    ([Signal.pcOutMarIn, .memReadPcInc, .mbrOutIrIn].map perform) (s.activated .fetch) := rfl

/-- The fetch either halts or leaves the machine running at `Decode`. -/
theorem fetchLine_cases {s : State} (hrun : s.halted = false) :
    (fetchLine s).halted = true ∨
    (fetchLine s).halted = false ∧ (fetchLine s).active = some .fetch ∧ (fetchLine s).upc = 3 := by
  cases hline : s.imemRead s.pc with
  | none => exact .inl (by rw [fetchLine_end (.inl hline)]; rfl)
  | some line =>
    cases hblank : isBlank line with
    | true => exact .inl (by rw [fetchLine_end (.inr ⟨line, hline, hblank⟩)]; rfl)
    | false =>
      rw [fetchLine_line hline hblank]
      exact .inr ⟨hrun, rfl, rfl⟩

theorem instructionStep_is_signalSteps {s t : State} (hrun : s.halted = false) (hb : s.atBoundary = true)
    (h : instructionStep s = .next t) : ∃ n, signalSteps n s = .next t := by
  obtain ⟨n, hfetch⟩ : ∃ n, signalSteps n s.activateFetch = .next (fetchLine s) := by
    rw [activateFetch_of_boundary hb, fetchLine_eq_runSignals]
    exact runSignals_is_signalSteps (later := [.decode]) hrun rfl (present_fetch _) rfl
  unfold instructionStep at h
  rcases fetchLine_cases hrun with hhalt | ⟨hgo, ha, hu⟩
  · rw [if_pos hhalt] at h
    cases h
    refine ⟨n + 1, ?_⟩
    rw [← signalSteps_activateFetch hrun]
    exact signalSteps_trans hfetch (signalSteps_one (signalStep_halted hhalt))
  · rw [hgo, if_neg Bool.false_ne_true] at h
    obtain ⟨m, hm⟩ := decodeAndRun_is_signalSteps hgo ha hu h
    refine ⟨n + m + 1, ?_⟩
    rw [← signalSteps_activateFetch hrun, Nat.add_assoc, Nat.add_comm m 1]
    exact signalSteps_trans hfetch hm

theorem runToBoundary_is_signalSteps {fuel : Nat} {s t : State} (h : runToBoundary fuel s = .next t) :
    ∃ n, signalSteps n s = .next t := by
  induction fuel generalizing s with
  | zero => exact ⟨0, h⟩
  | succ fuel ih =>
    unfold runToBoundary at h
    split at h
    · exact ⟨0, h⟩
    · split at h
      · next u hu =>
        obtain ⟨n, hn⟩ := ih h
        exact ⟨1 + n, signalSteps_trans (signalSteps_one hu) hn⟩
      · cases h
      · cases h

/-- The model's two grains: a whole instruction is a number of events `Step`. -/
theorem step_is_signalSteps {s t : State} (h : step s = .next t) : ∃ n, signalSteps n s = .next t := by
  unfold step at h
  split at h
  · exact ⟨0, h⟩
  · next hrun =>
    split at h
    · next hb => exact instructionStep_is_signalSteps (by simpa using hrun) hb h
    · exact runToBoundary_is_signalSteps h

/-- What every `Step` keeps, any number of them keeps. -/
theorem signalSteps_keeps {P : State → Prop} (hstep : ∀ {s t : State}, P s → signalStep s = .next t → P t) {n : Nat}
    {s t : State} (hs : P s) (h : signalSteps n s = .next t) : P t := by
  induction n generalizing s with
  | zero =>
    cases h
    exact hs
  | succ n ih =>
    unfold signalSteps at h
    split at h
    · next u hu => exact ih (hstep hs hu) h
    · cases h
    · cases h

/-- Settles O8: a whole instruction is a number of events `Step`, and each of them keeps the invariant. -/
theorem everyInstructionStepKeepsTheInvariant : Obligations.EveryInstructionStepKeepsTheInvariant := by
  intro s t hs h
  obtain ⟨n, hn⟩ := step_is_signalSteps h
  exact signalSteps_keeps signalStep_keeps_inv hs hn

end Sys2Proof.Machine
end

section
/-! SUPPORT. What the invariant gives at single signals: power-on has it, no decode field is read empty, the increment of
`pc` does not wrap. -/

namespace Sys2Proof.Machine

/-! ### Power-on -/

theorem imemRead_of_imem_nil {s : State} (h : s.imem = []) (a : Word) : s.imemRead a = none := by
  simp [State.imemRead, h]

/-- Settles O13: the register file, the data memory and the program of power-on are empty lists. -/
theorem powerOnLeavesEverythingClear : Obligations.PowerOnLeavesEverythingClear := by
  intro p ds s
  refine ⟨rfl, rfl, rfl, rfl, rfl, rfl, rfl, rfl, rfl, rfl, rfl, rfl, rfl, rfl, rfl, fun n => ⟨rfl, rfl⟩, fun a => rfl,
    fun a => ?_⟩
  exact imemRead_of_imem_nil rfl a

/-- Power-on has the invariant for every choice of devices, where the capacity is in the range of R5. -/
theorem powerOn_inv {p : Params} (hp : p.ok) (ds : List Device) : (State.powerOn p ds).Inv := by
  have hcontents : ContentsOk (State.powerOn p ds) := ⟨⟨hp, Nat.two_pow_pos 31⟩, ⟨⟨.nil, nofun⟩, nofun⟩, .nil, nofun,
    fun _ _ => Nat.zero_le _⟩
  exact inv_iff.mpr ⟨hcontents, sequencerOk_idle rfl rfl, rfl⟩

/-- Settles O6: reset is a power-on with 16 cells. -/
theorem invariantHoldsAtReset : Obligations.InvariantHoldsAtReset :=
  powerOn_inv (by decide) _

/-! ### The increment of `pc` -/

/-- The address of a line of the program can be incremented. -/
theorem toInt_add_one_of_imemRead {s : State} {a : Word} {line : Text} (h : s.imemRead a = some line)
    (hlen : s.imem.length < 2 ^ 31) : (a + 1).toInt = a.toInt + 1 := by
  obtain ⟨hnonneg, hlt, -⟩ := imemRead_eq_some h
  have hone : (1 : Word).toInt = 1 := rfl
  rw [BitVec.toInt_add, hone, Int.bmod_def]
  omega

/-- A `Step` at the second signal of FETCH. -/
theorem signalStep_memReadPcInc {s : State} (hrun : s.halted = false) (ha : s.active = some .fetch) (hu : s.upc = 1) :
    signalStep s = .next (applyResult 4 (memReadPcInc s)) := by
  have hself : s.activateFetch = s := activateFetch_of_active ha
  rw [signalStep_of hrun (k := .fetch) (sig := .memReadPcInc) (by rwa [hself]) (present_fetch _)
    (by rw [hself, hu]; rfl), hself]
  rfl

/-- Settles O12: the line was read at `mar = pc` inside a program of less than 2^31 lines. -/
theorem programCounterIncrementNeverWraps : Obligations.ProgramCounterIncrementNeverWraps := by
  intro s t hs hrun ha hu h hgo
  rw [signalStep_memReadPcInc hrun ha hu] at h
  cases h
  rcases memReadPcInc_cases s with e | ⟨line, hline, -, e⟩
  · rw [e] at hgo
    cases hgo
  have hmar : s.mar = s.pc := by
    have hfetch := hs.fetch
    rw [State.fetchProgress, ha] at hfetch
    exact hfetch.1 hu
  have hpc : (applyResult 4 (memReadPcInc s)).pc = (memReadPcInc s).state.pc :=
    applyResult_onlyChanges 4 (memReadPcInc s) .pc (by decide)
  rw [hpc, e]
  exact toInt_add_one_of_imemRead (hmar ▸ hline) hs.bounds.2

/-! ### The decode fields -/

/-- The cause of a signal's halt. -/
def SigResult.cause : SigResult → Option HaltCause
  | .halt c _ => some c
  | _ => none

theorem applyResult_reason (len : Nat) (r : SigResult) :
    (applyResult len r).reason = r.cause.or r.state.reason := by
  cases r with
  | next s =>
    simp only [applyResult]
    split <;> rfl
  | _ => rfl

/-- The halt of an empty decode field (R84): the cause that names token 0. -/
def emptyField : Option HaltCause := some (.operandMissing 0)

theorem needToken_cause {i : Nat} (hi : i ≠ 0) {o : Operand} {s : State} {k : Token → SigResult}
    (h : ∀ t, (k t).cause ≠ emptyField) : (needToken i o s k).cause ≠ emptyField := by
  cases o with
  | none => simpa [SigResult.cause, emptyField] using hi
  | some t => exact h t

theorem needField_cause {o : Option Token} (ho : o.isSome = true) {s : State} {k : Token → SigResult}
    (h : ∀ t, (k t).cause ≠ emptyField) : (needField o s k).cause ≠ emptyField := by
  obtain ⟨t, rfl⟩ := Option.isSome_iff_exists.mp ho
  exact h t

theorem needInt_cause {t : Token} {s : State} {k : Word → SigResult} (h : ∀ v, (k v).cause ≠ emptyField) :
    (needInt t s k).cause ≠ emptyField := by
  rcases needInt_cases t s k with e | ⟨v, -, e⟩ <;> rw [e]
  · simp [SigResult.cause, emptyField]
  · exact h v

theorem next_cause (s : State) : (SigResult.next s).cause ≠ emptyField := nofun

theorem aluToMbr_cause (op : AluOp) (a b : Word) (s : State) : (aluToMbr op a b s).cause ≠ emptyField := by
  unfold aluToMbr
  split <;> simp [SigResult.cause, emptyField]

theorem aluBinary_cause (op : AluOp) {s : State} (h : s.op1.isSome = true ∧ s.op2.isSome = true) :
    (aluBinary op s).cause ≠ emptyField :=
  needField_cause h.1 fun _ => needField_cause h.2 fun _ => aluToMbr_cause _ _ _ _

theorem addressToPc_cause {s : State} (h : s.op1.isSome = true) : (addressToPc s).cause ≠ emptyField :=
  needField_cause h fun _ => needInt_cause fun _ => nofun

theorem jumpInline_cause (t : Operand) (s : State) : (jumpInline t s).cause ≠ emptyField := by
  cases t with
  | none => simp [jumpInline, decodeOperandAddr, SigResult.cause, emptyField]
  | some x => exact addressToPc_cause rfl

theorem condJump_cause (taken : Word → Bool) (t : Operand) (s : State) : (condJump taken t s).cause ≠ emptyField := by
  unfold condJump
  split
  · exact next_cause s
  · split
    · exact jumpInline_cause _ _
    · exact next_cause _

theorem decodeSignal_cause {s : State} (h : isBlank s.ir = false) : (decodeSignal s).cause ≠ emptyField := by
  unfold decodeSignal
  split
  · nofun
  · next hd =>
    unfold decode at hd
    split at hd
    · next hnil => simp [isBlank, hnil] at h
    · split at hd <;> cases hd
  · simp [SigResult.cause, emptyField]

/-- The decode fields that a signal reads are filled, and `Decode` has a token 0. -/
def FieldsFilled (sig : Signal) (s : State) : Prop :=
  match sig with
  | .aluAdd | .aluSub | .aluMul | .aluDiv | .aluAnd | .aluOr | .aluXor | .aluCmpInterruptRequest =>
    s.op1.isSome = true ∧ s.op2.isSome = true
  | .aluNot | .immediateToMbr | .addressToMar | .addressToPc => s.op1.isSome = true
  | .mbrOutRegDestIn => s.dest.isSome = true
  | .decode => isBlank s.ir = false
  | _ => True

/-- A signal whose fields are filled does not halt for an empty one. -/
theorem perform_cause {sig : Signal} {s : State} (h : FieldsFilled sig s) : (perform sig s).cause ≠ emptyField := by
  cases sig with
  | pcOutMarIn | mbrOutIrIn => exact next_cause _
  | memReadPcInc =>
    rcases memReadPcInc_cases s with e | ⟨line, -, -, e⟩ <;> rw [perform, e] <;> simp [SigResult.cause, emptyField]
  | decode => exact decodeSignal_cause h
  | decodeOperandsRRR =>
    exact needToken_cause (by decide) fun _ => needToken_cause (by decide) fun _ => needToken_cause (by decide) fun _ =>
      next_cause _
  | decodeOperandsRR | decodeOperandsRImm | decodeOperandsRRdest =>
    exact needToken_cause (by decide) fun _ => needToken_cause (by decide) fun _ => next_cause _
  | decodeOperandAddr | reg1ToMbr => exact needToken_cause (by decide) fun _ => next_cause _
  | aluAdd => exact aluBinary_cause .add h
  | aluSub => exact aluBinary_cause .sub h
  | aluMul => exact aluBinary_cause .mul h
  | aluDiv => exact aluBinary_cause .div h
  | aluAnd => exact aluBinary_cause .and h
  | aluOr => exact aluBinary_cause .or h
  | aluXor => exact aluBinary_cause .xor h
  | aluNot => exact needField_cause h fun _ => aluToMbr_cause _ _ _ _
  | mbrOutRegDestIn => exact needField_cause h fun _ => next_cause _
  | immediateToMbr | addressToMar => exact needField_cause h fun _ => needInt_cause fun _ => next_cause _
  | memDataReadMbrIn | mbrOutMemDataWrite | accToBusWriteToDevice1 | readFromDevice0BusToAcc =>
    simp only [perform, memDataReadMbrIn, mbrOutMemDataWrite, accToBusWriteToDevice1, readFromDevice0BusToAcc]
    split <;> simp [SigResult.cause, emptyField]
  | addressToPc => exact addressToPc_cause h
  | condJumpIfZero | condJumpIfNotZero => exact condJump_cause _ _ _
  | aluCmpInterruptRequest => exact needField_cause h.1 fun _ => needField_cause h.2 fun _ => next_cause _
  | haltCpu | other => simp [perform, haltCpu, unknownSignal, SigResult.cause, emptyField]

/-- The first signal of a microprogram other than FETCH reads no decode field. -/
theorem fieldsFilled_head {k : Key} (hk : k ≠ .fetch) {sig : Signal} (h : (microprogram k)[0]? = some sig) (s : State) :
    FieldsFilled sig s := by
  cases k with
  | fetch => exact absurd rfl hk
  | _ =>
    cases h
    trivial

/-- The first signal of a microprogram fills the fields that its later signals read (R44). -/
theorem fieldsFilled_tail {k : Key} (hk : k ≠ .fetch) {s : State} (h : DecodedBy (microprogram k).head? s) :
    ∀ sig ∈ (microprogram k).tail, FieldsFilled sig s := by
  cases k with
  | fetch => exact absurd rfl hk
  | _ => grind [microprogram, DecodedBy, FieldsFilled]

/-- In FETCH only `Decode` needs something, the token 0 that the line read at the second signal has. -/
theorem fieldsFilled_fetch {n : Nat} {sig : Signal} {s : State} (hsig : (microprogram .fetch)[n]? = some sig)
    (h : SuitsCursor .fetch n s) : FieldsFilled sig s := by
  obtain ⟨-, hread⟩ := suitsCursor_fetch.mp h
  rcases fetch_signal_cases hsig with ⟨-, rfl⟩ | ⟨-, rfl⟩ | ⟨-, rfl⟩ | ⟨rfl, rfl⟩
  · trivial
  · trivial
  · trivial
  · exact (hread (by decide)).2.2

theorem fieldsFilled_of_suitsCursor {k : Key} {n : Nat} {sig : Signal} {s : State}
    (hsig : (microprogram k)[n]? = some sig) (h : SuitsCursor k n s) : FieldsFilled sig s := by
  by_cases hk : k = .fetch
  · subst hk
    exact fieldsFilled_fetch hsig h
  cases n with
  | zero => exact fieldsFilled_head hk hsig s
  | succ n =>
    have hdecoded := ((suitsCursor_of_ne hk).mp h).1 n.succ_pos
    exact fieldsFilled_tail hk hdecoded sig (List.mem_of_getElem? (i := n) (by rw [List.getElem?_tail]; exact hsig))

@[simp] theorem activateFetch_halted (s : State) : s.activateFetch.halted = s.halted := by
  unfold State.activateFetch
  split <;> rfl

/-- Settles O11: the invariant fills the fields of the signal at the cursor. -/
theorem noSignalReadsAnEmptyDecodeField : Obligations.NoSignalReadsAnEmptyDecodeField := by
  intro s t hs hrun h
  rcases signalStep_cases h with ⟨hhalted, -⟩ | ⟨-, k, sig, hk, -, hsig, rfl⟩
  · simp [hrun] at hhalted
  obtain ⟨-, hsequencer, hhalt⟩ := inv_iff.mp hs
  obtain ⟨-, -, hsuits⟩ := (sequencerOk_iff hk).mp (activateFetch_sequencerOk hsequencer)
  have hcause : (perform sig s.activateFetch).cause ≠ emptyField :=
    perform_cause (fieldsFilled_of_suitsCursor hsig hsuits)
  have hreason : (perform sig s.activateFetch).state.reason = none := by
    have hhalted : (perform sig s.activateFetch).state.halted = s.halted :=
      (perform_same sig _).halted.trans (activateFetch_halted s)
    have hok := perform_haltOk sig (activateFetch_haltOk hhalt)
    rw [State.haltOk, hhalted, hrun] at hok
    simpa using hok.symm
  rw [applyResult_reason, hreason, Option.or_none]
  exact hcause

end Sys2Proof.Machine
end

section
/-! SUPPORT. The register file, the data memory and the interrupt FIFO: what a register write leaves alone, one memory list
per content, the one register an instruction may write, and what a `Step` can do to the FIFO. -/

namespace Sys2Proof.Machine

/-! ### Registers -/

theorem entry_eq_none_of_notMem_names {r : RegFile} {n : Token} (h : n ∉ r.names) : r.entry n = none := by
  rw [← entry_isSome_iff_mem_names] at h
  simpa using h

/-- A read is of the entry, so equal entries read the same. -/
theorem read_eq_of_entry_eq {r q : RegFile} {n : Token} (h : r.entry n = q.entry n) : r.read n = q.read n := by
  rw [RegFile.read, RegFile.read, h]

/-- Settles O30, by the laws of the register file. -/
theorem registerWriteReadsBack : Obligations.RegisterWriteReadsBack := by
  intro s g n v
  refine ⟨read_write_same _ _ _, ?_, fun m hm => ?_, fun m hm => ?_, fun h => RegFile.wf_write _ _ h⟩
  · rw [← entry_isSome_iff_mem_names, writeReg_regs, entry_write_same]
    rfl
  · exact ⟨entry_write_other _ _ hm, read_write_other _ _ hm⟩
  · rw [State.readReg, RegFile.read, entry_eq_none_of_notMem_names hm]

/-! ### One memory per content -/

theorem Memory.wf_tail {c : Nat × Word} {m : Memory} (h : Memory.wf (c :: m)) : Memory.wf m :=
  ⟨(List.pairwise_cons.mp h.1).2, fun x hx => h.2 x (List.mem_cons_of_mem _ hx)⟩

theorem Memory.read_head (a : Nat) (v : Word) (m : Memory) : Memory.read ((a, v) :: m) a = v := if_pos rfl

/-- Above its first cell, a memory reads as its tail. -/
theorem Memory.read_tail {a b : Nat} (v : Word) (m : Memory) (h : a ≠ b) : Memory.read ((b, v) :: m) a = m.read a :=
  if_neg h

/-- Below and at its first cell, the tail lists nothing. -/
theorem Memory.read_tail_of_le {a b : Nat} {v : Word} {m : Memory} (h : Memory.wf ((b, v) :: m)) (hab : a ≤ b) :
    m.read a = Memory.unlisted :=
  Memory.read_of_lt fun c hc => hab.trans_lt ((List.pairwise_cons.mp h.1).1 c hc)

/-- Below its first cell, a memory lists nothing. -/
theorem Memory.read_of_lt_head {a b : Nat} {v : Word} {m : Memory} (h : Memory.wf ((b, v) :: m)) (hab : a < b) :
    Memory.read ((b, v) :: m) a = Memory.unlisted := by
  rw [Memory.read_tail v m hab.ne, Memory.read_tail_of_le h hab.le]

/-- The first listed cell is not 0. -/
theorem Memory.head_ne_unlisted {b : Nat} {v : Word} {m : Memory} (h : Memory.wf ((b, v) :: m)) :
    v ≠ Memory.unlisted := h.2 (b, v) List.mem_cons_self

/-- The first cell of a memory is not above the first cell of one that reads the same. -/
theorem Memory.head_le_of_read_eq {a b : Nat} {v w : Word} {m n : Memory} (hm : Memory.wf ((a, v) :: m))
    (hn : Memory.wf ((b, w) :: n)) (h : ∀ i, Memory.read ((a, v) :: m) i = Memory.read ((b, w) :: n) i) : a ≤ b := by
  by_contra hlt
  have hb := h b
  rw [Memory.read_of_lt_head hm (Nat.lt_of_not_le hlt), Memory.read_head] at hb
  exact Memory.head_ne_unlisted hn hb.symm

/-- Settles O33, by induction on both lists: their first cells are the same, and the tails read the same. -/
theorem equalContentsAreEqualMemories : Obligations.EqualContentsAreEqualMemories := by
  intro m n hm hn h
  induction m generalizing n with
  | nil =>
    cases n with
    | nil => rfl
    | cons c n =>
      obtain ⟨b, w⟩ := c
      exact absurd ((Memory.read_head b w n).symm.trans (h b).symm) (Memory.head_ne_unlisted hn)
  | cons c m ih =>
    obtain ⟨a, v⟩ := c
    cases n with
    | nil => exact absurd ((Memory.read_head a v m).symm.trans (h a)) (Memory.head_ne_unlisted hm)
    | cons c n =>
      obtain ⟨b, w⟩ := c
      obtain rfl : a = b :=
        Nat.le_antisymm (Memory.head_le_of_read_eq hm hn h) (Memory.head_le_of_read_eq hn hm fun i => (h i).symm)
      obtain rfl : v = w := by simpa only [Memory.read_head] using h a
      have htails : ∀ i, Memory.read m i = Memory.read n i := by
        intro i
        by_cases hi : i = a
        · rw [hi, Memory.read_tail_of_le hm le_rfl, Memory.read_tail_of_le hn le_rfl]
        · simpa only [Memory.read_tail v _ hi] using h i
      rw [ih n (Memory.wf_tail hm) (Memory.wf_tail hn) htails]

/-! ### The destination register -/

/-- A run of signals whose first one ends otherwise than `Next` is that signal; else it goes on after it. -/
theorem runSignals_cons_cases (len : Nat) (sig : State → SigResult) (rest : List (State → SigResult)) (s : State) :
    (∃ t, sig s = .next t ∧ runSignals len (sig :: rest) s = runSignals len rest (applyResult len (.next t))) ∨
    runSignals len (sig :: rest) s = applyResult len (sig s) := by
  cases hr : sig s with
  | next t => exact .inl ⟨t, rfl, by simp only [runSignals, hr]⟩
  | _ => exact .inr (by simp only [runSignals, hr])

/-- The operand position that a decode signal files under `dest` (R111, R113, R115). -/
def destPosition : Signal → Option Nat
  | .decodeOperandsRRR => some 3
  | .decodeOperandsRImm => some 1
  | .decodeOperandsRRdest => some 2
  | _ => none

theorem dest_of_destPosition {tok : Nat → Operand} {sig : Signal} {p : Nat} {s t : State}
    (hp : destPosition sig = some p) (h : performOn tok sig s = .next t) : t.dest = tok p := by
  cases sig with
  | decodeOperandsRRR =>
    cases hp
    simp only [performOn, decodeOperandsRRR, needToken_eq_next, SigResult.next.injEq] at h
    obtain ⟨a, -, b, -, d, hd, rfl⟩ := h
    exact hd.symm
  | decodeOperandsRImm =>
    cases hp
    simp only [performOn, decodeOperandsRImm, needToken_eq_next, SigResult.next.injEq] at h
    obtain ⟨d, hd, i, -, rfl⟩ := h
    exact hd.symm
  | decodeOperandsRRdest =>
    cases hp
    simp only [performOn, decodeOperandsRRdest, needToken_eq_next, SigResult.next.injEq] at h
    obtain ⟨a, -, d, hd, rfl⟩ := h
    exact hd.symm
  | _ => cases hp

/-- An instruction that writes back from `mbr` first files its destination under `dest`; no later signal changes the
field or writes another register. -/
theorem execSignals_of_writeBack {i : Instr} (h : .mbrOutRegDestIn ∈ execSignals i.key) :
    ∃ first p rest, execSignals i.key = first :: rest ∧ destPosition first = some p ∧
      operandAt i p = i.destination ∧ .regs ∉ signalFootprint first ∧
      ∀ sig ∈ rest, .dest ∉ signalFootprint sig ∧ (.regs ∈ signalFootprint sig → sig = .mbrOutRegDestIn) := by
  cases i with
  | store | inputChar | outputChar | jmp | cmp | je | jne | hlt | fetch => simp [Instr.key, execSignals, microprogram] at h
  | _ => exact ⟨_, _, _, rfl, rfl, rfl, by decide, by decide⟩

/-- The register `n` has the entry `e`, and `dest` does not name it. -/
def KeptOutOfDest (n : Token) (e : Option RegEntry) (s : State) : Prop := s.regs.entry n = e ∧ s.dest ≠ some n

theorem performOn_entry_of_regs {tok : Nat → Operand} {sig : Signal} {s : State} (n : Token)
    (h : .regs ∉ signalFootprint sig) : (performOn tok sig s).state.regs.entry n = s.regs.entry n :=
  congrArg (fun r : RegFile => r.entry n) ((performOn_within tok sig s).changes .regs h)

theorem mbrOutRegDestIn_entry {n : Token} {s : State} (h : s.dest ≠ some n) :
    (mbrOutRegDestIn s).state.regs.entry n = s.regs.entry n := by
  unfold mbrOutRegDestIn
  cases hd : s.dest with
  | none => rfl
  | some d => exact entry_write_other _ _ fun hn => h (hn ▸ hd)

theorem applyResult_keptOutOfDest (len : Nat) {n : Token} {e : Option RegEntry} {r : SigResult}
    (h : KeptOutOfDest n e r.state) : KeptOutOfDest n e (applyResult len r) := by
  have hregs : (applyResult len r).regs = r.state.regs := applyResult_onlyChanges len r .regs (by decide)
  have hdest : (applyResult len r).dest = r.state.dest := applyResult_onlyChanges len r .dest (by decide)
  simpa only [KeptOutOfDest, hregs, hdest] using h

theorem performOn_keptOutOfDest {tok : Nat → Operand} {sig : Signal} {n : Token} {e : Option RegEntry} {s : State}
    (hdest : .dest ∉ signalFootprint sig) (hregs : .regs ∈ signalFootprint sig → sig = .mbrOutRegDestIn)
    (h : KeptOutOfDest n e s) : KeptOutOfDest n e (performOn tok sig s).state := by
  obtain ⟨hentry, hname⟩ := h
  have hd : (performOn tok sig s).state.dest = s.dest := (performOn_within tok sig s).changes .dest hdest
  refine ⟨?_, by rwa [hd]⟩
  by_cases hw : .regs ∈ signalFootprint sig
  · rw [hregs hw]
    exact (mbrOutRegDestIn_entry hname).trans hentry
  · exact (performOn_entry_of_regs n hw).trans hentry

/-- An instruction that writes back from `mbr` keeps every register but its destination. -/
theorem runProgram_entry_of_writeBack {i : Instr} {n : Token} (h : .mbrOutRegDestIn ∈ execSignals i.key)
    (hn : i.destination ≠ some n) (len : Nat) (s : State) :
    (runSignals len ((execSignals i.key).map (performOn (operandAt i))) s).regs.entry n = s.regs.entry n := by
  obtain ⟨first, p, rest, hsignals, hp, hdestination, hfirstRegs, hrest⟩ := execSignals_of_writeBack h
  have hfirst : (performOn (operandAt i) first s).state.regs.entry n = s.regs.entry n :=
    performOn_entry_of_regs n hfirstRegs
  rw [hsignals, List.map_cons]
  rcases runSignals_cons_cases len (performOn (operandAt i) first) (rest.map (performOn (operandAt i))) s with
    ⟨t, ht, e⟩ | e <;> rw [e]
  · rw [ht] at hfirst
    have hdest : t.dest ≠ some n := by rwa [dest_of_destPosition hp ht, hdestination]
    have hstart : KeptOutOfDest n (s.regs.entry n) (applyResult len (.next t)) :=
      applyResult_keptOutOfDest len ⟨hfirst, hdest⟩
    refine (runSignals_keeps (P := KeptOutOfDest n (s.regs.entry n)) len _ ?_
      (fun _ => applyResult_keptOutOfDest len) hstart).1
    intro f hf u hu
    obtain ⟨sig, hsig, rfl⟩ := List.mem_map.mp hf
    exact performOn_keptOutOfDest (hrest sig hsig).1 (hrest sig hsig).2 hu
  · have hregs := applyResult_onlyChanges len (performOn (operandAt i) first s) .regs (by decide)
    exact (congrArg (fun r : RegFile => r.entry n) hregs).trans hfirst

/-- Only a write back from `mbr` and INPUT_CHAR write a register (R26). -/
theorem regs_notMem_execFootprint {k : Key} (hwrite : .mbrOutRegDestIn ∉ execSignals k) (hinput : k ≠ .inputChar) :
    .regs ∉ execFootprint k := by
  revert hwrite hinput
  cases k <;> decide

/-- The device's value goes to ACC and to no other register (R131). -/
theorem readFromDevice0BusToAcc_entry {n : Token} (hn : n ≠ accName) (s : State) :
    (readFromDevice0BusToAcc s).state.regs.entry n = s.regs.entry n := by
  unfold readFromDevice0BusToAcc
  split
  · rfl
  · next h =>
    obtain ⟨d, -, -, rfl⟩ := devRead_eq_some h
    exact entry_write_other _ _ hn

theorem execInputChar_entry {n : Token} (hn : n ≠ accName) {s t : State} (h : exec .inputChar s = .next t) :
    t.regs.entry n = s.regs.entry n := by
  cases h
  refine runSignals_keeps (P := fun u => u.regs.entry n = s.regs.entry n) 1 [readFromDevice0BusToAcc] ?_ ?_ rfl
  · intro f hf u hu
    obtain rfl := List.mem_singleton.mp hf
    exact (readFromDevice0BusToAcc_entry hn u).trans hu
  · intro r hr
    have hregs := applyResult_onlyChanges 1 r .regs (by decide)
    exact (congrArg (fun q : RegFile => q.entry n) hregs).trans hr

theorem exec_entry {i : Instr} {s t : State} {n : Token} (h : exec i s = .next t) (hn : i.destination ≠ some n) :
    t.regs.entry n = s.regs.entry n := by
  by_cases hwrite : .mbrOutRegDestIn ∈ execSignals i.key
  · rw [exec_eq_runProgram] at h
    cases h
    exact runProgram_entry_of_writeBack hwrite hn _ _
  by_cases hinput : i.key = .inputChar
  · cases i with
    | inputChar => exact execInputChar_entry (fun e => hn (congrArg some e.symm)) h
    | _ => cases hinput
  · have hregs := exec_onlyChanges h .regs (regs_notMem_execFootprint hwrite hinput)
    exact congrArg (fun r : RegFile => r.entry n) hregs

/-- Settles O54: the entry of another register is kept, and a read is of the entry. -/
theorem onlyTheDestinationRegisterChanges : Obligations.OnlyTheDestinationRegisterChanges := by
  intro i s t n h hn
  have hentry : t.regs.entry n = s.regs.entry n := exec_entry h hn
  exact ⟨hentry, read_eq_of_entry_eq hentry⟩

/-! ### The interrupt FIFO -/

theorem aluCmpInterruptRequest_iq (s : State) : (aluCmpInterruptRequest s).state.iq = s.iq ∨
    ∃ a b, (aluCmpInterruptRequest s).state.iq = fifoRequest s.params.iqDepth s.iq (compareWords a b) := by
  unfold aluCmpInterruptRequest
  cases s.op1 with
  | none => exact .inl rfl
  | some a =>
    cases s.op2 with
    | none => exact .inl rfl
    | some b => exact .inr ⟨s.readReg a, s.readReg b, rfl⟩

/-- What a signal can do to the FIFO: leave it, take its head, or, for CMP's request, ask for one entry more. -/
theorem perform_iq (sig : Signal) (s : State) : (perform sig s).state.iq = s.iq ∨
    (∃ e, s.iq = e :: (perform sig s).state.iq) ∨
    (sig = .aluCmpInterruptRequest ∧
      ∃ a b, (perform sig s).state.iq = fifoRequest s.params.iqDepth s.iq (compareWords a b)) := by
  by_cases hw : .iq ∈ signalFootprint sig
  · rcases iq_mem_footprint.mp hw with rfl | rfl | rfl
    · exact (aluCmpInterruptRequest_iq s).imp_right fun h => .inr ⟨rfl, h⟩
    · exact (condJump_iq _ _ s).imp_right .inl
    · exact (condJump_iq _ _ s).imp_right .inl
  · exact .inl (perform_onlyChanges sig s .iq hw)

/-- Only CMP's microprogram holds the signal that requests. -/
theorem cmp_of_request_mem {k : Key} (h : .aluCmpInterruptRequest ∈ microprogram k) : k = .cmp := by
  revert h
  cases k <;> decide

theorem active_of_activateFetch {s : State} {k : Key} (hk : k ≠ .fetch) (h : s.activateFetch.active = some k) :
    s.active = some k := by
  cases ha : s.active with
  | none =>
    rw [State.activateFetch, ha, activated_active] at h
    cases h
    exact absurd rfl hk
  | some j => rwa [activateFetch_of_active ha, ha] at h

/-- A request, in the words of R249: one entry more where there is room, and where there is none a choice of log
entry 14. -/
theorem fifoRequest_spec (depth : Option Nat) (iq : List Word) (c : Word) :
    ((∀ d : Nat, depth = some d → iq.length < d) ∧ fifoRequest depth iq c = iq ++ [c]) ∨
    (∃ d : Nat, depth = some d ∧ d ≤ iq.length ∧ (fifoRequest depth iq c).Sublist (iq ++ [c]) ∧
      (fifoRequest depth iq c).length ≤ d) := by
  rcases fifoRequest_cases depth iq c with ⟨hroom, e⟩ | ⟨d, hd, hfull, e⟩ <;> rw [e]
  · refine .inl ⟨fun d hd => ?_, rfl⟩
    subst hd
    simpa using hroom
  · obtain ⟨hsub, hlen⟩ := fullFifo_spec d iq c
    exact .inr ⟨d, hd, hfull, hsub, hlen⟩

/-- Settles O58: the FIFO after a `Step` is what the signal at the cursor has made of it. -/
theorem fifoGrowsAtItsTailAndShrinksAtItsHead : Obligations.FifoGrowsAtItsTailAndShrinksAtItsHead := by
  intro s t h
  rcases signalStep_cases h with ⟨-, rfl⟩ | ⟨-, k, sig, hk, -, hsig, rfl⟩
  · exact .inl rfl
  have hfetch : s.activateFetch.iq = s.iq := activateFetch_onlyChanges s .iq (by decide)
  have hparams : s.activateFetch.params = s.params := activateFetch_onlyChanges s .params (by decide)
  have hseq : (applyResult (microprogram k).length (perform sig s.activateFetch)).iq =
      (perform sig s.activateFetch).state.iq := applyResult_onlyChanges _ _ .iq (by decide)
  rw [hseq, ← hfetch, ← hparams]
  refine (perform_iq sig s.activateFetch).imp_right (Or.imp_right ?_)
  rintro ⟨rfl, a, b, hrequest⟩
  obtain rfl : k = .cmp := cmp_of_request_mem (List.mem_of_getElem? hsig)
  refine ⟨active_of_activateFetch (by decide) hk, compareWords a b, compareWords_cases a b, ?_⟩
  rw [hrequest]
  exact fifoRequest_spec _ _ _

end Sys2Proof.Machine
end

section
/-! SUPPORT. Noninterference: what no rule reads may be hidden from the machine. One hidden view covers the provenance texts
and the flags; every level of the machine, from a signal to a whole instruction, takes states that look alike under it to
outcomes that look alike. -/

namespace Sys2Proof.Machine

/-! ### The hidden view -/

/-- The state with its register file seen through `g` and its flags through `h`. -/
def State.hide (g : RegFile → RegFile) (h : Flags → Flags) (s : State) : State :=
  { s with regs := g s.regs, flags := h s.flags }

/-- What makes `g` and `h` a view that no rule can see through: they hide once and for all, and they let the values of the
registers through. -/
structure Hiding (g : RegFile → RegFile) (h : Flags → Flags) : Prop where
  regs_idem : ∀ r, g (g r) = g r
  flags_idem : ∀ f, h (h f) = h f
  read : ∀ (r : RegFile) (n : Token), (g r).read n = r.read n
  write : ∀ (r : RegFile) (n : Token) (e : RegEntry), g ((g r).write n e) = g (r.write n e)

/-- The outcome of a signal with its state seen through `f`. -/
def SigResult.seen (f : State → State) : SigResult → SigResult
  | .next s => .next (f s)
  | .activate k s => .activate k (f s)
  | .clear s => .clear (f s)
  | .halt c s => .halt c (f s)

section Levels

variable {g : RegFile → RegFile} {h : Flags → Flags}

/-! ### What commutes with hiding, whatever is hidden -/

theorem applyResult_hide (len : Nat) (r : SigResult) :
    (applyResult len r).hide g h = applyResult len (r.seen (State.hide g h)) := by
  cases r with
  | next s =>
    simp only [applyResult, SigResult.seen, State.hide]
    split <;> rfl
  | _ => rfl

theorem activateFetch_hide (s : State) : (s.hide g h).activateFetch = s.activateFetch.hide g h := by
  cases ha : s.active <;> simp [State.activateFetch, State.hide, State.activated, ha]

/-- States that look alike agree on every field but the registers and the flags. -/
theorem get_eq_of_hide_eq {s u : State} (hsu : s.hide g h = u.hide g h) {f : StateField} (hf : f ∉ [.regs, .flags]) :
    s.get f = u.get f := by
  have hget := congrArg (fun v : State => v.get f) hsu
  cases f with
  | regs | flags => simp at hf
  | _ => exact hget

theorem currentSignal_hide (s : State) : (s.hide g h).currentSignal = s.currentSignal := rfl

theorem memWrite_hide (s : State) (a v : Word) : (s.hide g h).memWrite a v = (s.memWrite a v).map (State.hide g h) := by
  simp only [State.memWrite, Option.map_map]
  rfl

theorem popTested_hide (taken : Bool) (rest : List Word) (s : State) :
    popTested taken rest (s.hide g h) = (popTested taken rest s).hide g h := by
  have hparams : (s.hide g h).params = s.params := rfl
  unfold popTested
  rw [hparams]
  split <;> rfl

theorem atBoundary_eq_of_hide_eq {s u : State} (hsu : s.hide g h = u.hide g h) : s.atBoundary = u.atBoundary := by
  have hactive : s.active = u.active := get_eq_of_hide_eq hsu (f := .active) (by decide)
  have hupc : s.upc = u.upc := get_eq_of_hide_eq hsu (f := .upc) (by decide)
  rw [State.atBoundary, State.atBoundary, hactive, hupc]

/-! ### The signals -/

variable (hgh : Hiding g h)

include hgh

theorem hide_hide (s : State) : (s.hide g h).hide g h = s.hide g h := by
  simp only [State.hide, hgh.regs_idem, hgh.flags_idem]

theorem readReg_hide (s : State) (n : Token) : (s.hide g h).readReg n = s.readReg n := hgh.read s.regs n

theorem writeReg_hide (s : State) (name : Text) (n : Token) (v : Word) :
    ((s.hide g h).writeReg name n v).hide g h = (s.writeReg name n v).hide g h := by
  simp only [State.writeReg, State.hide, hgh.write, hgh.flags_idem]

theorem halt_seen (c : HaltCause) (s : State) :
    (SigResult.halt c (s.hide g h)).seen (State.hide g h) = (SigResult.halt c s).seen (State.hide g h) :=
  congrArg (SigResult.halt c) (hide_hide hgh s)

theorem next_seen (s : State) :
    (SigResult.next (s.hide g h)).seen (State.hide g h) = (SigResult.next s).seen (State.hide g h) :=
  congrArg SigResult.next (hide_hide hgh s)

theorem needToken_seen (i : Nat) (o : Operand) (s : State) {k l : Token → SigResult}
    (hkl : ∀ t, (k t).seen (State.hide g h) = (l t).seen (State.hide g h)) :
    (needToken i o (s.hide g h) k).seen (State.hide g h) = (needToken i o s l).seen (State.hide g h) := by
  cases o with
  | none => exact halt_seen hgh _ s
  | some t => exact hkl t

theorem needField_seen (o : Option Token) (s : State) {k l : Token → SigResult}
    (hkl : ∀ t, (k t).seen (State.hide g h) = (l t).seen (State.hide g h)) :
    (needField o (s.hide g h) k).seen (State.hide g h) = (needField o s l).seen (State.hide g h) := by
  cases o with
  | none => exact halt_seen hgh _ s
  | some t => exact hkl t

theorem needInt_seen (t : Token) (s : State) {k l : Word → SigResult}
    (hkl : ∀ v, (k v).seen (State.hide g h) = (l v).seen (State.hide g h)) :
    (needInt t (s.hide g h) k).seen (State.hide g h) = (needInt t s l).seen (State.hide g h) := by
  unfold needInt
  cases parseInt t with
  | none => exact halt_seen hgh _ s
  | some v => exact hkl v

theorem memReadPcInc_seen (s : State) :
    (memReadPcInc (s.hide g h)).seen (State.hide g h) = (memReadPcInc s).seen (State.hide g h) := by
  have hline : (s.hide g h).imemRead (s.hide g h).mar = s.imemRead s.mar := rfl
  unfold memReadPcInc
  rw [hline]
  split
  · exact halt_seen hgh _ s
  · next line hl =>
    split
    · exact halt_seen hgh _ s
    · exact next_seen hgh { s with mbr := Config.fetchDigest line, ir := line, pc := s.pc + 1 }

theorem decodeSignal_seen (s : State) :
    (decodeSignal (s.hide g h)).seen (State.hide g h) = (decodeSignal s).seen (State.hide g h) := by
  have hdecode : decode (s.hide g h).params.logicExt (s.hide g h).ir = decode s.params.logicExt s.ir := rfl
  unfold decodeSignal
  rw [hdecode]
  split
  · exact congrArg (SigResult.activate _) (hide_hide hgh s)
  · exact halt_seen hgh _ s
  · exact halt_seen hgh _ s

/-- The ALU writes the flags anew. -/
theorem aluToMbr_seen (op : AluOp) (a b : Word) (s : State) :
    (aluToMbr op a b (s.hide g h)).seen (State.hide g h) = (aluToMbr op a b s).seen (State.hide g h) := by
  have hparams : (s.hide g h).params = s.params := rfl
  unfold aluToMbr
  rw [hparams]
  split
  · exact halt_seen hgh _ s
  · simp only [SigResult.seen, State.hide, hgh.regs_idem]

theorem aluBinary_seen (op : AluOp) (s : State) :
    (aluBinary op (s.hide g h)).seen (State.hide g h) = (aluBinary op s).seen (State.hide g h) := by
  simp only [aluBinary, readReg_hide hgh]
  exact needField_seen hgh _ s fun _ => needField_seen hgh _ s fun _ => aluToMbr_seen hgh op _ _ s

theorem aluNotMbrIn_seen (s : State) :
    (aluNotMbrIn (s.hide g h)).seen (State.hide g h) = (aluNotMbrIn s).seen (State.hide g h) := by
  simp only [aluNotMbrIn, readReg_hide hgh]
  exact needField_seen hgh _ s fun _ => aluToMbr_seen hgh .not _ _ s

theorem mbrOutRegDestIn_seen (s : State) :
    (mbrOutRegDestIn (s.hide g h)).seen (State.hide g h) = (mbrOutRegDestIn s).seen (State.hide g h) :=
  needField_seen hgh _ s fun d => congrArg SigResult.next (writeReg_hide hgh s _ d s.mbr)

theorem reg1ToMbr_seen (t : Operand) (s : State) :
    (reg1ToMbr t (s.hide g h)).seen (State.hide g h) = (reg1ToMbr t s).seen (State.hide g h) := by
  simp only [reg1ToMbr, readReg_hide hgh]
  exact needToken_seen hgh _ _ s fun n => next_seen hgh { s with mbr := s.readReg n }

theorem memDataReadMbrIn_seen (s : State) :
    (memDataReadMbrIn (s.hide g h)).seen (State.hide g h) = (memDataReadMbrIn s).seen (State.hide g h) := by
  have hcell : (s.hide g h).resolve (s.hide g h).mar = s.resolve s.mar := rfl
  unfold memDataReadMbrIn
  rw [hcell]
  split
  · exact halt_seen hgh _ s
  · next v hv => exact next_seen hgh { s with mbr := v }

theorem mbrOutMemDataWrite_seen (s : State) :
    (mbrOutMemDataWrite (s.hide g h)).seen (State.hide g h) = (mbrOutMemDataWrite s).seen (State.hide g h) := by
  have hcell : (s.hide g h).memWrite (s.hide g h).mar (s.hide g h).mbr = (s.memWrite s.mar s.mbr).map (State.hide g h) :=
    memWrite_hide s _ _
  simp only [mbrOutMemDataWrite, hcell]
  cases s.memWrite s.mar s.mbr with
  | none => exact halt_seen hgh _ s
  | some t => exact next_seen hgh t

theorem accToBusWriteToDevice1_seen (s : State) :
    (accToBusWriteToDevice1 (s.hide g h)).seen (State.hide g h) =
      (accToBusWriteToDevice1 s).seen (State.hide g h) := by
  have hdevices : (s.hide g h).devices = s.devices := rfl
  simp only [accToBusWriteToDevice1, State.devWrite, readReg_hide hgh, hdevices]
  cases s.devices[1]? with
  | none => exact halt_seen hgh _ s
  | some d =>
    exact next_seen hgh
      { s with devices := s.devices.set 1 { d with written := d.written ++ [s.readReg accName] } }

theorem readFromDevice0BusToAcc_seen (s : State) :
    (readFromDevice0BusToAcc (s.hide g h)).seen (State.hide g h) =
      (readFromDevice0BusToAcc s).seen (State.hide g h) := by
  have hdevices : (s.hide g h).devices = s.devices := rfl
  simp only [readFromDevice0BusToAcc, State.devRead, hdevices]
  cases s.devices[0]? with
  | none => exact halt_seen hgh _ s
  | some d =>
    exact congrArg SigResult.next
      (writeReg_hide hgh { s with devices := s.devices.set 0 (Device.take 0 d).2 } _ accName _)

theorem addressToPc_seen (s : State) :
    (addressToPc (s.hide g h)).seen (State.hide g h) = (addressToPc s).seen (State.hide g h) :=
  needField_seen hgh _ s fun t => needInt_seen hgh t s fun v =>
    congrArg SigResult.clear (hide_hide hgh { s with pc := v })

theorem jumpInline_seen (t : Operand) (s : State) :
    (jumpInline t (s.hide g h)).seen (State.hide g h) = (jumpInline t s).seen (State.hide g h) := by
  cases t with
  | none => exact halt_seen hgh _ s
  | some x => exact addressToPc_seen hgh { s with op1 := some x }

theorem condJump_seen (taken : Word → Bool) (t : Operand) (s : State) :
    (condJump taken t (s.hide g h)).seen (State.hide g h) = (condJump taken t s).seen (State.hide g h) := by
  have hiq : (s.hide g h).iq = s.iq := rfl
  simp only [condJump, hiq, popTested_hide]
  split
  · exact next_seen hgh s
  · split
    · exact jumpInline_seen hgh t _
    · exact next_seen hgh _

theorem aluCmpInterruptRequest_seen (s : State) :
    (aluCmpInterruptRequest (s.hide g h)).seen (State.hide g h) =
      (aluCmpInterruptRequest s).seen (State.hide g h) := by
  simp only [aluCmpInterruptRequest, readReg_hide hgh]
  exact needField_seen hgh _ s fun a => needField_seen hgh _ s fun b =>
    next_seen hgh (s.iqRequest (compareWords (s.readReg a) (s.readReg b)))

/-- No signal sees what is hidden. -/
theorem performOn_seen (tok : Nat → Operand) (sig : Signal) (s : State) :
    (performOn tok sig (s.hide g h)).seen (State.hide g h) = (performOn tok sig s).seen (State.hide g h) := by
  cases sig with
  | pcOutMarIn => exact next_seen hgh { s with mar := s.pc }
  | memReadPcInc => exact memReadPcInc_seen hgh s
  | mbrOutIrIn => exact next_seen hgh s
  | decode => exact decodeSignal_seen hgh s
  | decodeOperandsRRR =>
    exact needToken_seen hgh _ _ s fun a => needToken_seen hgh _ _ s fun b => needToken_seen hgh _ _ s fun d =>
      next_seen hgh { s with op1 := some a, op2 := some b, dest := some d }
  | decodeOperandsRR =>
    exact needToken_seen hgh _ _ s fun a => needToken_seen hgh _ _ s fun b =>
      next_seen hgh { s with op1 := some a, op2 := some b }
  | decodeOperandsRImm =>
    exact needToken_seen hgh _ _ s fun d => needToken_seen hgh _ _ s fun i =>
      next_seen hgh { s with dest := some d, op1 := some i }
  | decodeOperandsRRdest =>
    exact needToken_seen hgh _ _ s fun a => needToken_seen hgh _ _ s fun d =>
      next_seen hgh { s with op1 := some a, dest := some d }
  | decodeOperandAddr => exact needToken_seen hgh _ _ s fun t => next_seen hgh { s with op1 := some t }
  | aluAdd => exact aluBinary_seen hgh .add s
  | aluSub => exact aluBinary_seen hgh .sub s
  | aluMul => exact aluBinary_seen hgh .mul s
  | aluDiv => exact aluBinary_seen hgh .div s
  | aluAnd => exact aluBinary_seen hgh .and s
  | aluOr => exact aluBinary_seen hgh .or s
  | aluXor => exact aluBinary_seen hgh .xor s
  | aluNot => exact aluNotMbrIn_seen hgh s
  | mbrOutRegDestIn => exact mbrOutRegDestIn_seen hgh s
  | immediateToMbr =>
    exact needField_seen hgh _ s fun t => needInt_seen hgh t s fun v => next_seen hgh { s with mbr := v }
  | reg1ToMbr => exact reg1ToMbr_seen hgh _ s
  | addressToMar =>
    exact needField_seen hgh _ s fun t => needInt_seen hgh t s fun v => next_seen hgh { s with mar := v }
  | memDataReadMbrIn => exact memDataReadMbrIn_seen hgh s
  | mbrOutMemDataWrite => exact mbrOutMemDataWrite_seen hgh s
  | accToBusWriteToDevice1 => exact accToBusWriteToDevice1_seen hgh s
  | readFromDevice0BusToAcc => exact readFromDevice0BusToAcc_seen hgh s
  | addressToPc => exact addressToPc_seen hgh s
  | condJumpIfZero | condJumpIfNotZero => exact condJump_seen hgh _ _ s
  | aluCmpInterruptRequest => exact aluCmpInterruptRequest_seen hgh s
  | haltCpu | other name => exact halt_seen hgh _ s

/-! ### The event `Step` -/

theorem performOn_alike (tok : Nat → Operand) (sig : Signal) {s u : State} (hsu : s.hide g h = u.hide g h) :
    (performOn tok sig s).seen (State.hide g h) = (performOn tok sig u).seen (State.hide g h) := by
  rw [← performOn_seen hgh, hsu, performOn_seen hgh]

/-- A `Step` of the hidden state looks like a `Step` of the state. -/
theorem signalStep_seen (s : State) :
    seenThrough (State.hide g h) (signalStep (s.hide g h)) = seenThrough (State.hide g h) (signalStep s) := by
  have hhalted : (s.hide g h).halted = s.halted := rfl
  simp only [signalStep, hhalted, activateFetch_hide, currentSignal_hide]
  split
  · exact congrArg Host.Outcome.next (hide_hide hgh s)
  · split
    · rfl
    · next len sig hsig =>
      have htok : (s.activateFetch.hide g h).tok = s.activateFetch.tok := rfl
      refine congrArg Host.Outcome.next ?_
      rw [applyResult_hide, applyResult_hide, perform_eq_performOn, htok, performOn_seen hgh, ← perform_eq_performOn]

theorem signalStep_alike {s u : State} (hsu : s.hide g h = u.hide g h) :
    seenThrough (State.hide g h) (signalStep s) = seenThrough (State.hide g h) (signalStep u) := by
  rw [← signalStep_seen hgh, hsu, signalStep_seen hgh]

/-! ### A whole instruction -/

theorem runSignals_alike (tok : Nat → Operand) (len : Nat) (sigs : List Signal) {s u : State}
    (hsu : s.hide g h = u.hide g h) : (runSignals len (sigs.map (performOn tok)) s).hide g h =
      (runSignals len (sigs.map (performOn tok)) u).hide g h := by
  induction sigs generalizing s u with
  | nil => exact hsu
  | cons sig rest ih =>
    have hsig := performOn_alike hgh tok sig hsu
    have hmove : (applyResult len (performOn tok sig s)).hide g h = (applyResult len (performOn tok sig u)).hide g h := by
      rw [applyResult_hide, applyResult_hide, hsig]
    simp only [List.map_cons, runSignals]
    cases hs : performOn tok sig s <;> cases hu : performOn tok sig u <;> rw [hs, hu] at hsig hmove
    case next.next => exact ih hmove
    case activate.activate | clear.clear | halt.halt => exact hmove
    all_goals cases hsig

theorem exec_alike (i : Instr) {s u : State} (hsu : s.hide g h = u.hide g h) :
    seenThrough (State.hide g h) (exec i s) = seenThrough (State.hide g h) (exec i u) := by
  have hactivated : (s.activated i.key).hide g h = (u.activated i.key).hide g h :=
    congrArg (fun v : State => v.activated i.key) hsu
  rw [exec_eq_runProgram, exec_eq_runProgram]
  exact congrArg Host.Outcome.next (runSignals_alike hgh _ _ _ hactivated)

theorem fetchLine_alike {s u : State} (hsu : s.hide g h = u.hide g h) :
    (fetchLine s).hide g h = (fetchLine u).hide g h := by
  have hactivated : (s.activated .fetch).hide g h = (u.activated .fetch).hide g h :=
    congrArg (fun v : State => v.activated .fetch) hsu
  exact runSignals_alike hgh (fun _ => none) 4 [.pcOutMarIn, .memReadPcInc, .mbrOutIrIn] hactivated

theorem decodeAndRun_alike {s u : State} (hsu : s.hide g h = u.hide g h) :
    seenThrough (State.hide g h) (decodeAndRun s) = seenThrough (State.hide g h) (decodeAndRun u) := by
  have hparams : s.params = u.params := get_eq_of_hide_eq hsu (f := .params) (by decide)
  have hir : s.ir = u.ir := get_eq_of_hide_eq hsu (f := .ir) (by decide)
  unfold decodeAndRun
  rw [hparams, hir]
  split
  · exact exec_alike hgh _ hsu
  · exact congrArg (fun v : State => Host.Outcome.next (raiseHalt _ v)) hsu
  · exact congrArg (fun v : State => Host.Outcome.next (raiseHalt _ v)) hsu

theorem instructionStep_alike {s u : State} (hsu : s.hide g h = u.hide g h) :
    seenThrough (State.hide g h) (instructionStep s) = seenThrough (State.hide g h) (instructionStep u) := by
  have hline := fetchLine_alike hgh hsu
  have hhalted : (fetchLine s).halted = (fetchLine u).halted := get_eq_of_hide_eq hline (f := .halted) (by decide)
  unfold instructionStep
  rw [hhalted]
  split
  · exact congrArg Host.Outcome.next hline
  · exact decodeAndRun_alike hgh hline

theorem runToBoundary_alike (fuel : Nat) {s u : State} (hsu : s.hide g h = u.hide g h) :
    seenThrough (State.hide g h) (runToBoundary fuel s) = seenThrough (State.hide g h) (runToBoundary fuel u) := by
  induction fuel generalizing s u with
  | zero => exact congrArg Host.Outcome.next hsu
  | succ fuel ih =>
    have hhalted : s.halted = u.halted := get_eq_of_hide_eq hsu (f := .halted) (by decide)
    have hstep := signalStep_alike hgh hsu
    simp only [runToBoundary, hhalted, atBoundary_eq_of_hide_eq hsu]
    split
    · exact congrArg Host.Outcome.next hsu
    · cases hs : signalStep s <;> cases hu : signalStep u <;> rw [hs, hu] at hstep
      case next.next => exact ih (Host.Outcome.next.inj hstep)
      case fault.fault | refused.refused => exact hstep
      all_goals cases hstep

theorem step_alike {s u : State} (hsu : s.hide g h = u.hide g h) :
    seenThrough (State.hide g h) (step s) = seenThrough (State.hide g h) (step u) := by
  have hhalted : s.halted = u.halted := get_eq_of_hide_eq hsu (f := .halted) (by decide)
  unfold step
  rw [hhalted, atBoundary_eq_of_hide_eq hsu]
  split
  · exact congrArg Host.Outcome.next hsu
  · split
    · exact instructionStep_alike hgh hsu
    · exact runToBoundary_alike hgh _ hsu

end Levels

/-! ### The provenance texts and the flags -/

theorem withoutProvenance_idem (r : RegFile) : r.withoutProvenance.withoutProvenance = r.withoutProvenance := by
  simp [RegFile.withoutProvenance]

theorem entry_withoutProvenance (r : RegFile) (n : Token) :
    r.withoutProvenance.entry n = (r.entry n).map fun e => { e with provenance := [] } := by
  induction r with
  | nil => rfl
  | cons x rest ih =>
    obtain ⟨m, f⟩ := x
    simp only [RegFile.withoutProvenance, List.map_cons, RegFile.entry] at ih ⊢
    split
    · rfl
    · exact ih

theorem read_withoutProvenance (r : RegFile) (n : Token) : r.withoutProvenance.read n = r.read n := by
  rw [RegFile.read, RegFile.read, entry_withoutProvenance]
  cases r.entry n <;> rfl

theorem write_withoutProvenance (r : RegFile) (n : Token) (e : RegEntry) :
    (r.write n e).withoutProvenance = r.withoutProvenance.write n { e with provenance := [] } := by
  induction r with
  | nil => rfl
  | cons x rest ih =>
    obtain ⟨m, f⟩ := x
    simp only [RegFile.withoutProvenance, List.map_cons, RegFile.write] at ih ⊢
    split
    · rfl
    · split
      · rfl
      · exact congrArg _ ih

/-- No rule reads a provenance text (R24). -/
theorem hiding_provenance : Hiding RegFile.withoutProvenance id where
  regs_idem := withoutProvenance_idem
  flags_idem _ := rfl
  read := read_withoutProvenance
  write r n e := by rw [write_withoutProvenance, write_withoutProvenance, withoutProvenance_idem]

/-- No rule reads a flag (R36). -/
theorem hiding_flags : Hiding id fun _ => Flags.clear := ⟨fun _ => rfl, fun _ => rfl, fun _ _ => rfl, fun _ _ _ => rfl⟩

/-- Settles O59: states that differ in provenance texts only look alike with the texts hidden. -/
theorem provenanceNeverAffectsComputation : Obligations.ProvenanceNeverAffectsComputation :=
  fun _ _ hsu => ⟨signalStep_alike hiding_provenance hsu, step_alike hiding_provenance hsu⟩

/-- Settles O60: states that differ in their flags only look alike with the flags hidden. -/
theorem noSignalReadsAFlag : Obligations.NoSignalReadsAFlag :=
  fun _ _ hsu => ⟨signalStep_alike hiding_flags hsu, step_alike hiding_flags hsu⟩

end Sys2Proof.Machine
end

section
/-! SUPPORT. The data memory at its signals and under an instruction: a data read or write is of the cell that `mar` names or
halts (20_memory.md R61, R62), and only STORE's write changes a cell (R65). -/

namespace Sys2Proof.Machine

/-! ### The data signals -/

theorem memDataReadMbrIn_of_cell {s : State} {k : Nat} (h : cellIndex s.params s.mar = some k) :
    memDataReadMbrIn s = .next { s with mbr := s.mem.read k } := by
  simp only [memDataReadMbrIn, State.resolve, State.memRead, h, Option.map_some]

theorem memDataReadMbrIn_of_noCell {s : State} (h : cellIndex s.params s.mar = none) :
    memDataReadMbrIn s = .halt (.memOutOfRange s.mar) s := by
  simp only [memDataReadMbrIn, State.resolve, State.memRead, h, Option.map_none]

theorem mbrOutMemDataWrite_of_cell {s : State} {k : Nat} (h : cellIndex s.params s.mar = some k) :
    mbrOutMemDataWrite s = .next { s with mem := s.mem.write k s.mbr } := by
  simp only [mbrOutMemDataWrite, State.memWrite, h, Option.map_some]

theorem mbrOutMemDataWrite_of_noCell {s : State} (h : cellIndex s.params s.mar = none) :
    mbrOutMemDataWrite s = .halt (.memOutOfRange s.mar) s := by
  simp only [mbrOutMemDataWrite, State.memWrite, h, Option.map_none]

/-- Settles O31: an address names a cell exactly when it is in range. -/
theorem dataReadIsTheCellOrAHalt : Obligations.DataReadIsTheCellOrAHalt := fun _ =>
  ⟨fun h => memDataReadMbrIn_of_cell (cellIndex_of_inRange h),
    fun h => memDataReadMbrIn_of_noCell (cellIndex_of_outOfRange h)⟩

/-- Settles O32, by the laws of reading after a memory write. -/
theorem dataWriteChangesOneCell : Obligations.DataWriteChangesOneCell := by
  refine fun s => ⟨fun h => ?_, fun h => mbrOutMemDataWrite_of_noCell (cellIndex_of_outOfRange h)⟩
  refine ⟨s.mem.write s.mar.toInt.toNat s.mbr, mbrOutMemDataWrite_of_cell (cellIndex_of_inRange h), ?_, ?_⟩
  · exact fun hwf => ⟨Memory.read_write_same _ _ hwf, Memory.wf_write _ _ hwf⟩
  · exact fun a ha => Memory.read_write_other _ _ ha

/-! ### The cells under an instruction -/

/-- A data write leaves every cell that `mar` does not name as it reads, also when it halts. -/
theorem mbrOutMemDataWrite_read {s : State} {a : Nat} (h : cellIndex s.params s.mar ≠ some a) :
    (mbrOutMemDataWrite s).state.mem.read a = s.mem.read a := by
  cases hk : cellIndex s.params s.mar with
  | none => rw [mbrOutMemDataWrite_of_noCell hk, SigResult.state]
  | some k =>
    rw [mbrOutMemDataWrite_of_cell hk]
    exact Memory.read_write_other _ _ fun hak => h (hak ▸ hk)

theorem applyResult_mem (len : Nat) (r : SigResult) : (applyResult len r).mem = r.state.mem :=
  applyResult_onlyChanges len r .mem (by decide)

/-- Only STORE's microprogram holds the signal that writes a cell. -/
theorem mem_notMem_execFootprint {k : Key} (h : k ≠ .store) : .mem ∉ execFootprint k := by
  cases k with
  | store => exact absurd rfl h
  | _ => decide

theorem exec_mem_of_ne_store {i : Instr} {s t : State} (h : exec i s = .next t) (hi : i.key ≠ .store) : t.mem = s.mem :=
  exec_onlyChanges h .mem (mem_notMem_execFootprint hi)

/-! ### STORE, signal by signal -/

theorem decodeOperandsRImm_some (d i : Token) (s : State) :
    decodeOperandsRImm (some d) (some i) s = .next { s with dest := some d, op1 := some i } := rfl

theorem reg1ToMbr_some (n : Token) (s : State) : reg1ToMbr (some n) s = .next { s with mbr := s.readReg n } := rfl

theorem addressToMar_of_literal {s : State} {t : Token} {v : Word} (h : s.op1 = some t) (ht : parseInt t = some v) :
    addressToMar s = .next { s with mar := v } := by
  rw [addressToMar, h, needField_some, needInt_some ht]

theorem addressToMar_of_noLiteral {s : State} {t : Token} (h : s.op1 = some t) (ht : parseInt t = none) :
    addressToMar s = .halt (.badInteger t) s := by
  rw [addressToMar, h, needField_some, needInt_none ht]

/-- STORE with both operands and an address literal comes to its data write, with the address in `mar` and the source
register in `mbr` (R193). -/
theorem exec_store_of_literal (s : State) (r : Token) {t : Token} {v : Word} (ht : parseInt t = some v) :
    exec (.store (some r) (some t)) s = .next (applyResult 4 (mbrOutMemDataWrite
      { s with active := some .store, upc := 3, op1 := some t, dest := some r, mar := v, mbr := s.readReg r })) := by
  rw [exec, execStore, runProgram, runSignals_next (decodeOperandsRImm_some r t _),
    runSignals_next (addressToMar_of_literal rfl ht), runSignals_next (reg1ToMbr_some r _)]
  rfl

/-- An address that is no literal ends STORE at the signal that converts it (R83). -/
theorem exec_store_of_noLiteral (s : State) (r : Token) {t : Token} (ht : parseInt t = none) :
    exec (.store (some r) (some t)) s =
      .next ({ s with dest := some r, op1 := some t }.haltedIn .store 1 (.badInteger t)) := by
  rw [exec, execStore, runProgram, runSignals_next (decodeOperandsRImm_some r t _),
    runSignals_halt (addressToMar_of_noLiteral rfl ht)]
  rfl

/-- STORE leaves every cell that its address does not name as it reads. -/
theorem exec_store_read {src addr : Operand} {s u : State} {a : Nat} (h : exec (.store src addr) s = .next u)
    (ha : (Instr.store src addr).storeCell s.params ≠ some a) : u.mem.read a = s.mem.read a := by
  cases src with
  | none => cases h; rfl
  | some r =>
    cases addr with
    | none => cases h; rfl
    | some t =>
      cases ht : parseInt t with
      | none =>
        rw [exec_store_of_noLiteral s r ht] at h
        cases h
        rfl
      | some v =>
        have hcell : cellIndex s.params v ≠ some a := by simpa [Instr.storeCell, ht] using ha
        rw [exec_store_of_literal s r ht] at h
        cases h
        rw [applyResult_mem]
        exact mbrOutMemDataWrite_read hcell

/-- Settles O55: no other instruction writes the memory, and STORE writes the cell that its address names. -/
theorem onlyStoreChangesItsCell : Obligations.OnlyStoreChangesItsCell := by
  intro i s t a h ha
  by_cases hi : i.key = .store
  · cases i with
    | store src addr => exact exec_store_read h ha
    | _ => cases hi
  · rw [exec_mem_of_ne_store h hi]

end Sys2Proof.Machine
end

section
/-! SUPPORT. The encoding: tokens as the maximal runs of non-whitespace (30_encoding.md R81, R82), the tokens of an encoded
instruction, and decoding as the inverse of encoding (R80, R85, R86, R88). -/

namespace Sys2Proof.Machine

/-! ### Tokens -/

theorem tokenValid_iff {t : Token} : tokenValid t = true ↔ t ≠ [] ∧ ∀ c ∈ t, isSpace c = false := by
  simp [tokenValid]

theorem tokensFrom_of_space {c : Char} (h : isSpace c = true) (cur rest : Text) :
    tokensFrom cur (c :: rest) = endToken cur (tokens rest) := if_pos h

theorem tokensFrom_of_notSpace {c : Char} (h : isSpace c = false) (cur rest : Text) :
    tokensFrom cur (c :: rest) = tokensFrom (cur ++ [c]) rest := by
  simp [tokensFrom, h]

theorem endToken_append (cur : Text) (r q : List Token) : endToken cur (r ++ q) = endToken cur r ++ q := by
  cases cur <;> rfl

/-- A run without whitespace only lengthens the token read so far. -/
theorem tokensFrom_run (cur : Text) {t : Text} (h : ∀ c ∈ t, isSpace c = false) :
    tokensFrom cur t = endToken (cur ++ t) [] := by
  induction t generalizing cur with
  | nil => rw [List.append_nil, tokensFrom]
  | cons c cs ih =>
    rw [tokensFrom_of_notSpace (h c List.mem_cons_self), ih _ fun d hd => h d (List.mem_cons_of_mem _ hd),
      List.append_assoc, List.singleton_append]

theorem tokens_of_tokenValid {t : Token} (h : tokenValid t = true) : tokens t = [t] := by
  obtain ⟨hne, hrun⟩ := tokenValid_iff.mp h
  rw [tokens, tokensFrom_run [] hrun]
  cases t with
  | nil => exact absurd rfl hne
  | cons c cs => rfl

/-- A whitespace character ends the token read so far, and the tokens after it do not depend on what stood before. -/
theorem tokensFrom_append_space (cur a b : Text) {c : Char} (h : isSpace c = true) :
    tokensFrom cur (a ++ c :: b) = tokensFrom cur a ++ tokens b := by
  induction a generalizing cur with
  | nil => rw [List.nil_append, tokensFrom_of_space h, tokensFrom, ← endToken_append, List.nil_append]
  | cons x xs ih =>
    rw [List.cons_append]
    cases hx : isSpace x with
    | true =>
      have hrest : tokens (xs ++ c :: b) = tokens xs ++ tokens b := ih []
      rw [tokensFrom_of_space hx, tokensFrom_of_space hx, hrest, endToken_append]
    | false => rw [tokensFrom_of_notSpace hx, tokensFrom_of_notSpace hx, ih]

theorem tokens_append_space (a b : Text) {c : Char} (h : isSpace c = true) :
    tokens (a ++ c :: b) = tokens a ++ tokens b := tokensFrom_append_space [] a b h

/-- Settles O20: a run without whitespace is one token, and whitespace cuts the token list. -/
theorem tokensAreTheMaximalRuns : Obligations.TokensAreTheMaximalRuns :=
  ⟨fun _ => tokens_of_tokenValid, fun a b _ => tokens_append_space a b, rfl⟩

/-! ### The tokens of an encoded instruction -/

theorem keyName_tokenValid (k : Key) : tokenValid k.name = true := by cases k <;> decide

/-- Tokens written one after the other, each after one space, are read as these tokens. -/
theorem tokens_spaced {m : Token} {ops : List Token} (hm : tokenValid m = true)
    (hops : ∀ t ∈ ops, tokenValid t = true) : tokens (m ++ (ops.map some).flatMap Operand.encode) = m :: ops := by
  induction ops generalizing m with
  | nil => simpa using tokens_of_tokenValid hm
  | cons t rest ih =>
    have hrest := ih (hops t List.mem_cons_self) fun x hx => hops x (List.mem_cons_of_mem _ hx)
    calc tokens (m ++ ((t :: rest).map some).flatMap Operand.encode)
        = tokens (m ++ ' ' :: (t ++ (rest.map some).flatMap Operand.encode)) := rfl
      _ = m :: t :: rest := by rw [tokens_append_space m _ (by decide), tokens_of_tokenValid hm, hrest]; rfl

/-- Operands that are all well formed are all there, and are tokens. -/
theorem exists_tokens_of_wellFormed {os : List Operand} (h : ∀ o ∈ os, o.wellFormed = true) :
    ∃ ops : List Token, os = ops.map some ∧ ∀ t ∈ ops, tokenValid t = true := by
  induction os with
  | nil => exact ⟨[], rfl, nofun⟩
  | cons o rest ih =>
    obtain ⟨ops, hrest, hops⟩ := ih fun x hx => h x (List.mem_cons_of_mem _ hx)
    cases o with
    | none => exact absurd (h none List.mem_cons_self) (by decide)
    | some t => exact ⟨t :: ops, by simp [hrest], List.forall_mem_cons.mpr ⟨h (some t) List.mem_cons_self, hops⟩⟩

/-- The tokens of an encoded instruction are its mnemonic and its operands. -/
theorem tokens_encode {i : Instr} (h : i.wellFormed = true) :
    ∃ ops : List Token, i.operands = ops.map some ∧ tokens (encode i) = i.key.name :: ops := by
  obtain ⟨ops, hoperands, hops⟩ := exists_tokens_of_wellFormed (List.all_eq_true.mp h)
  exact ⟨ops, hoperands, by rw [encode, hoperands, tokens_spaced (keyName_tokenValid _) hops]⟩

/-! ### Decoding after encoding -/

/-- What a text decodes to when its first token is a key of the control store. -/
theorem decode_of_tokens {le : Bool} {t : Text} {k : Key} {ops : List Token} (hp : k.present le = true)
    (h : tokens t = k.name :: ops) : decode le t = .instr (k.instr (k.name :: ops)) := by
  rw [decode, h]
  simp only [lookupKey_name hp]

/-- The key of an instruction and the tokens of its text make it again, for every constructor. -/
theorem instr_rebuilt (i : Instr) : Laws.Rebuild.Statement i :=
  match i with
  | .add a b d => Laws.Rebuild.add a b d
  | .sub a b d => Laws.Rebuild.sub a b d
  | .mul a b d => Laws.Rebuild.mul a b d
  | .div a b d => Laws.Rebuild.div a b d
  | .and a b d => Laws.Rebuild.and a b d
  | .or a b d => Laws.Rebuild.or a b d
  | .xor a b d => Laws.Rebuild.xor a b d
  | .not src dst => Laws.Rebuild.not src dst
  | .movImm dst imm => Laws.Rebuild.movImm dst imm
  | .movReg src dst => Laws.Rebuild.movReg src dst
  | .load dst addr => Laws.Rebuild.load dst addr
  | .store src addr => Laws.Rebuild.store src addr
  | .inputChar => Laws.Rebuild.inputChar
  | .outputChar => Laws.Rebuild.outputChar
  | .jmp target => Laws.Rebuild.jmp target
  | .cmp a b => Laws.Rebuild.cmp a b
  | .je target => Laws.Rebuild.je target
  | .jne target => Laws.Rebuild.jne target
  | .hlt => Laws.Rebuild.hlt
  | .fetch => Laws.Rebuild.fetch

/-- A text with the tokens of an encoding, and any tokens after them, decodes to the encoded instruction (R85). -/
theorem decode_of_tokens_encode {le : Bool} {i : Instr} {t : Text} {extra : List Token} (hwf : i.wellFormed = true)
    (hp : i.key.present le = true) (h : tokens t = tokens (encode i) ++ extra) : decode le t = .instr i := by
  obtain ⟨ops, hoperands, htokens⟩ := tokens_encode hwf
  rw [htokens, List.cons_append] at h
  rw [decode_of_tokens hp h, instr_rebuilt i ops extra hoperands]

/-- Settles O22: the encoding has the mnemonic and the operands as its tokens, and they make the instruction again. -/
theorem decodeReadsEveryEncodedInstruction : Obligations.DecodeReadsEveryEncodedInstruction := by
  intro i le hwf hp
  exact decode_of_tokens_encode (extra := []) hwf hp (List.append_nil _).symm

/-! ### Encoding after decoding -/

/-- The operands of a decoded instruction are the tokens after the mnemonic, as many as its format names (R86). -/
theorem operands_instr (k : Key) (m : Token) (rest : List Token) :
    (k.instr (m :: rest)).operands = (List.range (k.instr (m :: rest)).operands.length).map fun j => rest[j]? := by
  cases k <;> rfl

/-- Where no operand is missing, they are the first of the tokens after the mnemonic. -/
theorem operands_instr_isPrefix {k : Key} {m : Token} {rest ops : List Token}
    (h : (k.instr (m :: rest)).operands = ops.map some) : ops <+: rest := by
  rw [List.prefix_iff_getElem?]
  intro j hj
  have hlength : (k.instr (m :: rest)).operands.length = ops.length := by rw [h, List.length_map]
  have hall := operands_instr k m rest
  rw [hlength, h] at hall
  have hat := congrArg (fun l : List Operand => l[j]?) hall
  simpa [hj] using hat.symm

/-- Settles O23: the first token is the mnemonic of the instruction, and the next ones are its operands. -/
theorem decodedTextHoldsTheEncoding : Obligations.DecodedTextHoldsTheEncoding := by
  intro le t i h hwf
  obtain ⟨hmnemonic, hp, hinstr⟩ := decode_eq_instr h
  obtain ⟨ops, hoperands, htokens⟩ := tokens_encode hwf
  obtain ⟨rest, hrest⟩ := List.head?_eq_some_iff.mp hmnemonic
  rw [hinstr, hrest] at hoperands
  obtain ⟨ignored, happend⟩ := operands_instr_isPrefix hoperands
  exact ⟨hp, ignored, by rw [hrest, htokens, ← happend, List.cons_append]⟩

/-! ### Written words -/

/-- A word whose text has the tokens of an encoding decodes to the encoded instruction. -/
theorem decodeTableWord_of_tokens {nbits w : Nat} {i : Instr} (hwf : i.wellFormed = true)
    (h : tokens (wordText nbits w) = tokens (encode i)) : decodeTableWord nbits w = some i := by
  have hdecode : decode true (wordText nbits w) = .instr i :=
    decode_of_tokens_encode (extra := []) hwf rfl (h.trans (List.append_nil _).symm)
  rw [decodeTableWord, hdecode]

/-- Settles O24: four of the words spell the tokens of an encoding, and the first token of the fifth is no key. -/
theorem writtenWordsDecode : Obligations.WrittenWordsDecode := by
  refine ⟨decodeTableWord_of_tokens (by decide) (by decide), decodeTableWord_of_tokens (by decide) (by decide),
    decodeTableWord_of_tokens (by decide) (by decide), decodeTableWord_of_tokens (by decide) (by decide), ?_⟩
  have hword : decode true (wordText 24 0x746c68) = .unrecognized "hlt".toList := by decide
  rw [decodeTableWord, hword]

end Sys2Proof.Machine
end

section
/-! SUPPORT. Integer literals: what a run of decimal digits is read as, with a sign and without (30_encoding.md R83), and
the decimal spelling of a number read back. -/

namespace Sys2Proof.Machine

/-! ### Runs of digits -/

/-- A decimal digit, `0` to `9`. -/
def IsDigit (c : Char) : Prop := 0x30 ≤ c.toNat ∧ c.toNat ≤ 0x39

/-- The number that digits worth `acc` and then the digits `ds` spell. -/
def spelledFrom (acc : Nat) (ds : Text) : Nat := ds.foldl (fun n c => 10 * n + (c.toNat - 0x30)) acc

@[simp] theorem spelledFrom_nil (acc : Nat) : spelledFrom acc [] = acc := rfl
@[simp] theorem spelledFrom_cons (acc : Nat) (c : Char) (cs : Text) :
    spelledFrom acc (c :: cs) = spelledFrom (10 * acc + (c.toNat - 0x30)) cs := by
  simp only [spelledFrom, List.foldl_cons]
theorem spelledFrom_append (acc : Nat) (ds es : Text) :
    spelledFrom acc (ds ++ es) = spelledFrom (spelledFrom acc ds) es := by
  simp only [spelledFrom, List.foldl_append]

theorem digitValue_of_isDigit {c : Char} (h : IsDigit c) : digitValue c = some (c.toNat - 0x30) := if_pos h

theorem digitValue_eq_some {c : Char} {d : Nat} (h : digitValue c = some d) : IsDigit c := by
  by_contra hc
  cases (if_neg hc : digitValue c = none).symm.trans h

theorem digitsValue_of_digits (acc : Nat) {ds : Text} (h : ∀ c ∈ ds, IsDigit c) :
    digitsValue acc ds = some (spelledFrom acc ds) := by
  induction ds generalizing acc with
  | nil => rfl
  | cons c cs ih =>
    obtain ⟨hc, hcs⟩ := List.forall_mem_cons.mp h
    simp only [digitsValue, digitValue_of_isDigit hc, ih _ hcs, spelledFrom_cons, Nat.mul_comm]

theorem digits_of_digitsValue {acc n : Nat} {ds : Text} (h : digitsValue acc ds = some n) : ∀ c ∈ ds, IsDigit c := by
  induction ds generalizing acc with
  | nil => nofun
  | cons c cs ih =>
    unfold digitsValue at h
    split at h
    · cases h
    · next d hd => exact List.forall_mem_cons.mpr ⟨digitValue_eq_some hd, ih h⟩

theorem parseDigits_of_digits {ds : Text} (hne : ds ≠ []) (h : ∀ c ∈ ds, IsDigit c) :
    parseDigits ds = some (spelledFrom 0 ds) := by
  cases ds with
  | nil => exact absurd rfl hne
  | cons c cs => exact digitsValue_of_digits 0 h

theorem digits_of_parseDigits {ds : Text} {n : Nat} (h : parseDigits ds = some n) : ds ≠ [] ∧ ∀ c ∈ ds, IsDigit c := by
  cases ds with
  | nil => cases h
  | cons c cs => exact ⟨nofun, digits_of_digitsValue h⟩

/-! ### Literals: the sign and the range -/

theorem parseLiteral_plus (ds : Text) : parseLiteral ('+' :: ds) = (parseDigits ds).map fun n : Nat => (n : Int) := rfl

theorem parseLiteral_minus (ds : Text) : parseLiteral ('-' :: ds) = (parseDigits ds).map fun n : Nat => -(n : Int) := rfl

theorem parseLiteral_unsigned {c : Char} (cs : Text) (hminus : c ≠ '-') (hplus : c ≠ '+') :
    parseLiteral (c :: cs) = (parseDigits (c :: cs)).map fun n : Nat => (n : Int) := by
  rw [parseLiteral, if_neg hminus, if_neg hplus]

/-- A run of digits has no sign. -/
theorem parseLiteral_of_digits {ds : Text} (hne : ds ≠ []) (h : ∀ c ∈ ds, IsDigit c) :
    parseLiteral ds = some (spelledFrom 0 ds : Int) := by
  cases ds with
  | nil => exact absurd rfl hne
  | cons c cs =>
    have hc : IsDigit c := h c List.mem_cons_self
    have hsign : c ≠ '-' ∧ c ≠ '+' := by constructor <;> rintro rfl <;> exact absurd hc (by unfold IsDigit; decide)
    rw [parseLiteral_unsigned cs hsign.1 hsign.2, parseDigits_of_digits hne h, Option.map_some]

/-- What is read as a literal is a run of digits after at most one sign. -/
theorem shape_of_parseLiteral {t : Token} {v : Int} (h : parseLiteral t = some v) :
    ∃ ds : Text, (ds ≠ [] ∧ ∀ c ∈ ds, IsDigit c) ∧ (t = ds ∨ t = '+' :: ds ∨ t = '-' :: ds) := by
  cases t with
  | nil => cases h
  | cons c cs =>
    by_cases hminus : c = '-'
    · rw [hminus, parseLiteral_minus] at h
      obtain ⟨n, hn, -⟩ := Option.map_eq_some_iff.mp h
      exact ⟨cs, digits_of_parseDigits hn, .inr (.inr (hminus ▸ rfl))⟩
    by_cases hplus : c = '+'
    · rw [hplus, parseLiteral_plus] at h
      obtain ⟨n, hn, -⟩ := Option.map_eq_some_iff.mp h
      exact ⟨cs, digits_of_parseDigits hn, .inr (.inl (hplus ▸ rfl))⟩
    · rw [parseLiteral_unsigned cs hminus hplus] at h
      obtain ⟨n, hn, -⟩ := Option.map_eq_some_iff.mp h
      exact ⟨c :: cs, digits_of_parseDigits hn, .inl rfl⟩

theorem inI32Range_iff {v : Int} : inI32Range v = true ↔ -2147483648 ≤ v ∧ v ≤ 2147483647 := by
  simp [inI32Range]

theorem inI32Range_natCast (n : Nat) : inI32Range n = true ↔ n ≤ 2147483647 := by
  rw [inI32Range_iff]
  omega

theorem inI32Range_neg_natCast (n : Nat) : inI32Range (-(n : Int)) = true ↔ n ≤ 2147483648 := by
  rw [inI32Range_iff]
  omega

theorem parseInt_of_literal {t : Token} {v : Int} (h : parseLiteral t = some v) :
    parseInt t = if inI32Range v then some (BitVec.ofInt 32 v) else none := by
  rw [parseInt, h]

theorem parseInt_of_natLiteral {t : Token} {n : Nat} (h : parseLiteral t = some (n : Int)) :
    parseInt t = if n ≤ 2147483647 then some (BitVec.ofNat 32 n) else none := by
  simp only [parseInt_of_literal h, inI32Range_natCast, BitVec.ofInt_natCast]

/-! ### What digits are read as -/

section
variable {ds : Text} (hne : ds ≠ []) (h : ∀ c ∈ ds, IsDigit c)
include hne h

theorem parseInt_digits :
    parseInt ds = if spelledFrom 0 ds ≤ 2147483647 then some (BitVec.ofNat 32 (spelledFrom 0 ds)) else none :=
  parseInt_of_natLiteral (parseLiteral_of_digits hne h)

theorem parseInt_plus_digits :
    parseInt ('+' :: ds) = if spelledFrom 0 ds ≤ 2147483647 then some (BitVec.ofNat 32 (spelledFrom 0 ds)) else none :=
  parseInt_of_natLiteral (by rw [parseLiteral_plus, parseDigits_of_digits hne h, Option.map_some])

theorem parseInt_minus_digits : parseInt ('-' :: ds) =
    if spelledFrom 0 ds ≤ 2147483648 then some (BitVec.ofInt 32 (-(spelledFrom 0 ds : Int))) else none := by
  have hliteral : parseLiteral ('-' :: ds) = some (-(spelledFrom 0 ds : Int)) := by
    rw [parseLiteral_minus, parseDigits_of_digits hne h, Option.map_some]
  simp only [parseInt_of_literal hliteral, inI32Range_neg_natCast]

end

/-! ### The decimal spelling of a number -/

theorem digitChar_toNat {d : Nat} (h : d < 10) : (digitChar d).toNat = 0x30 + d := by
  revert d
  decide

theorem digitChar_isDigit {d : Nat} (h : d < 10) : IsDigit (digitChar d) := by
  rw [IsDigit, digitChar_toNat h]
  omega

theorem decimalDigits_isDigit (fuel n : Nat) : ∀ c ∈ decimalDigits fuel n, IsDigit c := by
  induction fuel generalizing n with
  | zero => nofun
  | succ fuel ih =>
    unfold decimalDigits
    split
    · next hn => exact List.forall_mem_singleton.mpr (digitChar_isDigit hn)
    · exact List.forall_mem_append.mpr
        ⟨ih (n / 10), List.forall_mem_singleton.mpr (digitChar_isDigit (Nat.mod_lt n (by decide)))⟩

theorem spelledFrom_decimalDigits {fuel n : Nat} (h : n < fuel) : spelledFrom 0 (decimalDigits fuel n) = n := by
  induction fuel generalizing n with
  | zero => cases h
  | succ fuel ih =>
    unfold decimalDigits
    split
    · next hn => simp [digitChar_toNat hn]
    · next hn =>
      rw [spelledFrom_append, ih (by omega), spelledFrom_cons, spelledFrom_nil,
        digitChar_toNat (Nat.mod_lt n (by decide))]
      omega

theorem natText_isDigit (n : Nat) : ∀ c ∈ natText n, IsDigit c := decimalDigits_isDigit _ n

theorem spelledFrom_natText (n : Nat) : spelledFrom 0 (natText n) = n := spelledFrom_decimalDigits n.lt_succ_self

theorem natText_ne_nil (n : Nat) : natText n ≠ [] := by
  unfold natText decimalDigits
  split <;> simp

theorem parseInt_natText (n : Nat) :
    parseInt (natText n) = if n ≤ 2147483647 then some (BitVec.ofNat 32 n) else none := by
  simpa [spelledFrom_natText] using parseInt_digits (natText_ne_nil n) (natText_isDigit n)

theorem parseInt_plus_natText (n : Nat) :
    parseInt ('+' :: natText n) = if n ≤ 2147483647 then some (BitVec.ofNat 32 n) else none := by
  simpa [spelledFrom_natText] using parseInt_plus_digits (natText_ne_nil n) (natText_isDigit n)

theorem parseInt_minus_natText (n : Nat) :
    parseInt ('-' :: natText n) = if n ≤ 2147483648 then some (BitVec.ofInt 32 (-(n : Int))) else none := by
  simpa [spelledFrom_natText] using parseInt_minus_digits (natText_ne_nil n) (natText_isDigit n)

/-- A leading zero spells the same number. -/
theorem parseInt_zero_natText (n : Nat) :
    parseInt ('0' :: natText n) = if n ≤ 2147483647 then some (BitVec.ofNat 32 n) else none := by
  have hzero : IsDigit '0' := by unfold IsDigit; decide
  have hspelled : spelledFrom 0 ('0' :: natText n) = n := spelledFrom_natText n
  simpa only [hspelled] using parseInt_digits (List.cons_ne_nil _ _) (List.forall_mem_cons.mpr ⟨hzero, natText_isDigit n⟩)

/-- Every `i32` is read back from its decimal spelling. -/
theorem parseInt_intText (w : Word) : parseInt (intText w.toInt) = some w := by
  have hlower : -2147483648 ≤ w.toInt := BitVec.le_toInt w
  have hupper : w.toInt < 2147483648 := BitVec.toInt_lt
  unfold intText
  split
  · next hneg =>
    have habs : -(w.toInt.natAbs : Int) = w.toInt := by omega
    rw [parseInt_minus_natText, if_pos (by omega), habs, BitVec.ofInt_toInt]
  · next hneg =>
    have habs : (w.toInt.natAbs : Int) = w.toInt := by omega
    rw [parseInt_natText, if_pos (by omega), ← BitVec.ofInt_natCast, habs, BitVec.ofInt_toInt]

/-- Settles O21: each spelling is a run of digits after at most one sign, and its number is in range or not. -/
theorem decimalSpellingsAreReadBack : Obligations.DecimalSpellingsAreReadBack := by
  refine ⟨parseInt_intText, ?_, ?_, ?_, ?_, ?_, ?_⟩
  · exact fun n hn => by rw [parseInt_plus_natText, if_pos hn]
  · exact fun n hn => by rw [parseInt_zero_natText, if_pos hn]
  · exact fun n hn => by rw [parseInt_natText, if_neg (by omega)]
  · exact fun n hn => by rw [parseInt_minus_natText, if_neg (by omega)]
  · exact fun ds hne h => ⟨parseInt_digits hne h, parseInt_plus_digits hne h, parseInt_minus_digits hne h⟩
  · intro t
    cases hliteral : parseLiteral t with
    | none => exact .inl (by rw [parseInt, hliteral])
    | some v =>
      obtain ⟨ds, ⟨hne, hdigits⟩, hshape⟩ := shape_of_parseLiteral hliteral
      exact .inr ⟨ds, hne, hdigits, hshape⟩

end Sys2Proof.Machine
end

section
/-! SUPPORT. Halts in the fetch: an absent or blank line at the second signal of FETCH (30_encoding.md R90,
40_microengine.md R108), and a mnemonic that is no key at `Decode` (R89). -/

namespace Sys2Proof.Machine

/-! ### The signals of FETCH as events `Step` -/

theorem step_of_boundary {s : State} (hrun : s.halted = false) (hb : s.atBoundary = true) :
    step s = instructionStep s := by
  simp only [step, hrun, hb, Bool.false_eq_true, if_false, if_true]

/-- The state in which the first signal of FETCH is done: the address of the line is in `mar` (R107). -/
def State.addressed (s : State) : State := { s with mar := s.pc, active := some .fetch, upc := 1 }

theorem signalStep_pcOutMarIn {s : State} (hrun : s.halted = false) (hb : s.atBoundary = true) :
    signalStep s = .next s.addressed := by
  have hstart : s.activateFetch = s.activated .fetch := activateFetch_of_boundary hb
  rw [signalStep_of hrun (k := .fetch) (sig := .pcOutMarIn) (by rw [hstart]; rfl) (present_fetch _)
    (by rw [hstart]; rfl), hstart]
  rfl

/-- A `Step` at the third signal of FETCH. -/
theorem signalStep_mbrOutIrIn {s : State} (hrun : s.halted = false) (ha : s.active = some .fetch) (hu : s.upc = 2) :
    signalStep s = .next { s with upc := 3 } := by
  have hself : s.activateFetch = s := activateFetch_of_active ha
  rw [signalStep_of hrun (k := .fetch) (sig := .mbrOutIrIn) (by rwa [hself]) (present_fetch _)
    (by rw [hself, hu]; rfl), hself]
  simp [perform, mbrOutIrIn, applyResult, microprogram, hu]

/-- Two events `Step` on an absent or blank line. -/
theorem signalSteps_two_end {s : State} (hrun : s.halted = false) (hb : s.atBoundary = true)
    (h : s.imemRead s.pc = none ∨ ∃ t, s.imemRead s.pc = some t ∧ isBlank t = true) :
    signalSteps 2 s = .next ({ s with mar := s.pc }.haltedIn .fetch 1 (.endOfProgram s.pc)) := by
  rw [signalSteps_succ (signalStep_pcOutMarIn hrun hb)]
  refine signalSteps_one ?_
  rw [signalStep_memReadPcInc (s := s.addressed) hrun rfl rfl, memReadPcInc_end (s := s.addressed) h]
  rfl

/-- Three events `Step` fetch a line with a token. -/
theorem signalSteps_three_fetched {s : State} {t : Text} (h : s.aboutToFetch t) (hline : isBlank t = false) :
    signalSteps 3 s = .next (s.fetched t) := by
  obtain ⟨hrun, hb, hread⟩ := h
  rw [signalSteps_succ (signalStep_pcOutMarIn hrun hb),
    signalSteps_succ (signalStep_memReadPcInc (s := s.addressed) hrun rfl rfl),
    memReadPcInc_line (s := s.addressed) hread hline]
  exact signalSteps_one (signalStep_mbrOutIrIn hrun rfl rfl)

/-- A whole instruction on a line with a token is `Decode` and what it activates, at the fetched state. -/
theorem step_of_line {s : State} {t : Text} (h : s.aboutToFetch t) (hline : isBlank t = false) :
    step s = decodeAndRun (s.fetched t) := by
  obtain ⟨hrun, hb, hread⟩ := h
  rw [step_of_boundary hrun hb, instructionStep, fetchLine_line hread hline, if_neg (by simp [hrun])]

/-- Settles O16: the line is missed at the second signal of FETCH. -/
theorem absentOrBlankLineEndsTheProgram : Obligations.AbsentOrBlankLineEndsTheProgram := by
  intro s hrun hb h
  have hstep : step s = .next ({ s with mar := s.pc }.haltedIn .fetch 1 (.endOfProgram s.pc)) := by
    rw [step_of_boundary hrun hb, instructionStep, fetchLine_end h, if_pos (haltedIn_halted ..)]
  exact ⟨hstep, (signalSteps_two_end hrun hb h).trans hstep.symm⟩

/-! ### A mnemonic that is no key -/

theorem isBlank_of_head {t : Text} {m : Token} (h : (tokens t).head? = some m) : isBlank t = false := by
  cases ht : tokens t with
  | nil => rw [ht] at h; cases h
  | cons => rw [isBlank, ht, List.isEmpty_cons]

theorem decode_of_unknown {le : Bool} {t : Text} {m : Token} (h : (tokens t).head? = some m)
    (hm : ∀ k : Key, k.present le = true → k.name ≠ m) : decode le t = .unrecognized m := by
  obtain ⟨rest, hrest⟩ := List.head?_eq_some_iff.mp h
  rw [decode, hrest]
  simp only [lookupKey_eq_none hm]

/-- Settles O17: the line is fetched, and `Decode` finds no key. -/
theorem unknownMnemonicHaltsAtDecode : Obligations.UnknownMnemonicHaltsAtDecode := by
  intro s t m hfetch hhead hm
  have hrun : s.halted = false := hfetch.1
  have hline : isBlank t = false := isBlank_of_head hhead
  have hdecode : decode (s.fetched t).params.logicExt (s.fetched t).ir = .unrecognized m := decode_of_unknown hhead hm
  have hstep : step s = .next ((s.fetched t).haltedIn .fetch 3 (.unrecognizedInstruction m)) := by
    rw [step_of_line hfetch hline, decodeAndRun, hdecode]
    rfl
  have hsignals : signalSteps 4 s = .next ((s.fetched t).haltedIn .fetch 3 (.unrecognizedInstruction m)) := by
    refine signalSteps_trans (signalSteps_three_fetched hfetch hline) (signalSteps_one ?_)
    rw [signalStep_decode (s := s.fetched t) hrun rfl rfl, decodeSignal, hdecode]
    rfl
  exact ⟨hstep, hsignals.trans hstep.symm⟩

end Sys2Proof.Machine
end

section
/-! SUPPORT. The operands of an instruction: the signals that ask for them and their halts, a missing operand
(30_encoding.md R84) and a token that is no integer (R83). -/

namespace Sys2Proof.Machine

/-! ### Signals that ask for operands -/

/-- One operand after another is asked for, and the first missing one halts. -/
theorem needToken_missing {i n : Nat} {o : Operand} {rest : List Operand} {s : State} {k : Token → SigResult}
    (h : (o :: rest).findIdx? Option.isNone = some n)
    (hk : ∀ t m, rest.findIdx? Option.isNone = some m → k t = .halt (.operandMissing (m + (i + 1))) s) :
    needToken i o s k = .halt (.operandMissing (n + i)) s := by
  cases o with
  | none =>
    obtain rfl : 0 = n := by simpa [List.findIdx?_cons] using h
    rw [needToken_none, Nat.zero_add]
  | some t =>
    obtain ⟨m, hm, rfl⟩ : ∃ m, rest.findIdx? Option.isNone = some m ∧ m + 1 = n := by
      simpa [List.findIdx?_cons] using h
    rw [needToken_some, hk t m hm, Nat.add_right_comm, Nat.add_assoc]

section
variable {n : Nat} {a b d : Operand} (s : State)

theorem decodeOperandsRRR_missing (h : [a, b, d].findIdx? Option.isNone = some n) :
    decodeOperandsRRR a b d s = .halt (.operandMissing (n + 1)) s :=
  needToken_missing h fun _ _ h => needToken_missing h fun _ _ h => needToken_missing h nofun

theorem decodeOperandsRR_missing (h : [a, b].findIdx? Option.isNone = some n) :
    decodeOperandsRR a b s = .halt (.operandMissing (n + 1)) s :=
  needToken_missing h fun _ _ h => needToken_missing h nofun

theorem decodeOperandsRImm_missing (h : [a, b].findIdx? Option.isNone = some n) :
    decodeOperandsRImm a b s = .halt (.operandMissing (n + 1)) s :=
  needToken_missing h fun _ _ h => needToken_missing h nofun

theorem decodeOperandsRRdest_missing (h : [a, b].findIdx? Option.isNone = some n) :
    decodeOperandsRRdest a b s = .halt (.operandMissing (n + 1)) s :=
  needToken_missing h fun _ _ h => needToken_missing h nofun

theorem decodeOperandAddr_missing (h : [a].findIdx? Option.isNone = some n) :
    decodeOperandAddr a s = .halt (.operandMissing (n + 1)) s :=
  needToken_missing h nofun

theorem reg1ToMbr_missing (h : [a].findIdx? Option.isNone = some n) :
    reg1ToMbr a s = .halt (.operandMissing (n + 1)) s :=
  needToken_missing h nofun

end

theorem immediateToMbr_of_literal {s : State} {t : Token} {v : Word} (h : s.op1 = some t) (ht : parseInt t = some v) :
    immediateToMbr s = .next { s with mbr := v } := by
  rw [immediateToMbr, h, needField_some, needInt_some ht]

theorem immediateToMbr_of_noLiteral {s : State} {t : Token} (h : s.op1 = some t) (ht : parseInt t = none) :
    immediateToMbr s = .halt (.badInteger t) s := by
  rw [immediateToMbr, h, needField_some, needInt_none ht]

theorem addressToPc_of_literal {s : State} {t : Token} {v : Word} (h : s.op1 = some t) (ht : parseInt t = some v) :
    addressToPc s = .clear { s with pc := v } := by
  rw [addressToPc, h, needField_some, needInt_some ht]

theorem addressToPc_of_noLiteral {s : State} {t : Token} (h : s.op1 = some t) (ht : parseInt t = none) :
    addressToPc s = .halt (.badInteger t) s := by
  rw [addressToPc, h, needField_some, needInt_none ht]

/-- Settles O19: the signals that ask for nothing are their rules; the others are said by how many tokens there are and
whether the token in `op1` is a literal. -/
theorem sourceSignalsDoWhatTheirRulesSay : Obligations.SourceSignalsDoWhatTheirRulesSay := by
  intro s
  refine ⟨rfl, rfl, fun a b ha hb => ?_, fun ha => ?_, fun ha hb => ?_, fun t ht => ?_, fun t v hop ht => ?_,
    fun t hop ht => ?_, rfl, fun _ => rfl, fun _ _ => rfl, fun _ _ _ => rfl⟩
  all_goals simp only [perform, State.tok]
  · rw [ha, hb]
    exact ⟨rfl, rfl⟩
  · rw [ha]
    exact ⟨decodeOperandsRR_missing s rfl, decodeOperandsRImm_missing s rfl, decodeOperandAddr_missing s rfl,
      reg1ToMbr_missing s rfl⟩
  · obtain ⟨a, ha⟩ := Option.isSome_iff_exists.mp ha
    rw [ha, hb]
    exact ⟨decodeOperandsRR_missing s rfl, decodeOperandsRImm_missing s rfl⟩
  · rw [ht]
    exact ⟨rfl, rfl⟩
  · exact ⟨immediateToMbr_of_literal hop ht, addressToPc_of_literal hop ht⟩
  · exact ⟨immediateToMbr_of_noLiteral hop ht, addressToPc_of_noLiteral hop ht⟩

/-! ### Instructions that halt at their first or second signal -/

/-- A microprogram whose first signal halts. -/
theorem runProgram_halt {k : Key} {sig : State → SigResult} {rest : List (State → SigResult)} {s : State}
    {c : HaltCause} (h : sig (s.activated k) = .halt c (s.activated k)) :
    runProgram k (sig :: rest) s = s.haltedIn k 0 c :=
  runSignals_halt h

/-- Settles O52: apart from JE and JNE, every instruction with an operand has a decode signal, and it is the first. -/
theorem missingOperandHaltsAtTheDecodeSignal : Obligations.MissingOperandHaltsAtTheDecodeSignal := by
  intro i s n hje hjne h
  refine (exec_eq_runProgram i s).trans (congrArg Host.Outcome.next ?_)
  cases i with
  | add | sub | mul | div | and | or | xor => exact runProgram_halt (decodeOperandsRRR_missing _ h)
  | not | movReg => exact runProgram_halt (decodeOperandsRRdest_missing _ h)
  | movImm | load | store => exact runProgram_halt (decodeOperandsRImm_missing _ h)
  | cmp => exact runProgram_halt (decodeOperandsRR_missing _ h)
  | jmp => exact runProgram_halt (decodeOperandAddr_missing _ h)
  | je => exact absurd rfl hje
  | jne => exact absurd rfl hjne
  | inputChar | outputChar | hlt | fetch => cases h

/-- Settles O53: the decode signal goes on, and the second signal converts the token in `op1`. -/
theorem badIntegerHaltsAtTheConversion : Obligations.BadIntegerHaltsAtTheConversion := by
  intro s r t ht
  refine ⟨congrArg Host.Outcome.next ?_, congrArg Host.Outcome.next ?_, exec_store_of_noLiteral s r ht,
    congrArg Host.Outcome.next ?_⟩
  · exact (runSignals_next (decodeOperandsRImm_some r t _)).trans
      (runSignals_halt (immediateToMbr_of_noLiteral rfl ht))
  · exact (runSignals_next (decodeOperandsRImm_some r t _)).trans (runSignals_halt (addressToMar_of_noLiteral rfl ht))
  · exact (runSignals_next rfl).trans (runSignals_halt (addressToPc_of_noLiteral rfl ht))

end Sys2Proof.Machine
end

section
/-! SUPPORT. Single events `Step`: a halted machine, the sequencer's four reactions (40_microengine.md R102), the four signals
of FETCH, and a taken conditional jump whose target cannot be had (60_exceptions.md R243). -/

namespace Sys2Proof.Machine

/-- Settles O1, by induction on the number of Steps. -/
theorem haltedMachineStaysAsItIs : Obligations.HaltedMachineStaysAsItIs := by
  intro s hs
  have hstep : signalStep s = .next s := signalStep_halted hs
  refine ⟨hstep, fun n => ?_⟩
  induction n with
  | zero => exact signalSteps_zero s
  | succ n ih => exact (signalSteps_succ hstep).trans ih

/-- A signal that goes on at the last place ends its microprogram. -/
theorem applyResult_next_last {len : Nat} {s : State} (h : s.upc + 1 = len) :
    applyResult len (.next s) = { s with active := none, upc := 0 } := if_pos h

/-- A signal that goes on before the last place moves the cursor. -/
theorem applyResult_next_more {len : Nat} {s : State} (h : s.upc + 1 ≠ len) :
    applyResult len (.next s) = { s with upc := s.upc + 1 } := if_neg h

/-- Settles O4: a signal rule leaves the sequencer's fields alone, and the sequencer reacts to each outcome in one way. -/
theorem oneSignalMovesTheCursorOnce : Obligations.OneSignalMovesTheCursorOnce := by
  intro s t hrun h
  rcases signalStep_cases h with ⟨hhalted, -⟩ | ⟨-, k, sig, -, -, -, rfl⟩
  · simp [hrun] at hhalted
  obtain ⟨hactive, hupc, hhalted, -, -, -⟩ := perform_same sig s.activateFetch
  rw [activateFetch_halted, hrun] at hhalted
  cases hr : perform sig s.activateFetch with
  | halt c u =>
    rw [hr] at hactive hupc
    exact .inl ⟨rfl, hactive, hupc⟩
  | next u =>
    rw [hr] at hactive hupc hhalted
    by_cases hlast : u.upc + 1 = (microprogram k).length
    · rw [applyResult_next_last hlast]
      exact .inr ⟨hhalted, .inr (.inl ⟨rfl, rfl⟩)⟩
    · rw [applyResult_next_more hlast]
      exact .inr ⟨hhalted, .inl ⟨hactive, congrArg (· + 1) hupc⟩⟩
  | clear u =>
    rw [hr] at hhalted
    exact .inr ⟨hhalted, .inr (.inl ⟨rfl, rfl⟩)⟩
  | activate j u =>
    rw [hr] at hhalted
    exact .inr ⟨hhalted, .inr (.inr ⟨j, rfl, rfl⟩)⟩

/-! ### The line at `pc` is an instruction -/

/-- A `Step` at `Decode` where the fetched text is an instruction (R110). -/
theorem signalStep_decode_instr {s : State} {i : Instr} (hrun : s.halted = false) (ha : s.active = some .fetch)
    (hu : s.upc = 3) (hi : decode s.params.logicExt s.ir = .instr i) : signalStep s = .next (s.activated i.key) := by
  rw [signalStep_decode hrun ha hu, decodeSignal, hi]
  rfl

theorem decodeAndRun_instr {s : State} {i : Instr} (hi : decode s.params.logicExt s.ir = .instr i) :
    decodeAndRun s = exec i s := by
  rw [decodeAndRun, hi]

/-- Settles O2: the line is fetched, and `Decode` finds `i`. -/
theorem stepRunsTheDecodedInstruction : Obligations.StepRunsTheDecodedInstruction := by
  intro s t i hfetch hi
  rw [step_of_line hfetch (isBlank_of_decode hi)]
  exact decodeAndRun_instr (s := s.fetched t) hi

/-- Settles O3: three Steps fetch the line, and the fourth is `Decode`. -/
theorem fourSignalsFetchAndActivate : Obligations.FourSignalsFetchAndActivate := by
  intro s t i hfetch hi
  have hthree : signalSteps 3 s = .next (s.fetched t) := signalSteps_three_fetched hfetch (isBlank_of_decode hi)
  have hfourth : signalStep (s.fetched t) = .next ((s.fetched t).activated i.key) :=
    signalStep_decode_instr hfetch.1 rfl rfl hi
  exact ⟨hthree, signalSteps_trans hthree (signalSteps_one hfourth)⟩

/-! ### A taken jump with a bad target -/

theorem jumpInline_missing (s : State) : jumpInline none s = .halt (.operandMissing 1) s := rfl

theorem jumpInline_of_noLiteral (s : State) {t : Token} (ht : parseInt t = none) :
    jumpInline (some t) s = .halt (.badInteger t) { s with op1 := some t } :=
  addressToPc_of_noLiteral (s := { s with op1 := some t }) rfl ht

/-- JE halts where its inline jump does, after the pop (R133). -/
theorem exec_je_halt {s u : State} {e : Word} {rest : List Word} {t : Operand} {c : HaltCause} (hq : s.iq = e :: rest)
    (he : e = 0) (h : jumpInline t { s.activated .je with iq := rest } = .halt c u) :
    exec (.je t) s = .next (raiseHalt c u) :=
  congrArg Host.Outcome.next (runSignals_halt ((condJump_taken (s := s.activated .je) t hq (by simpa using he)).trans h))

/-- JNE halts where its inline jump does, after the pop (R134). -/
theorem exec_jne_halt {s u : State} {e : Word} {rest : List Word} {t : Operand} {c : HaltCause} (hq : s.iq = e :: rest)
    (he : e ≠ 0) (h : jumpInline t { s.activated .jne with iq := rest } = .halt c u) :
    exec (.jne t) s = .next (raiseHalt c u) :=
  congrArg Host.Outcome.next (runSignals_halt ((condJump_taken (s := s.activated .jne) t hq (by simpa using he)).trans h))

/-- Settles O50: the entry is popped before the target is asked for, and the halt undoes nothing. -/
theorem takenConditionalJumpWithBadTargetHalts : Obligations.TakenConditionalJumpWithBadTargetHalts := by
  intro s e rest hq
  refine ⟨fun he => ?_, fun he => ?_, fun t ht => ⟨fun he => ?_, fun he => ?_⟩⟩
  · exact exec_je_halt hq he (jumpInline_missing _)
  · exact exec_jne_halt hq he (jumpInline_missing _)
  · exact exec_je_halt hq he (jumpInline_of_noLiteral _ ht)
  · exact exec_jne_halt hq he (jumpInline_of_noLiteral _ ht)

end Sys2Proof.Machine
end

section
/-! SUPPORT. An instruction as a first sequence of events `Step` that comes to rest, and its length: the count of
70_reset_and_hazards.md R290, or less where an error halt cuts it off. -/

namespace Sys2Proof.Machine

/-! ### Coming to rest -/

/-- The machine is halted or between two instructions. -/
def State.atRest (s : State) : Bool := s.halted || s.atBoundary

theorem atRest_iff {s : State} : s.atRest = true ↔ s.halted = true ∨ s.atBoundary = true :=
  Bool.or_eq_true_iff

theorem atRest_eq_false_iff {s : State} : s.atRest = false ↔ s.halted = false ∧ s.atBoundary = false :=
  Bool.or_eq_false_iff ..

theorem atRest_of_idle {s : State} (ha : s.active = none) : s.atRest = true :=
  atRest_iff.mpr (.inr (by rw [State.atBoundary, ha]))

theorem atBoundary_of_active {s : State} {k : Key} (ha : s.active = some k) :
    s.atBoundary = (k == .fetch && s.upc == 0) := by
  rw [State.atBoundary, ha]

/-- Inside a microprogram other than FETCH, and in FETCH past its first signal, a running machine is not at rest. -/
theorem atRest_eq_false {s : State} {k : Key} (hrun : s.halted = false) (ha : s.active = some k)
    (h : k = .fetch → s.upc ≠ 0) : s.atRest = false := by
  refine atRest_eq_false_iff.mpr ⟨hrun, ?_⟩
  simpa [atBoundary_of_active ha] using h

theorem atRest_of_endedAbnormally {s : State} (h : s.endedAbnormally = true) : s.atRest = true := by
  obtain ⟨hhalted, -⟩ : s.halted = true ∧ (s.reason != some .hltOk) = true := by
    simpa [State.endedAbnormally] using h
  exact atRest_iff.mpr (.inl hhalted)

theorem endedAbnormally_raiseHalt {c : HaltCause} (hc : c ≠ .hltOk) (s : State) :
    (raiseHalt c s).endedAbnormally = true := by
  simpa [State.endedAbnormally] using hc

/-- From `s` the machine first comes to rest in `t`, `c` Steps later, or earlier where an error halt cuts it off. -/
inductive TakesSteps : Nat → State → State → Prop where
  | last {s t : State} (hstep : signalStep s = .next t) (ht : t.atRest = true) : TakesSteps 1 s t
  | cutOff {c : Nat} {s t : State} (hstep : signalStep s = .next t) (ht : t.endedAbnormally = true) :
      TakesSteps (c + 1) s t
  | more {c : Nat} {s u t : State} (hstep : signalStep s = .next u) (hu : u.atRest = false) (h : TakesSteps c u t) :
      TakesSteps (c + 1) s t

theorem TakesSteps.atRest {c : Nat} {s t : State} (h : TakesSteps c s t) : t.atRest = true := by
  induction h with
  | last _ ht => exact ht
  | cutOff _ ht => exact atRest_of_endedAbnormally ht
  | more _ _ _ ih => exact ih

/-- Without an error halt the count is exact. -/
theorem TakesSteps.signalSteps_eq {c : Nat} {s t : State} (h : TakesSteps c s t) (ht : t.endedAbnormally = false) :
    signalSteps c s = .next t := by
  induction h with
  | last hstep => exact signalSteps_one hstep
  | cutOff _ habnormal => simp [habnormal] at ht
  | more hstep _ _ ih => exact (signalSteps_succ hstep).trans (ih ht)

/-- At most `c` Steps lead to `t`, and none before the last of them comes to rest. -/
theorem TakesSteps.first {c : Nat} {s t : State} (h : TakesSteps c s t) :
    ∃ n, 1 ≤ n ∧ n ≤ c ∧ signalSteps n s = .next t ∧
      ∀ (m : Nat) (u : State), 1 ≤ m → m < n → signalSteps m s = .next u → u.atRest = false := by
  induction h with
  | last hstep => exact ⟨1, le_rfl, le_rfl, signalSteps_one hstep, by omega⟩
  | cutOff hstep => exact ⟨1, le_rfl, by omega, signalSteps_one hstep, by omega⟩
  | @more c s u t hstep hu _ ih =>
    obtain ⟨n, hpos, hle, hn, hbetween⟩ := ih
    refine ⟨n + 1, by omega, by omega, (signalSteps_succ hstep).trans hn, fun m v hm hlt hv => ?_⟩
    obtain ⟨m, rfl⟩ := Nat.exists_eq_succ_of_ne_zero (Nat.ne_of_gt hm)
    rw [signalSteps_succ hstep] at hv
    rcases Nat.eq_zero_or_pos m with rfl | hm
    · cases hv
      exact hu
    · exact hbetween m v hm (Nat.lt_of_succ_lt_succ hlt) hv

theorem runToBoundary_of_atRest (fuel : Nat) {s : State} (h : s.atRest = true) : runToBoundary fuel s = .next s := by
  cases fuel with
  | zero => rfl
  | succ fuel => exact if_pos h

theorem runToBoundary_step {fuel : Nat} {s t : State} (hs : s.atRest = false) (h : signalStep s = .next t) :
    runToBoundary (fuel + 1) s = runToBoundary fuel t := by
  rw [State.atRest] at hs
  rw [runToBoundary, hs, h]
  rfl

/-- With fuel enough, the rest of an instruction runs to where the machine first comes to rest. -/
theorem TakesSteps.runToBoundary_eq {c fuel : Nat} {s t : State} (h : TakesSteps c s t) (hs : s.atRest = false)
    (hfuel : c ≤ fuel) : runToBoundary fuel s = .next t := by
  induction h generalizing fuel with
  | last hstep ht =>
    obtain ⟨f, rfl⟩ := Nat.exists_eq_add_of_le' hfuel
    rw [runToBoundary_step hs hstep, runToBoundary_of_atRest f ht]
  | cutOff hstep ht =>
    obtain ⟨f, rfl⟩ := Nat.exists_eq_add_of_le' (Nat.le_of_add_left_le hfuel)
    rw [runToBoundary_step hs hstep, runToBoundary_of_atRest f (atRest_of_endedAbnormally ht)]
  | more hstep hu _ ih =>
    obtain ⟨f, rfl⟩ := Nat.exists_eq_add_of_le' (Nat.le_of_add_left_le hfuel)
    exact (runToBoundary_step hs hstep).trans (ih hu (by omega))

/-! ### What a signal before the last one of its microprogram can do -/

/-- The signals that may end a microprogram otherwise than by an error halt (R102, R103). -/
def endsProgram : Signal → Bool
  | .decode | .addressToPc | .condJumpIfZero | .condJumpIfNotZero | .haltCpu => true
  | _ => false

/-- An outcome that leaves its microprogram only by an error halt. -/
def SigResult.Stays : SigResult → Prop
  | .next _ => True
  | .halt c _ => c ≠ .hltOk
  | _ => False

theorem needToken_stays {i : Nat} {o : Operand} {s : State} {k : Token → SigResult} (h : ∀ t, (k t).Stays) :
    (needToken i o s k).Stays := by
  rcases needToken_cases i o s k with e | ⟨t, -, e⟩ <;> rw [e]
  · exact nofun
  · exact h t

theorem needField_stays {o : Option Token} {s : State} {k : Token → SigResult} (h : ∀ t, (k t).Stays) :
    (needField o s k).Stays := by
  rcases needField_cases o s k with e | ⟨t, -, e⟩ <;> rw [e]
  · exact nofun
  · exact h t

theorem needInt_stays {t : Token} {s : State} {k : Word → SigResult} (h : ∀ v, (k v).Stays) :
    (needInt t s k).Stays := by
  rcases needInt_cases t s k with e | ⟨v, -, e⟩ <;> rw [e]
  · exact nofun
  · exact h v

theorem next_stays (s : State) : (SigResult.next s).Stays := trivial

theorem aluToMbr_stays (op : AluOp) (a b : Word) (s : State) : (aluToMbr op a b s).Stays := by
  unfold aluToMbr
  split
  · exact nofun
  · exact next_stays _

theorem aluBinary_stays (op : AluOp) (s : State) : (aluBinary op s).Stays :=
  needField_stays fun _ => needField_stays fun _ => aluToMbr_stays ..

/-- Every signal but those that end a microprogram goes on or halts with an error. -/
theorem perform_stays {sig : Signal} (h : endsProgram sig = false) (s : State) : (perform sig s).Stays := by
  cases sig with
  | decode | addressToPc | condJumpIfZero | condJumpIfNotZero | haltCpu => cases h
  | pcOutMarIn | mbrOutIrIn => exact next_stays _
  | memReadPcInc =>
    rcases memReadPcInc_cases s with e | ⟨line, -, -, e⟩ <;> rw [perform, e]
    · exact nofun
    · exact next_stays _
  | decodeOperandsRRR =>
    exact needToken_stays fun _ => needToken_stays fun _ => needToken_stays fun _ => next_stays _
  | decodeOperandsRR | decodeOperandsRImm | decodeOperandsRRdest =>
    exact needToken_stays fun _ => needToken_stays fun _ => next_stays _
  | decodeOperandAddr | reg1ToMbr => exact needToken_stays fun _ => next_stays _
  | aluAdd | aluSub | aluMul | aluDiv | aluAnd | aluOr | aluXor => exact aluBinary_stays _ s
  | aluNot => exact needField_stays fun _ => aluToMbr_stays ..
  | mbrOutRegDestIn => exact needField_stays fun _ => next_stays _
  | immediateToMbr | addressToMar => exact needField_stays fun _ => needInt_stays fun _ => next_stays _
  | memDataReadMbrIn | mbrOutMemDataWrite | accToBusWriteToDevice1 | readFromDevice0BusToAcc =>
    simp only [perform, memDataReadMbrIn, mbrOutMemDataWrite, accToBusWriteToDevice1, readFromDevice0BusToAcc]
    split
    · exact nofun
    · exact next_stays _
  | aluCmpInterruptRequest => exact needField_stays fun _ => needField_stays fun _ => next_stays _
  | other name => exact nofun

theorem addressToPc_ne_activate (s t : State) (k : Key) : addressToPc s ≠ .activate k t := by
  cases hop : s.op1 with
  | none =>
    rw [addressToPc, hop]
    nofun
  | some x =>
    cases hx : parseInt x with
    | none =>
      rw [addressToPc_of_noLiteral hop hx]
      nofun
    | some v =>
      rw [addressToPc_of_literal hop hx]
      nofun

theorem jumpInline_ne_activate (o : Operand) (s t : State) (k : Key) : jumpInline o s ≠ .activate k t := by
  cases o with
  | none => nofun
  | some x => exact addressToPc_ne_activate _ t k

theorem condJump_ne_activate (taken : Word → Bool) (o : Operand) (s t : State) (k : Key) :
    condJump taken o s ≠ .activate k t := by
  unfold condJump
  split
  · nofun
  · split
    · exact jumpInline_ne_activate o _ t k
    · nofun

/-- Only `Decode` activates a microprogram (R110). -/
theorem perform_ne_activate {sig : Signal} (hsig : sig ≠ .decode) (s : State) (k : Key) (t : State) :
    perform sig s ≠ .activate k t := by
  cases hends : endsProgram sig with
  | false =>
    intro h
    have hstays := perform_stays hends s
    rwa [h] at hstays
  | true =>
    cases sig with
    | decode => exact absurd rfl hsig
    | addressToPc => exact addressToPc_ne_activate s t k
    | condJumpIfZero | condJumpIfNotZero => exact condJump_ne_activate _ _ s t k
    | haltCpu => nofun
    | _ => cases hends

/-- A signal that ends its microprogram stands last in it (R103). -/
theorem endsProgram_eq_false_of_drop {k : Key} {n : Nat} {sig later : Signal} {rest : List Signal}
    (h : (microprogram k).drop n = sig :: later :: rest) : endsProgram sig = false := by
  have hlast : ∀ g ∈ (microprogram k).dropLast, endsProgram g = false := by cases k <;> decide
  refine hlast sig ?_
  rw [← List.take_append_drop n (microprogram k), h, List.dropLast_append_of_ne_nil (by simp)]
  simp

/-- No microprogram but FETCH has `Decode`. -/
theorem decode_notMem_microprogram {k : Key} (hk : k ≠ .fetch) : Signal.decode ∉ microprogram k := by
  cases k with
  | fetch => exact absurd rfl hk
  | _ => decide

/-! ### The rest of a microprogram -/

/-- A `Step` at the signal the cursor names. -/
theorem signalStep_at {s : State} {k : Key} {sig : Signal} {rest : List Signal} (hrun : s.halted = false)
    (ha : s.active = some k) (hp : k.present s.params.logicExt = true)
    (hsigs : (microprogram k).drop s.upc = sig :: rest) :
    signalStep s = .next (applyResult (microprogram k).length (perform sig s)) := by
  have hself : s.activateFetch = s := activateFetch_of_active ha
  have hsig : (microprogram k)[s.upc]? = some sig := by rw [← List.head?_drop, hsigs]; rfl
  rw [signalStep_of hrun (k := k) (sig := sig) (by rwa [hself]) (by rwa [hself]) (by rwa [hself]), hself]

theorem runSignals_single (len : Nat) (f : State → SigResult) (s : State) :
    runSignals len [f] s = applyResult len (f s) := by
  simp only [runSignals]
  split <;> next e => rw [e]

/-- The last signal of a microprogram brings the machine to rest, unless it activates another one. -/
theorem applyResult_atRest {len : Nat} {r : SigResult} (hlast : r.state.upc + 1 = len)
    (hr : ∀ k t, r ≠ .activate k t) : (applyResult len r).atRest = true := by
  cases r with
  | next t =>
    rw [applyResult_next_last (s := t) hlast]
    exact atRest_of_idle rfl
  | activate k t => exact absurd rfl (hr k t)
  | clear t => exact atRest_of_idle rfl
  | halt c t => exact atRest_iff.mpr (.inl rfl)

/-- From inside a microprogram other than FETCH, its signals from the cursor on bring the machine to rest, one Step each. -/
theorem runSignals_takesSteps {k : Key} (hk : k ≠ .fetch) {sig : Signal} {rest : List Signal} {s : State}
    (hrun : s.halted = false) (ha : s.active = some k) (hp : k.present s.params.logicExt = true)
    (hsigs : (microprogram k).drop s.upc = sig :: rest) :
    TakesSteps (rest.length + 1) s (runSignals (microprogram k).length ((sig :: rest).map perform) s) := by
  induction rest generalizing sig s with
  | nil =>
    have hdecode : sig ≠ .decode := by
      rintro rfl
      exact decode_notMem_microprogram hk (List.mem_of_mem_drop (hsigs ▸ List.mem_cons_self))
    have hlast : (perform sig s).state.upc + 1 = (microprogram k).length := by
      have hlength := congrArg List.length hsigs
      rw [List.length_drop, List.length_singleton] at hlength
      rw [(perform_same sig s).upc]
      omega
    rw [List.map_singleton, runSignals_single]
    exact .last (signalStep_at hrun ha hp hsigs) (applyResult_atRest hlast (perform_ne_activate hdecode s))
  | cons later rest ih =>
    have hstep := signalStep_at hrun ha hp hsigs
    have hstays := perform_stays (endsProgram_eq_false_of_drop hsigs) s
    obtain ⟨hactive, hupc, hhalted, -, hparams, -⟩ := perform_same sig s
    rw [List.map_cons]
    cases hr : perform sig s with
    | next t =>
      simp only [hr, SigResult.state] at hstep hactive hupc hhalted hparams
      have hdrop : (microprogram k).drop (t.upc + 1) = later :: rest := by
        rw [hupc, ← List.tail_drop, hsigs, List.tail_cons]
      have hmore : t.upc + 1 ≠ (microprogram k).length := by
        intro hlast
        simp [hlast] at hdrop
      rw [applyResult_next_more hmore] at hstep
      rw [runSignals_next hr, applyResult_next_more hmore]
      have hrun' : { t with upc := t.upc + 1 }.halted = false := hhalted.trans hrun
      have ha' : { t with upc := t.upc + 1 }.active = some k := hactive.trans ha
      exact .more hstep (atRest_eq_false hrun' ha' fun h => absurd h hk) (ih hrun' ha' (hparams ▸ hp) hdrop)
    | halt c t =>
      rw [hr] at hstep hstays
      rw [runSignals_halt hr]
      exact .cutOff hstep (endedAbnormally_raiseHalt hstays t)
    | activate | clear =>
      rw [hr] at hstays
      exact hstays.elim

/-- The signals from the cursor on, however many there are. -/
theorem microprogram_takesSteps {k : Key} (hk : k ≠ .fetch) {s : State} (hrun : s.halted = false)
    (ha : s.active = some k) (hp : k.present s.params.logicExt = true) (hlt : s.upc < (microprogram k).length) :
    TakesSteps ((microprogram k).length - s.upc) s
      (runSignals (microprogram k).length (((microprogram k).drop s.upc).map perform) s) := by
  obtain ⟨sig, rest, hsigs⟩ : ∃ sig rest, (microprogram k).drop s.upc = sig :: rest :=
    List.exists_cons_of_length_pos (by rw [List.length_drop]; omega)
  have hlength : (microprogram k).length - s.upc = rest.length + 1 := by
    rw [← List.length_drop, hsigs, List.length_cons]
  rw [hlength, hsigs]
  exact runSignals_takesSteps hk hrun ha hp hsigs

/-! ### The instruction that the text in `ir` is -/

theorem execSignals_of_ne_fetch {k : Key} (hk : k ≠ .fetch) : execSignals k = microprogram k := by
  cases k with
  | fetch => exact absurd rfl hk
  | _ => rfl

/-- `exec` of the instruction in `ir` is the microprogram of its key, on the tokens of `ir`. -/
theorem exec_eq_runSignals_perform {s : State} {i : Instr} (hi : decode s.params.logicExt s.ir = .instr i)
    (hk : i.key ≠ .fetch) : exec i s =
      .next (runSignals (microprogram i.key).length ((microprogram i.key).map perform) (s.activated i.key)) := by
  obtain ⟨-, -, hinstr⟩ := decode_eq_instr hi
  have hsigs : execSignals i.key = microprogram i.key := execSignals_of_ne_fetch hk
  rw [exec_eq_runProgram, hsigs, runProgram, List.length_map, runSignals_map_congr]
  · intro sig hsig u hu
    rw [activated_ir] at hu
    rw [hinstr, ← hu]
    rw [hinstr, key_instr] at hsig
    exact performOn_operandAt_instr _ u sig hsig
  · exact ir_notMem_footprint hk

/-- From `Decode` on, the instruction in `ir` takes one Step and then one for each signal of its own (R110, R227). -/
theorem decode_takesSteps {s t : State} {i : Instr} (hrun : s.halted = false) (ha : s.active = some .fetch)
    (hu : s.upc = 3) (hi : decode s.params.logicExt s.ir = .instr i) (h : exec i s = .next t) :
    TakesSteps ((execSignals i.key).length + 1) s t := by
  have hstep := signalStep_decode_instr hrun ha hu hi
  by_cases hk : i.key = .fetch
  · obtain rfl : t = s.activated i.key := by
      rw [exec_eq_runProgram, hk] at h
      exact (Host.Outcome.next.inj h).symm.trans (by rw [hk]; rfl)
    rw [hk] at hstep ⊢
    exact .last hstep (atRest_iff.mpr (.inr rfl))
  · rw [exec_eq_runSignals_perform hi hk] at h
    cases h
    rw [execSignals_of_ne_fetch hk]
    obtain ⟨-, hp, -⟩ := decode_eq_instr hi
    exact .more hstep (atRest_eq_false hrun rfl fun h => absurd h hk)
      (microprogram_takesSteps (s := s.activated i.key) hk hrun rfl hp (microprogram_length_pos i.key))

theorem exec_answers (i : Instr) (s : State) : ∃ t, exec i s = .next t := ⟨_, exec_eq_runProgram i s⟩

theorem microprogram_length_le (k : Key) : (microprogram k).length ≤ 4 := by cases k <;> decide

theorem execSignals_length_le (k : Key) : (execSignals k).length ≤ 4 := by cases k <;> decide

/-- From `Decode` on, an instruction takes at most 5 Steps. -/
theorem decodeAndRun_takesSteps {s : State} (hrun : s.halted = false) (ha : s.active = some .fetch) (hu : s.upc = 3) :
    ∃ c t, c ≤ 5 ∧ decodeAndRun s = .next t ∧ TakesSteps c s t := by
  have hstep := signalStep_decode hrun ha hu
  unfold decodeSignal at hstep
  unfold decodeAndRun
  cases hd : decode s.params.logicExt s.ir with
  | instr i =>
    obtain ⟨t, ht⟩ := exec_answers i s
    exact ⟨_, t, Nat.succ_le_succ (execSignals_length_le i.key), ht, decode_takesSteps hrun ha hu hd ht⟩
  | blank | unrecognized m =>
    rw [hd] at hstep
    exact ⟨1, _, by omega, rfl, .last hstep (atRest_iff.mpr (.inl rfl))⟩

/-! ### The fetch -/

/-- The second and third Step of FETCH, on a line with a token. -/
theorem memReadPcInc_takesSteps {c : Nat} {s t : State} {line : Text} (hrun : s.halted = false)
    (ha : s.active = some .fetch) (hu : s.upc = 1) (hline : s.imemRead s.mar = some line) (hblank : isBlank line = false)
    (h : TakesSteps c { s with mbr := Config.fetchDigest line, ir := line, pc := s.pc + 1, upc := 3 } t) :
    TakesSteps (c + 2) s t := by
  have hstep : signalStep s =
      .next { s with mbr := Config.fetchDigest line, ir := line, pc := s.pc + 1, upc := 2 } := by
    rw [signalStep_memReadPcInc hrun ha hu, memReadPcInc_line hline hblank]
    simp [applyResult, hu]
  exact .more hstep (atRest_eq_false hrun ha fun _ => by simp)
    (.more (signalStep_mbrOutIrIn hrun ha rfl) (atRest_eq_false hrun ha fun _ => by simp) h)

/-- The second Step of FETCH, where there is no line with a token. -/
theorem memReadPcInc_end_takesSteps {s : State} (hrun : s.halted = false) (ha : s.active = some .fetch) (hu : s.upc = 1)
    (h : s.imemRead s.mar = none ∨ ∃ t, s.imemRead s.mar = some t ∧ isBlank t = true) :
    TakesSteps 1 s (raiseHalt (.endOfProgram s.mar) s) := by
  have hstep : signalStep s = .next (raiseHalt (.endOfProgram s.mar) s) := by
    rw [signalStep_memReadPcInc hrun ha hu, memReadPcInc_end h]
    rfl
  exact .last hstep (atRest_iff.mpr (.inl rfl))

/-- The first three Steps of an instruction, on a line with a token. -/
theorem fetched_takesSteps {c : Nat} {s t : State} {line : Text} (hfetch : s.aboutToFetch line)
    (hblank : isBlank line = false) (h : TakesSteps c (s.fetched line) t) : TakesSteps (c + 3) s t := by
  obtain ⟨hrun, hb, hline⟩ := hfetch
  exact .more (signalStep_pcOutMarIn hrun hb) (atRest_eq_false hrun rfl nofun)
    (memReadPcInc_takesSteps (s := s.addressed) hrun rfl rfl hline hblank h)

/-- A line of the program has a token, or it ends the run (R90). -/
theorem line_cases (s : State) (a : Word) :
    (∃ line, s.imemRead a = some line ∧ isBlank line = false) ∨
    (s.imemRead a = none ∨ ∃ line, s.imemRead a = some line ∧ isBlank line = true) := by
  cases hline : s.imemRead a with
  | none => exact .inr (.inl rfl)
  | some line =>
    cases hblank : isBlank line with
    | false => exact .inl ⟨line, rfl, hblank⟩
    | true => exact .inr (.inr ⟨line, rfl, hblank⟩)

/-! ### A whole instruction, and the rest of one -/

/-- Between two instructions a whole instruction takes at most 8 Steps. -/
theorem instructionStep_takesSteps {s : State} (hrun : s.halted = false) (hb : s.atBoundary = true) :
    ∃ c t, c ≤ 8 ∧ step s = .next t ∧ TakesSteps c s t := by
  rcases line_cases s s.pc with ⟨line, hline, hblank⟩ | hend
  · obtain ⟨c, t, hc, hrest, hsteps⟩ := decodeAndRun_takesSteps (s := s.fetched line) hrun rfl rfl
    exact ⟨c + 3, t, by omega, (step_of_line ⟨hrun, hb, hline⟩ hblank).trans hrest,
      fetched_takesSteps ⟨hrun, hb, hline⟩ hblank hsteps⟩
  · obtain ⟨hstep, -⟩ := absentOrBlankLineEndsTheProgram s hrun hb hend
    exact ⟨2, _, by omega, hstep, .more (signalStep_pcOutMarIn hrun hb) (atRest_eq_false hrun rfl nofun)
      (memReadPcInc_end_takesSteps (s := s.addressed) hrun rfl rfl hend)⟩

/-- Inside FETCH the rest of an instruction takes at most 7 Steps. -/
theorem fetch_rest_takesSteps {s : State} (hrun : s.halted = false) (ha : s.active = some .fetch) (hpos : s.upc ≠ 0)
    (hlt : s.upc < 4) : ∃ c t, c ≤ 7 ∧ TakesSteps c s t := by
  obtain hu | hu | hu : s.upc = 1 ∨ s.upc = 2 ∨ s.upc = 3 := by omega
  · rcases line_cases s s.mar with ⟨line, hline, hblank⟩ | hend
    · obtain ⟨c, t, hc, -, hsteps⟩ := decodeAndRun_takesSteps (s := { s with
        mbr := Config.fetchDigest line, ir := line, pc := s.pc + 1, upc := 3 }) hrun ha rfl
      exact ⟨c + 2, t, by omega, memReadPcInc_takesSteps hrun ha hu hline hblank hsteps⟩
    · exact ⟨1, _, by omega, memReadPcInc_end_takesSteps hrun ha hu hend⟩
  · obtain ⟨c, t, hc, -, hsteps⟩ := decodeAndRun_takesSteps (s := { s with upc := 3 }) hrun ha rfl
    exact ⟨c + 1, t, by omega,
      .more (signalStep_mbrOutIrIn hrun ha hu) (atRest_eq_false hrun ha fun _ => by simp) hsteps⟩
  · obtain ⟨c, t, hc, -, hsteps⟩ := decodeAndRun_takesSteps hrun ha hu
    exact ⟨c, t, by omega, hsteps⟩

/-- Inside an instruction the rest of it takes at most 7 Steps. -/
theorem rest_takesSteps {s : State} (hs : s.Inv) (hrest : s.atRest = false) : ∃ c t, c ≤ 7 ∧ TakesSteps c s t := by
  obtain ⟨hrun, hb⟩ := atRest_eq_false_iff.mp hrest
  cases ha : s.active with
  | none => simp [State.atBoundary, ha] at hb
  | some k =>
    obtain ⟨hp, hlt⟩ : k.present s.params.logicExt = true ∧ s.upc < (microprogram k).length := by
      simpa only [State.cursorOk, ha] using hs.cursor
    by_cases hk : k = .fetch
    · subst hk
      exact fetch_rest_takesSteps hrun ha (by simpa [atBoundary_of_active ha] using hb) hlt
    · have hfour := microprogram_length_le k
      exact ⟨_, _, by omega, microprogram_takesSteps hk hrun ha hp hlt⟩

theorem step_of_inside {s : State} (hrest : s.atRest = false) : step s = runToBoundary longestRest s := by
  obtain ⟨hrun, hb⟩ := atRest_eq_false_iff.mp hrest
  simp only [step, hrun, hb, Bool.false_eq_true, if_false]

/-- From every running state of the invariant, `step` is at most 8 Steps. -/
theorem step_takesSteps {s : State} (hs : s.Inv) (hrun : s.halted = false) :
    ∃ c t, c ≤ 8 ∧ step s = .next t ∧ TakesSteps c s t := by
  cases hb : s.atBoundary with
  | true => exact instructionStep_takesSteps hrun hb
  | false =>
    have hrest : s.atRest = false := atRest_eq_false_iff.mpr ⟨hrun, hb⟩
    obtain ⟨c, t, hc, hsteps⟩ := rest_takesSteps hs hrest
    exact ⟨c, t, by omega, (step_of_inside hrest).trans (hsteps.runToBoundary_eq hrest (hc.trans (by decide))), hsteps⟩

/-- Settles O9: `step` takes at most 8 Steps, and the last of them is the first that comes to rest. -/
theorem instructionStepIsASequenceOfSignalSteps : Obligations.InstructionStepIsASequenceOfSignalSteps := by
  intro s hs hrun
  obtain ⟨c, t, hc, hstep, hsteps⟩ := step_takesSteps hs hrun
  obtain ⟨n, hpos, hle, hn, hbetween⟩ := hsteps.first
  exact ⟨n, t, hpos, hle.trans hc, hstep, hn, atRest_iff.mp hsteps.atRest,
    fun m u hm hlt hu => atRest_eq_false_iff.mp (hbetween m u hm hlt hu)⟩

/-! ### The step count table -/

/-- The count of R290 is the four Steps of FETCH and one for each signal of the instruction's own. -/
theorem stepCount_eq (k : Key) : stepCount k = (execSignals k).length + 1 + 3 := by cases k <;> rfl

theorem endedAbnormally_eq_false {s : State} (h : s.halted = false ∨ s.reason = some .hltOk) :
    s.endedAbnormally = false := by
  rcases h with h | h <;> simp [State.endedAbnormally, h]

/-- Settles O10: the fetched instruction takes its count of Steps, and no error halt cuts it off. -/
theorem instructionsTakeTheirStepCount : Obligations.InstructionsTakeTheirStepCount := by
  refine ⟨fun s u t i hfetch hi h hend => ?_, fun k => ?_⟩
  · have hsteps : TakesSteps (stepCount i.key) s u := by
      rw [stepCount_eq]
      exact fetched_takesSteps hfetch (isBlank_of_decode hi) (decode_takesSteps hfetch.1 rfl rfl hi h)
    exact hsteps.signalSteps_eq (endedAbnormally_eq_false hend)
  · cases k <;> decide

end Sys2Proof.Machine
end

section
/-! SUPPORT. The ALU over the integers (41_arithmetic_logic.md R150 to R159): the widened result, its truncation and the
four flags, the quotient by its size and its sign, the complement; and `compare` (R168). -/

namespace Sys2Proof.Machine

/-! ### The range of a word -/

theorem word_range (a : Word) : -2147483648 ≤ a.toInt ∧ a.toInt ≤ 2147483647 := by
  have hlower : -2147483648 ≤ a.toInt := BitVec.le_toInt a
  have hupper : a.toInt < 2147483648 := BitVec.toInt_lt
  omega

theorem toInt_ofInt_of_range {w : Int} (hlower : -2147483648 ≤ w) (hupper : w ≤ 2147483647) :
    (BitVec.ofInt 32 w).toInt = w := by
  rw [BitVec.toInt_ofInt, Int.bmod_eq_of_le] <;> omega

/-- An integer is outside the `i32` range exactly when it is not its own truncation (R171). -/
theorem outsideI32_eq (w : Int) : outsideI32 w = decide (w ≠ (BitVec.ofInt 32 w).toInt) := by
  rw [outsideI32, ← Bool.decide_or, decide_eq_decide]
  constructor
  · intro houtside heq
    have hrange := word_range (BitVec.ofInt 32 w)
    omega
  · intro hne
    by_contra hinside
    exact hne (toInt_ofInt_of_range (by omega) (by omega)).symm

/-- Z and S as R150 states them are Z and S of the signed value. -/
theorem resultFlags_eq_lawFlags (r : Word) (c v : Bool) : resultFlags r c v = lawFlags r c v := by
  have hz : (r == 0) = decide (r.toInt = 0) := by
    rw [beq_eq_decide, decide_eq_decide]
    exact BitVec.toInt_inj (y := (0 : Word)).symm
  rw [resultFlags, lawFlags, hz]
  rfl

/-! ### Widened results -/

theorem sext64_toInt (a : Word) : a.sext64.toInt = a.toInt := BitVec.toInt_signExtend_of_le (by decide)

theorem trunc32_eq (x : WideWord) : x.trunc32 = BitVec.ofInt 32 x.toInt := by
  apply BitVec.eq_of_toInt_eq
  rw [WideWord.trunc32, BitVec.toInt_ofInt, BitVec.toInt_setWidth, BitVec.toInt_eq_toNat_bmod,
    Int.bmod_bmod_of_dvd (by decide)]

theorem wideOverflow_eq (x : WideWord) : wideOverflow x = decide (x.toInt ≠ x.trunc32.toInt) := by
  rw [wideOverflow, ← sext64_toInt x.trunc32, Bool.eq_iff_iff, bne_iff_ne, decide_eq_true_iff]
  exact BitVec.toInt_ne.symm

/-- The upper half of a widened result, as a number, is its quotient by 2^32 rounded down. -/
theorem wideCarry_eq (x : WideWord) : wideCarry x = decide (x.toInt / 2 ^ 32 ≠ 0) := by
  have hlt : x.toNat < 2 ^ 64 := x.isLt
  rw [wideCarry, Bool.eq_iff_iff, bne_iff_ne, decide_eq_true_iff, ne_eq, ne_eq, not_iff_not, ← BitVec.toNat_inj,
    BitVec.extractLsb'_toNat, BitVec.toInt_eq_toNat_cond, Nat.shiftRight_eq_div_pow, BitVec.toNat_ofNat]
  split <;> omega

theorem sext64_add_toInt (a b : Word) : (a.sext64 + b.sext64).toInt = a.toInt + b.toInt := by
  have ha := word_range a
  have hb := word_range b
  rw [BitVec.toInt_add, sext64_toInt, sext64_toInt, Int.bmod_eq_of_le] <;> omega

theorem sext64_sub_toInt (a b : Word) : (a.sext64 - b.sext64).toInt = a.toInt - b.toInt := by
  have ha := word_range a
  have hb := word_range b
  rw [BitVec.toInt_sub, sext64_toInt, sext64_toInt, Int.bmod_eq_of_le] <;> omega

theorem sext64_mul_toInt (a b : Word) : (a.sext64 * b.sext64).toInt = a.toInt * b.toInt := by
  have hlower := BitVec.le_toInt_mul_toInt (x := a) (y := b)
  have hupper := BitVec.toInt_mul_toInt_le (x := a) (y := b)
  rw [BitVec.toInt_mul, sext64_toInt, sext64_toInt, Int.bmod_eq_of_le] <;> omega

/-- The result and the flags of a widened result, over the integer it stands for. -/
theorem wide_result {x : WideWord} {w : Int} (h : x.toInt = w) (c : Bool) :
    (x.trunc32, resultFlags x.trunc32 c (wideOverflow x)) =
      (BitVec.ofInt 32 w, lawFlags (BitVec.ofInt 32 w) c (decide (w ≠ (BitVec.ofInt 32 w).toInt))) := by
  rw [resultFlags_eq_lawFlags, wideOverflow_eq, trunc32_eq, h]

/-- Settles O25: a sum or difference of two words fits 64 bits. -/
theorem aluAddAndSubWidenAndTruncate : Obligations.AluAddAndSubWidenAndTruncate := by
  rintro ovf op w a b (⟨rfl, rfl⟩ | ⟨rfl, rfl⟩)
  · have h := sext64_add_toInt a b
    exact congrArg some ((wide_result h _).trans (by rw [wideCarry_eq, h]))
  · have h := sext64_sub_toInt a b
    exact congrArg some ((wide_result h _).trans (by rw [wideCarry_eq, h]))

/-- Settles O26: a product of two words fits 64 bits. -/
theorem aluMulWidensAndTruncates : Obligations.AluMulWidensAndTruncates :=
  fun _ a b => congrArg some (wide_result (sext64_mul_toInt a b) false)

/-! ### The quotient -/

theorem tdiv_neg_iff (x y : Int) :
    x.tdiv y < 0 ↔ x.tdiv y ≠ 0 ∧ (x < 0 ∧ 0 < y ∨ 0 < x ∧ y < 0) := by
  have hpos : 0 ≤ x → 0 ≤ y → 0 ≤ x.tdiv y := Int.tdiv_nonneg
  have hneg : x ≤ 0 → y ≤ 0 → 0 ≤ x.tdiv y := Int.tdiv_nonneg_of_nonpos_of_nonpos
  have hmixed : 0 ≤ x → y ≤ 0 → x.tdiv y ≤ 0 := Int.tdiv_nonpos_of_nonneg_of_nonpos
  have hmixed' : x ≤ 0 → 0 ≤ y → x.tdiv y ≤ 0 := fun hx hy => by
    have := Int.tdiv_nonneg (Int.neg_nonneg_of_nonpos hx) hy
    rw [Int.neg_tdiv] at this
    omega
  omega

/-- The quotient toward zero is the integer of the size and the sign that R154 gives. -/
theorem eq_tdiv_of_size_of_sign {q x y : Int} (hsize : q.natAbs = x.natAbs / y.natAbs)
    (hsign : q < 0 ↔ q ≠ 0 ∧ (x < 0 ∧ 0 < y ∨ 0 < x ∧ y < 0)) : q = x.tdiv y := by
  have hsize' : (x.tdiv y).natAbs = x.natAbs / y.natAbs := Int.natAbs_tdiv x y
  have hsign' := tdiv_neg_iff x y
  omega

/-- The one quotient of two words that is no word (R154). -/
theorem outsideI32_tdiv (a b : Word) :
    outsideI32 (a.toInt.tdiv b.toInt) = decide (a.toInt = -2147483648 ∧ b.toInt = -1) := by
  have ha := word_range a
  rw [outsideI32, ← Bool.decide_or, decide_eq_decide]
  by_cases hpos : b.toInt = 1
  · rw [hpos, Int.tdiv_one]
    omega
  by_cases hneg : b.toInt = -1
  · rw [hneg, Int.tdiv_neg, Int.tdiv_one]
    omega
  by_cases hzero : b.toInt = 0
  · rw [hzero, Int.tdiv_zero]
    omega
  have hsize : (a.toInt.tdiv b.toInt).natAbs ≤ a.toInt.natAbs / 2 :=
    (Int.natAbs_tdiv _ _).trans_le (Nat.div_le_div_left (by omega) (by decide))
  omega

/-- `ALU(DIV, a, b)` over the exact quotient (R154). -/
theorem alu_div (ovf : Bool) (a : Word) {b : Word} (hb : b ≠ 0) :
    alu ovf .div a b = some (BitVec.ofInt 32 (a.toInt.tdiv b.toInt),
      lawFlags (BitVec.ofInt 32 (a.toInt.tdiv b.toInt)) false (ovf && outsideI32 (a.toInt.tdiv b.toInt))) := by
  rw [alu, if_neg hb, aluDivOp, resultFlags_eq_lawFlags, outsideI32_eq]
  rfl

theorem alu_div_zero (ovf : Bool) (a : Word) : alu ovf .div a 0 = none := by
  rw [alu, if_pos rfl]

/-- Settles O27: the size and the sign fix the quotient. -/
theorem aluDivRoundsTowardZero : Obligations.AluDivRoundsTowardZero := by
  refine fun ovf a b => ⟨fun hb => hb ▸ alu_div_zero ovf a, fun hb q hsize hsign => ?_⟩
  obtain rfl := eq_tdiv_of_size_of_sign hsize hsign
  rw [alu_div ovf a hb, outsideI32_tdiv]

/-! ### The bitwise operations -/

theorem alu_logic (ovf : Bool) (a b : Word) :
    alu ovf .and a b = some (a &&& b, lawFlags (a &&& b) false false) ∧
    alu ovf .or a b = some (a ||| b, lawFlags (a ||| b) false false) ∧
    alu ovf .xor a b = some (a ^^^ b, lawFlags (a ^^^ b) false false) ∧
    alu ovf .not a b = some (~~~a, lawFlags (~~~a) false false) := by
  simp only [alu, bitwise, resultFlags_eq_lawFlags, and_self]

/-- The complement is minus the word, minus 1 (R159). -/
theorem complement_eq (a : Word) : ~~~a = BitVec.ofInt 32 (-a.toInt - 1) := by
  rw [BitVec.not_eq_neg_add, BitVec.sub_eq_add_neg, Int.sub_eq_add_neg, BitVec.ofInt_add, BitVec.ofInt_neg,
    BitVec.ofInt_toInt, BitVec.ofInt_neg]
  rfl

theorem toInt_complement (a : Word) : (~~~a).toInt = -a.toInt - 1 := by
  have ha := word_range a
  rw [complement_eq, toInt_ofInt_of_range (by omega) (by omega)]

/-- Settles O28: each operation succeeds with its bitwise result, and the bits are the library's. -/
theorem aluLogicIsBitwise : Obligations.AluLogicIsBitwise := by
  intro ovf a b r f
  obtain ⟨hand, hor, hxor, hnot⟩ := alu_logic ovf a b
  refine ⟨fun h k => ?_, fun h k => ?_, fun h k => ?_, fun h => ?_, fun op hop => ?_⟩
  · cases hand.symm.trans h
    exact BitVec.getLsbD_and
  · cases hor.symm.trans h
    exact BitVec.getLsbD_or
  · cases hxor.symm.trans h
    exact BitVec.getLsbD_xor
  · cases hnot.symm.trans h
    exact ⟨toInt_complement a, fun k hk => by rw [BitVec.getLsbD_not, decide_eq_true hk, Bool.true_and]⟩
  · have hlaw : ∃ x, alu ovf op a b = some (x, lawFlags x false false) := by
      simp only [List.mem_cons, List.not_mem_nil, or_false] at hop
      rcases hop with rfl | rfl | rfl | rfl
      exacts [⟨_, hand⟩, ⟨_, hor⟩, ⟨_, hxor⟩, ⟨_, hnot⟩]
    obtain ⟨x, hx⟩ := hlaw
    refine ⟨by rw [hx]; rfl, fun h => ?_⟩
    cases hx.symm.trans h
    rfl

/-! ### Comparison -/

/-- Settles O29: `slt` is the order of the signed values, and these are equal for equal words only. -/
theorem compareIsTheSignedOrder : Obligations.CompareIsTheSignedOrder := by
  intro a b
  have hslt : a.slt b = decide (a.toInt < b.toInt) := BitVec.slt_eq_decide
  refine ⟨fun hlt => ?_, fun heq => ?_, fun hgt => ?_⟩
  · rw [compareWords, hslt, if_pos (decide_eq_true hlt)]
  · rw [compareWords, hslt, if_neg (by simp [heq]), if_pos (BitVec.toInt_inj.mp heq)]
  · rw [compareWords, hslt, if_neg (by rw [decide_eq_true_iff]; omega), if_neg fun h => by simp [h] at hgt]

end Sys2Proof.Machine
end

section
/-! SUPPORT. The arithmetic and logic instructions (41_arithmetic_logic.md R160 to R167): one run of the decode signal,
the ALU signal and the write-back, whatever the operation. -/

namespace Sys2Proof.Machine

/-! ### The three signals -/

theorem decodeOperandsRRR_some (a b d : Token) (s : State) :
    decodeOperandsRRR (some a) (some b) (some d) s = .next { s with op1 := some a, op2 := some b, dest := some d } := rfl

theorem decodeOperandsRRdest_some (a d : Token) (s : State) :
    decodeOperandsRRdest (some a) (some d) s = .next { s with op1 := some a, dest := some d } := rfl

theorem aluToMbr_of_result {op : AluOp} {a b r : Word} {f : Flags} {s : State}
    (h : alu s.params.divOvf op a b = some (r, f)) : aluToMbr op a b s = .next { s with mbr := r, flags := f } := by
  rw [aluToMbr, h]

theorem aluToMbr_of_none {op : AluOp} {a b : Word} {s : State} (h : alu s.params.divOvf op a b = none) :
    aluToMbr op a b s = .halt .divByZero s := by
  rw [aluToMbr, h]

theorem aluBinary_some {op : AluOp} {a b : Token} {s : State} (ha : s.op1 = some a) (hb : s.op2 = some b) :
    aluBinary op s = aluToMbr op (s.readReg a) (s.readReg b) s := by
  rw [aluBinary, ha, hb, needField_some, needField_some]

theorem aluNotMbrIn_some {a : Token} {s : State} (ha : s.op1 = some a) :
    aluNotMbrIn s = aluToMbr .not (s.readReg a) 0 s := by
  rw [aluNotMbrIn, ha, needField_some]

theorem mbrOutRegDestIn_some {d : Token} {s : State} (hd : s.dest = some d) :
    mbrOutRegDestIn s = .next (s.writeReg (signalName .mbrOutRegDestIn) d s.mbr) := by
  rw [mbrOutRegDestIn, hd, needField_some]

/-! ### The microprograms -/

theorem applyResult_next_at {len n : Nat} {s : State} (hu : s.upc = n) (hn : n + 1 ≠ len) :
    applyResult len (.next s) = { s with upc := n + 1 } := by
  subst hu
  exact applyResult_next_more hn

section
variable {sig₁ sig₂ : State → SigResult} {s u v : State}

/-- A microprogram that ends with the write-back, and whose first two signals go on. -/
theorem runProgram_writeBack (k : Key) {d : Token} (h₁ : sig₁ (s.activated k) = .next u) (hu : u.upc = 0)
    (h₂ : sig₂ { u with upc := 1 } = .next v) (hv : v.upc = 1) (hd : v.dest = some d) :
    runProgram k [sig₁, sig₂, mbrOutRegDestIn] s = v.resultTo d v.mbr := by
  have hfirst := applyResult_next_at (len := 3) hu (by decide)
  have hsecond := applyResult_next_at (len := 3) hv (by decide)
  have hwrite := mbrOutRegDestIn_some (s := { v with upc := 2 }) hd
  have hlast : applyResult 3 (.next ({ v with upc := 2 }.writeReg (signalName .mbrOutRegDestIn) d v.mbr)) =
      v.resultTo d v.mbr := by
    rw [State.resultTo, ← hd]
    rfl
  calc runSignals 3 [sig₁, sig₂, mbrOutRegDestIn] (s.activated k)
    _ = runSignals 3 [sig₂, mbrOutRegDestIn] { u with upc := 1 } := by rw [runSignals_next h₁, hfirst]
    _ = runSignals 3 [mbrOutRegDestIn] { v with upc := 2 } := by rw [runSignals_next h₂, hsecond]
    _ = v.resultTo d v.mbr := by rw [runSignals_next hwrite, runSignals_nil, hlast]

/-- A microprogram of three signals whose second halts. -/
theorem runProgram_halt_second (k : Key) {sig₃ : State → SigResult} {c : HaltCause}
    (h₁ : sig₁ (s.activated k) = .next u) (hu : u.upc = 0) (h₂ : sig₂ { u with upc := 1 } = .halt c v) :
    runProgram k [sig₁, sig₂, sig₃] s = raiseHalt c v := by
  have hfirst := applyResult_next_at (len := 3) hu (by decide)
  calc runSignals 3 [sig₁, sig₂, sig₃] (s.activated k)
    _ = runSignals 3 [sig₂, sig₃] { u with upc := 1 } := by rw [runSignals_next h₁, hfirst]
    _ = raiseHalt c v := runSignals_halt h₂

end

/-- A two-operand operation with a result: both registers are read before the destination is written, so the three names
may be the same. -/
theorem runProgram_aluBinary (k : Key) {op : AluOp} {s : State} {a b : Token} (d : Token) {r : Word} {f : Flags}
    (h : alu s.params.divOvf op (s.readReg a) (s.readReg b) = some (r, f)) :
    runProgram k [decodeOperandsRRR (some a) (some b) (some d), aluBinary op, mbrOutRegDestIn] s =
      { s.resultTo d r with op1 := some a, op2 := some b, flags := f } :=
  runProgram_writeBack k (decodeOperandsRRR_some a b d _) rfl
    ((aluBinary_some rfl rfl).trans (aluToMbr_of_result h)) rfl rfl

/-- A two-operand operation without a result halts at its second signal (R155). -/
theorem runProgram_aluBinary_halt (k : Key) {op : AluOp} {s : State} {a b : Token} (d : Token)
    (h : alu s.params.divOvf op (s.readReg a) (s.readReg b) = none) :
    runProgram k [decodeOperandsRRR (some a) (some b) (some d), aluBinary op, mbrOutRegDestIn] s =
      { s with op1 := some a, op2 := some b, dest := some d }.haltedIn k 1 .divByZero :=
  runProgram_halt_second k (decodeOperandsRRR_some a b d _) rfl ((aluBinary_some rfl rfl).trans (aluToMbr_of_none h))

/-- NOT reads one register, and its second input is the constant 0 (R123). -/
theorem runProgram_aluNot (k : Key) {s : State} {a : Token} (d : Token) {r : Word} {f : Flags}
    (h : alu s.params.divOvf .not (s.readReg a) 0 = some (r, f)) :
    runProgram k [decodeOperandsRRdest (some a) (some d), aluNotMbrIn, mbrOutRegDestIn] s =
      { s.resultTo d r with op1 := some a, flags := f } :=
  runProgram_writeBack k (decodeOperandsRRdest_some a d _) rfl ((aluNotMbrIn_some rfl).trans (aluToMbr_of_result h))
    rfl rfl

/-! ### The instructions -/

/-- An exact sum or difference of two words does not reach past 33 bits, so its upper half is not zero exactly when it
is negative (R172). -/
theorem upperHalf_ne_zero_iff {w : Int} (hlower : -4294967296 ≤ w) (hupper : w < 4294967296) :
    w / 2 ^ 32 ≠ 0 ↔ w < 0 := by
  omega

/-- The flags of ADD and SUB by R171 and R172. -/
theorem alu_add_sub (ovf : Bool) (a b : Word) {op : AluOp} {w : Int}
    (h : op = .add ∧ w = a.toInt + b.toInt ∨ op = .sub ∧ w = a.toInt - b.toInt) :
    alu ovf op a b =
      some (BitVec.ofInt 32 w, lawFlags (BitVec.ofInt 32 w) (decide (w < 0)) (outsideI32 w)) := by
  have ha := word_range a
  have hb := word_range b
  have hcarry : w / 2 ^ 32 ≠ 0 ↔ w < 0 := upperHalf_ne_zero_iff (by omega) (by omega)
  rw [outsideI32_eq, ← decide_eq_decide.mpr hcarry]
  exact aluAddAndSubWidenAndTruncate ovf op w a b h

/-- Settles O34, by the ALU's sum (O25). -/
theorem addWritesTheWrappedSum : Obligations.AddWritesTheWrappedSum :=
  fun _ _ _ d => congrArg Host.Outcome.next (runProgram_aluBinary .add d (alu_add_sub _ _ _ (.inl ⟨rfl, rfl⟩)))

/-- Settles O35, by the ALU's difference (O25). -/
theorem subWritesTheWrappedDifference : Obligations.SubWritesTheWrappedDifference :=
  fun _ _ _ d => congrArg Host.Outcome.next (runProgram_aluBinary .sub d (alu_add_sub _ _ _ (.inr ⟨rfl, rfl⟩)))

/-- Settles O36, by the ALU's product (O26). -/
theorem mulWritesTheLowHalfOfTheProduct : Obligations.MulWritesTheLowHalfOfTheProduct := by
  intro s a b d w r
  have halu : alu s.params.divOvf .mul (s.readReg a) (s.readReg b) = some (r, lawFlags r false (outsideI32 w)) :=
    outsideI32_eq w ▸ aluMulWidensAndTruncates s.params.divOvf (s.readReg a) (s.readReg b)
  exact congrArg Host.Outcome.next (runProgram_aluBinary .mul d halu)

/-- Settles O37: the zero divisor is the one case without a result. -/
theorem divWritesTheQuotientOrHalts : Obligations.DivWritesTheQuotientOrHalts := by
  intro s a b d q r
  refine ⟨fun hb => congrArg Host.Outcome.next ?_, fun hb => congrArg Host.Outcome.next ?_⟩
  · exact runProgram_aluBinary .div d (alu_div s.params.divOvf (s.readReg a) hb)
  · exact runProgram_aluBinary_halt .div d (hb ▸ alu_div_zero s.params.divOvf (s.readReg a))

/-- Settles O38: three instances of the two-operand microprogram. -/
theorem logicInstructionsWriteTheBitwiseResult : Obligations.LogicInstructionsWriteTheBitwiseResult := by
  intro s a b d x y
  obtain ⟨hand, hor, hxor, -⟩ := alu_logic s.params.divOvf x y
  exact ⟨congrArg Host.Outcome.next (runProgram_aluBinary .and d hand),
    congrArg Host.Outcome.next (runProgram_aluBinary .or d hor),
    congrArg Host.Outcome.next (runProgram_aluBinary .xor d hxor)⟩

/-- Settles O39: the decode signal leaves `op2` alone (R115). -/
theorem notWritesTheComplement : Obligations.NotWritesTheComplement := by
  intro s src dst r
  obtain ⟨-, -, -, hnot⟩ := alu_logic s.params.divOvf (s.readReg src) 0
  rw [complement_eq] at hnot
  exact congrArg Host.Outcome.next (runProgram_aluNot .not dst hnot)

end Sys2Proof.Machine
end

section
/-! SUPPORT. The data transfer instructions (42_data_transfer.md R190 to R193): two moves with the write-back microprogram
of the arithmetic instructions, a LOAD that turns on its data read, and a STORE that turns on its data write. -/

namespace Sys2Proof.Machine

/-! ### LOAD, signal by signal -/

/-- LOAD with both operands and an address literal comes to its data read, with the address in `mar` (R192). -/
theorem exec_load_of_literal (s : State) (d : Token) {m : Token} {a : Word} (hm : parseInt m = some a) :
    exec (.load (some d) (some m)) s = .next (runSignals 4 [memDataReadMbrIn, mbrOutRegDestIn]
      { s with active := some .load, upc := 2, dest := some d, op1 := some m, mar := a }) := by
  rw [exec, execLoad, runProgram, runSignals_next (decodeOperandsRImm_some d m _),
    runSignals_next (addressToMar_of_literal rfl hm)]
  rfl

/-- The write-back as the last signal of a microprogram ends the instruction with its result. -/
theorem runSignals_writeBack {len : Nat} {s : State} {d : Token} (hd : s.dest = some d) (hu : s.upc + 1 = len) :
    runSignals len [mbrOutRegDestIn] s = s.resultTo d s.mbr := by
  have hlast := applyResult_next_last (s := s.writeReg (signalName .mbrOutRegDestIn) d s.mbr) hu
  rw [runSignals_next (mbrOutRegDestIn_some hd), runSignals_nil, hlast, State.resultTo, ← hd]
  rfl

/-- A data read that answers `w` makes `w` the result of LOAD. -/
theorem runSignals_load_of_read {s : State} {d : Token} {w : Word} (hu : s.upc = 2) (hd : s.dest = some d)
    (hread : memDataReadMbrIn s = .next { s with mbr := w }) :
    runSignals 4 [memDataReadMbrIn, mbrOutRegDestIn] s = s.resultTo d w := by
  rw [runSignals_next hread, applyResult_next_at (s := { s with mbr := w }) hu (by decide)]
  exact runSignals_writeBack hd rfl

/-! ### The instructions -/

/-- Settles O42: `mar` holds the address at the data read, which gives the cell or halts (O31). -/
theorem loadReadsTheCellOrHalts : Obligations.LoadReadsTheCellOrHalts := by
  intro s d m a hm
  rw [exec_load_of_literal s d hm]
  obtain ⟨hcell, hnoCell⟩ := dataReadIsTheCellOrAHalt
    { s with active := some .load, upc := 2, dest := some d, op1 := some m, mar := a }
  refine ⟨fun h => congrArg Host.Outcome.next ?_, fun h => congrArg Host.Outcome.next ?_⟩
  · exact runSignals_load_of_read rfl rfl (hcell h)
  · exact runSignals_halt (hnoCell h)

/-- Settles O43: `mar` holds the address and `mbr` the source register at the data write, which changes the one cell or
halts (O32). -/
theorem storeWritesTheCellOrHalts : Obligations.StoreWritesTheCellOrHalts := by
  intro s src m a hm
  rw [exec_store_of_literal s src hm]
  obtain ⟨hcell, hnoCell⟩ := dataWriteChangesOneCell
    { s with active := some .store, upc := 3, op1 := some m, dest := some src, mar := a, mbr := s.readReg src }
  refine ⟨fun h => ?_, fun h => ?_⟩
  · obtain ⟨mem, hwrite, hsame, hother⟩ := hcell h
    refine ⟨{ s with
      dest := some src, op1 := some m, mar := a, mbr := s.readReg src, active := none, upc := 0, mem := mem },
      congrArg Host.Outcome.next ?_, rfl, hsame, hother⟩
    rw [hwrite]
    exact applyResult_next_last rfl
  · rw [hnoCell h]
    rfl

/-- Settles O40: `op1` holds the literal at the signal that converts it. -/
theorem movImmWritesTheLiteral : Obligations.MovImmWritesTheLiteral :=
  fun _ d i _ hi => congrArg Host.Outcome.next
    (runProgram_writeBack .movImm (decodeOperandsRImm_some d i _) rfl (immediateToMbr_of_literal rfl hi) rfl rfl)

/-- Settles O41: the source register is read before the destination is written, so the two may be the same. -/
theorem movRegCopiesTheSource : Obligations.MovRegCopiesTheSource :=
  fun _ src dst => congrArg Host.Outcome.next
    (runProgram_writeBack .movReg (decodeOperandsRRdest_some src dst _) rfl (reg1ToMbr_some src _) rfl rfl)

end Sys2Proof.Machine
end

section
/-! SUPPORT. The I/O instructions (43_io.md R210 to R213): one signal each, which turns on whether its device is in the
device list. -/

namespace Sys2Proof.Machine

/-! ### The device port -/

theorem take_of_supplied {i : Nat} {d : Device} {v : Word} {rest : List Word} (h : d.supplied = v :: rest) :
    Device.take i d = (v, { d with supplied := rest }) := by
  rw [Device.take, h]

/-- The environment's answer is counted, and nothing is taken from the empty supply. -/
theorem take_port_of_none_supplied {i : Nat} {d : Device} (h : d.supplied = []) :
    (Device.take i d).2 = { d with freeReads := d.freeReads + 1 } := by
  rw [Device.take, h]

theorem devRead_of_device {s : State} {i : Nat} {d : Device} (h : s.devices[i]? = some d) :
    s.devRead i = some ((Device.take i d).1, { s with devices := s.devices.set i (Device.take i d).2 }) := by
  rw [State.devRead, h]

theorem devRead_of_noDevice {s : State} {i : Nat} (h : s.devices[i]? = none) : s.devRead i = none := by
  rw [State.devRead, h]

theorem devWrite_of_device {s : State} {i : Nat} {d : Device} (v : Word) (h : s.devices[i]? = some d) :
    s.devWrite i v = some { s with devices := s.devices.set i { d with written := d.written ++ [v] } } := by
  rw [State.devWrite, h]

theorem devWrite_of_noDevice {s : State} {i : Nat} (v : Word) (h : s.devices[i]? = none) : s.devWrite i v = none := by
  rw [State.devWrite, h]

/-! ### The two signals -/

theorem readFromDevice0BusToAcc_of_device {s : State} {d : Device} (h : s.devices[0]? = some d) :
    readFromDevice0BusToAcc s =
      .next ({ s with devices := s.devices.set 0 (Device.take 0 d).2 }.writeReg (signalName .readFromDevice0BusToAcc)
        accName (Device.take 0 d).1) := by
  rw [readFromDevice0BusToAcc, devRead_of_device h]

theorem readFromDevice0BusToAcc_of_noDevice {s : State} (h : s.devices[0]? = none) :
    readFromDevice0BusToAcc s = .halt (.noDevice 0) s := by
  rw [readFromDevice0BusToAcc, devRead_of_noDevice h]

theorem accToBusWriteToDevice1_of_device {s : State} {d : Device} (h : s.devices[1]? = some d) :
    accToBusWriteToDevice1 s =
      .next { s with devices := s.devices.set 1 { d with written := d.written ++ [s.readReg accName] } } := by
  rw [accToBusWriteToDevice1, devWrite_of_device _ h]

theorem accToBusWriteToDevice1_of_noDevice {s : State} (h : s.devices[1]? = none) :
    accToBusWriteToDevice1 s = .halt (.noDevice 1) s := by
  rw [accToBusWriteToDevice1, devWrite_of_noDevice _ h]

/-! ### The instructions -/

/-- A microprogram of one signal, which goes on: the instruction is over (R102). -/
theorem runProgram_single {k : Key} {sig : State → SigResult} {s t : State} (h : sig (s.activated k) = .next t)
    (hu : t.upc = 0) : runProgram k [sig] s = { t with active := none, upc := 0 } :=
  (runSignals_next h).trans (applyResult_next_last (by rw [hu]; rfl))

/-- INPUT_CHAR with a device 0, whatever its port answers. -/
theorem exec_inputChar_of_device {s : State} {d : Device} (h : s.devices[0]? = some d) :
    exec .inputChar s =
      .next { s.writeReg (signalName .readFromDevice0BusToAcc) accName (Device.take 0 d).1 with
        devices := s.devices.set 0 (Device.take 0 d).2, active := none, upc := 0 } :=
  congrArg Host.Outcome.next (runProgram_single (readFromDevice0BusToAcc_of_device (s := s.activated .inputChar) h) rfl)

/-- Settles O44: with a device 0 the two cases are the two answers of its port. -/
theorem inputCharReadsDeviceZero : Obligations.InputCharReadsDeviceZero := by
  refine fun s => ⟨fun d v rest hd hsupplied => ?_, fun d hd hnone => ?_, fun hempty => congrArg Host.Outcome.next ?_⟩
  · rw [exec_inputChar_of_device hd, take_of_supplied hsupplied]
  · rw [exec_inputChar_of_device hd, take_port_of_none_supplied hnone]
  · have habsent : s.devices[0]? = none := by rw [hempty]; rfl
    exact runProgram_halt (readFromDevice0BusToAcc_of_noDevice habsent)

/-- Settles O45: index 1 is in the device list exactly when the list has at least two entries. -/
theorem outputCharWritesDeviceOne : Obligations.OutputCharWritesDeviceOne := by
  refine fun s => ⟨fun d hd => congrArg Host.Outcome.next ?_, fun hfew => congrArg Host.Outcome.next ?_⟩
  · exact runProgram_single (accToBusWriteToDevice1_of_device (s := s.activated .outputChar) hd) rfl
  · have habsent : s.devices[1]? = none := List.getElem?_eq_none (Nat.le_of_lt_succ hfew)
    exact runProgram_halt (accToBusWriteToDevice1_of_noDevice habsent)

end Sys2Proof.Machine
end

section
/-! SUPPORT. Control flow (44_control_flow.md R220 to R223, R226, R227): JMP and the taken conditional jumps end at the
write of `pc`, CMP ends at its request, and JE and JNE are one microprogram with opposite tests of the oldest entry. -/

namespace Sys2Proof.Machine

/-! ### The conditional jumps -/

/-- With a literal for a target the inline signals write `pc` and clear the microprogram (R105, R132). -/
theorem jumpInline_of_literal (s : State) {t : Token} {v : Word} (ht : parseInt t = some v) :
    jumpInline (some t) s = .clear { s with op1 := some t, pc := v } :=
  addressToPc_of_literal (s := { s with op1 := some t }) rfl ht

/-- The FIFO after a jump that is not taken: the tested entry is removed only where `CJ_POP` says so. -/
theorem popTested_untaken {s : State} {e : Word} {rest : List Word} (hq : s.iq = e :: rest) :
    popTested false rest s = { s with iq := if s.params.cjPop = .always then rest else e :: rest } := by
  by_cases hpop : s.params.cjPop = .always
  · simp [popTested, hpop]
  · simp [popTested, hpop, ← hq]

section
variable {s : State} {taken : Word → Bool} {e : Word} {rest : List Word}

theorem runProgram_condJump_empty (k : Key) (taken : Word → Bool) (t : Operand) (hq : s.iq = []) :
    runProgram k [condJump taken t] s = { s with active := none, upc := 0 } :=
  runProgram_single (t := s.activated k) (condJump_empty taken t hq) rfl

theorem runProgram_condJump_untaken (k : Key) (t : Operand) (hq : s.iq = e :: rest) (he : taken e = false) :
    runProgram k [condJump taken t] s =
      { s with iq := if s.params.cjPop = .always then rest else e :: rest, active := none, upc := 0 } := by
  have hsig := condJump_untaken (s := s.activated k) t hq he
  rw [popTested_untaken (s := s.activated k) hq] at hsig
  exact runProgram_single hsig rfl

theorem runProgram_condJump_taken (k : Key) {t : Token} {v : Word} (hq : s.iq = e :: rest) (he : taken e = true)
    (ht : parseInt t = some v) :
    runProgram k [condJump taken (some t)] s =
      { s with iq := rest, op1 := some t, pc := v, active := none, upc := 0 } :=
  runSignals_clear ((condJump_taken (s := s.activated k) _ hq he).trans (jumpInline_of_literal _ ht))

end

/-- Settles O48: JE's test holds of 0, and JNE's of every other entry. -/
theorem takenConditionalJumpPopsAndJumps : Obligations.TakenConditionalJumpPopsAndJumps := by
  refine fun s e rest t v hq ht => ⟨fun he => congrArg Host.Outcome.next ?_, fun he => congrArg Host.Outcome.next ?_⟩
  · exact runProgram_condJump_taken .je hq (beq_iff_eq.mpr he) ht
  · exact runProgram_condJump_taken .jne hq (bne_iff_ne.mpr he) ht

/-- Settles O49: the target is asked for by the inline jump only, so an untaken jump has no use for it. -/
theorem untakenConditionalJumpFallsThrough : Obligations.UntakenConditionalJumpFallsThrough := by
  refine fun s t => ⟨fun hq => ⟨congrArg Host.Outcome.next ?_, congrArg Host.Outcome.next ?_⟩, fun e rest hq =>
    ⟨fun he => congrArg Host.Outcome.next ?_, fun he => congrArg Host.Outcome.next ?_⟩⟩
  · exact runProgram_condJump_empty .je _ t hq
  · exact runProgram_condJump_empty .jne _ t hq
  · exact runProgram_condJump_untaken .je t hq (beq_eq_false_iff_ne.mpr he)
  · exact runProgram_condJump_untaken .jne t hq (bne_eq_false_iff_eq.mpr he)

/-! ### JMP -/

/-- Settles O46: the decode signal goes on, and the second signal converts the token in `op1` and clears. -/
theorem jmpWritesTheTarget : Obligations.JmpWritesTheTarget :=
  fun _ _ _ ht => congrArg Host.Outcome.next
    ((runSignals_next rfl).trans (runSignals_clear (addressToPc_of_literal rfl ht)))

/-! ### CMP -/

theorem aluCmpInterruptRequest_some {s : State} {a b : Token} (ha : s.op1 = some a) (hb : s.op2 = some b) :
    aluCmpInterruptRequest s = .next (s.iqRequest (compareWords (s.readReg a) (s.readReg b))) := by
  rw [aluCmpInterruptRequest, ha, hb, needField_some, needField_some]

/-- CMP with both operands is one request of the comparison of two registers. -/
theorem exec_cmp_some (s : State) (a b : Token) :
    exec (.cmp (some a) (some b)) s = .next { s with
      op1 := some a, op2 := some b, active := none, upc := 0,
      iq := fifoRequest s.params.iqDepth s.iq (compareWords (s.readReg a) (s.readReg b)) } :=
  congrArg Host.Outcome.next ((runSignals_next rfl).trans
    ((runSignals_next (aluCmpInterruptRequest_some rfl rfl)).trans (applyResult_next_last rfl)))

theorem fifoRequest_of_room {depth : Option Nat} {iq : List Word} (c : Word)
    (hroom : ∀ d : Nat, depth = some d → iq.length < d) : fifoRequest depth iq c = iq ++ [c] := by
  rcases fifoRequest_spec depth iq c with ⟨-, hreq⟩ | ⟨d, hd, hfull, -⟩
  · exact hreq
  · exact absurd hfull (Nat.not_le_of_lt (hroom d hd))

theorem fifoRequest_of_full {d : Nat} {iq : List Word} (c : Word) (hfull : d ≤ iq.length) :
    (fifoRequest (some d) iq c).Sublist (iq ++ [c]) ∧ (fifoRequest (some d) iq c).length ≤ d := by
  rcases fifoRequest_spec (some d) iq c with ⟨hroom, -⟩ | ⟨_, hd, -, hreq⟩
  · exact absurd hfull (Nat.not_le_of_lt (hroom d rfl))
  · cases hd
    exact hreq

/-- Settles O47: the entry is the signed comparison (O29), and the request turns on the room in the FIFO. -/
theorem cmpAppendsTheComparison : Obligations.CmpAppendsTheComparison := by
  intro s a b
  obtain ⟨hlt, heq, hgt⟩ := compareIsTheSignedOrder (s.readReg a) (s.readReg b)
  refine ⟨compareWords (s.readReg a) (s.readReg b), _, exec_cmp_some s a b, hlt, fun h => heq (congrArg _ h), hgt,
    fifoRequest_of_room _, fun d hd hfull => ?_⟩
  rw [hd]
  exact fifoRequest_of_full _ hfull

/-! ### HLT and FETCH -/

/-- Settles O51: HLT's one signal halts, and FETCH as an instruction runs none of its signals (D28). -/
theorem hltHaltsAndFetchDoesNothing : Obligations.HltHaltsAndFetchDoesNothing :=
  fun _ => ⟨congrArg Host.Outcome.next (runProgram_halt (sig := haltCpu) rfl), rfl⟩

end Sys2Proof.Machine
end

section
/-! SUPPORT. A Step and an instruction step always answer a next state (60_exceptions.md R247): a running machine has a
sequence of Steps to its next rest, and a halted one stays as it is. -/

namespace Sys2Proof.Machine

/-- A sequence of Steps begins with a Step that answers. -/
theorem TakesSteps.signalStep_answers {c : Nat} {s t : State} (h : TakesSteps c s t) :
    ∃ u, signalStep s = .next u := by
  cases h with
  | last hstep | cutOff hstep | more hstep => exact ⟨_, hstep⟩

theorem step_halted {s : State} (h : s.halted = true) : step s = .next s := if_pos h

/-- Settles O5: a halted machine answers itself, and a running one of the invariant has its sequence of Steps to rest. -/
theorem everyStepAnswersANextState : Obligations.EveryStepAnswersANextState := by
  refine fun s => ⟨fun hs => ?_, step_halted⟩
  cases hrun : s.halted with
  | true => exact ⟨⟨s, signalStep_halted hrun⟩, s, step_halted hrun⟩
  | false =>
    obtain ⟨_, t, -, hstep, hsteps⟩ := step_takesSteps hs hrun
    exact ⟨hsteps.signalStep_answers, t, hstep⟩

end Sys2Proof.Machine
end

section
/-! SUPPORT. Reload and the machine without a program (70_reset_and_hazards.md R271 to R273): `LoadProgram` always
answers, with the fields of its rule set and the others kept, and power-on is a fetch boundary whose line is absent. -/

namespace Sys2Proof.Machine

/-! ### `LoadProgram` -/

/-- The event has one outcome, on every machine: no state of the machine refuses a reload (R246, R274). -/
theorem applyEvent_loadProgram_eq_next_iff {p : List Text} {s t : State} :
    applyEvent (.loadProgram p) s = .next t ↔ t = loadProgram p s := by
  rw [applyEvent, Host.Outcome.next.injEq, eq_comm]

/-- Settles O14: each field of R272 is read after the reload by its own law. -/
theorem reloadResetsTheListedState : Obligations.ReloadResetsTheListedState := fun p s =>
  ⟨loadProgram p s, applyEvent_loadProgram_eq_next_iff.mpr rfl, loadProgram_imem p s, loadProgram_pc p s,
    loadProgram_ir p s, loadProgram_mar p s, loadProgram_mbr p s, loadProgram_regs p s, loadProgram_iq p s,
    loadProgram_op1 p s, loadProgram_op2 p s, loadProgram_dest p s, loadProgram_active p s, loadProgram_upc p s,
    loadProgram_halted p s, loadProgram_reason p s⟩

/-- Settles O15: the cells read as before because the data memory is the same list (D17). -/
theorem reloadKeepsMemoryFlagsAndDevices : Obligations.ReloadKeepsMemoryFlagsAndDevices := by
  intro p s t h
  obtain rfl := applyEvent_loadProgram_eq_next_iff.mp h
  have hmem : (loadProgram p s).mem = s.mem := loadProgram_mem p s
  exact ⟨fun a => congrArg (·.read a) hmem, hmem, loadProgram_flags p s, loadProgram_params p s,
    loadProgram_devices p s⟩

/-! ### Power-on without a program -/

theorem powerOn_atBoundary (p : Params) (ds : List Device) : (State.powerOn p ds).atBoundary = true := rfl

/-- Settles O18: power-on stands at a boundary without a line at address 0, so the fetch ends the program (O16); `mar`
was 0 before the first signal of FETCH wrote it. -/
theorem stepBeforeAnyLoadEndsTheProgram : Obligations.StepBeforeAnyLoadEndsTheProgram := by
  intro p ds
  have habsent : (State.powerOn p ds).imemRead (State.powerOn p ds).pc = none := imemRead_of_imem_nil rfl _
  obtain ⟨hstep, hsignals⟩ :=
    absentOrBlankLineEndsTheProgram (State.powerOn p ds) rfl (powerOn_atBoundary p ds) (.inl habsent)
  exact ⟨hsignals.trans hstep, hsignals.symm⟩

end Sys2Proof.Machine
end
